-- ==== Sys2Proof/Word.lean ====
section
/-! DEFINITION. The bit widths JTS uses: bytes of the two streams and the 32-bit command and response words
(20_memory.md R53, 30_encoding.md R70 and R80). -/

namespace Sys2Proof

/-- One byte of a stream or of a bit buffer (00_scope.md R8). -/
abbrev Byte := BitVec 8

/-- A command word or a response word (30_encoding.md R70, R80). -/
abbrev Word := BitVec 32

end Sys2Proof
end

