-- ==== Sys2Proof/Machine/BitBuffer.lean ====
section
/-! DEFINITION. BitBuffer (00_scope.md R2): bit strings packed in bytes, least significant bit first
(20_memory.md R50 to R53). A bit string is a list of Bool, first bit in time first (00_scope.md R8). -/

namespace Sys2Proof

/-- `ceil(n/8)` (00_scope.md R8). -/
def byteCount (n : Nat) : Nat := (n + 7) / 8

/-- Bit `i` of a buffer is bit `i mod 8` of byte `i div 8` (R50). -/
def bufBit (buf : List Byte) (i : Nat) : Bool := (buf.getD (i / 8) 0).getLsbD (i % 8)

/-- The byte whose bit `j` is `f j`. -/
def byteOf (f : Nat → Bool) : Byte := BitVec.ofBoolListLE [f 0, f 1, f 2, f 3, f 4, f 5, f 6, f 7]

/-- `Pack(s)`: `ceil(n/8)` bytes, the bits at and beyond `n` zero (R51). -/
def pack (s : List Bool) : List Byte :=
  (List.range (byteCount s.length)).map fun i => byteOf fun j => s.getD (8 * i + j) false

/-- `Unpack(buf, n)`: the first `n` bits of the buffer (R52). -/
def unpack (buf : List Byte) (n : Nat) : List Bool := (List.range n).map (bufBit buf)

/-- The four bytes of a word, least significant first (R53). -/
def wordBytes (w : Word) : List Byte :=
  [w.extractLsb' 0 8, w.extractLsb' 8 8, w.extractLsb' 16 8, w.extractLsb' 24 8]

/-- The word of four bytes, least significant first (R53). -/
def bytesWord (b0 b1 b2 b3 : Byte) : Word := b3 ++ b2 ++ b1 ++ b0

end Sys2Proof
end

