-- ==== Sys2Proof/Config.lean ====
section
/-! DEFINITION. The implementation parameters of 00_scope.md R7 and the free values: what an implementation fixes
and the spec leaves open, and the draws of the environment. Every free value is an opaque constant, so no proof can
see what it is. -/

namespace Sys2Proof

/-- `COUNT_W`: width of the COUNT field (00_scope.md R7). -/
def Config.countWidth : Nat := 24

/-- `COUNT_MAX = 2^COUNT_W - 1` (00_scope.md R7). -/
def Config.countMax : Nat := 2 ^ Config.countWidth - 1

/-- `BYTES_MAX` less one: the largest byte primitive is OPEN, an integer at least 1 (R7; 93 I10). Log 4. -/
opaque Config.bytesMaxLessOne : Nat

/-- `RRQ_DEPTH` less one: the queue capacity is OPEN, an integer at least 1 (R7; 93 I7). Log 4. -/
opaque Config.rrqDepthLessOne : Nat

/-- `CLOCK_HZ`: any u32, read by no rule (R7, R23). Log 4. -/
opaque Config.clockHz : BitVec 32

/-- The TDO bit the target answers on the edge at a position of the trace: a draw of which nothing is assumed
(00_scope.md R9; 93 I8). Log 2. -/
opaque Config.tdoDraw : Nat → Bool

/-- Whose move follows the n-th turn under the free schedule: `none` the Sequencer, `some k` a free delivery of
`k + 1` primitives (20_memory.md R58; 93 I6). Log 1. -/
opaque Config.turnDraw : Nat → Option Nat

/-- The outcome of a delivery when TRANSPORT_OK is false: `none` it succeeds, `some m` it fails after `m` edges
(60_exceptions.md R230, R231; 93 I9). Log 3. -/
opaque Config.failDraw : Nat → Option Nat

/-- What the adapter puts in the unused low bits of a raw sub-byte capture: any value (30_encoding.md R87; 93 I15).
Log 10. -/
opaque Config.rawLow : Byte

/-- The configuration of a session, fixed for its life (10_state.md R23). -/
structure Params where
  /-- `TMS_MAX`, most TMS bits one TMS primitive may carry. -/
  tmsMax : Nat
  /-- `BYTES_MAX`, most bytes one byte primitive may carry. -/
  bytesMax : Nat
  /-- `RRQ_DEPTH`, capacity of the read-response queue in entries. -/
  rrqDepth : Nat
  /-- `CLOCK_HZ`, held and read by no rule. -/
  clockHz : BitVec 32
deriving DecidableEq, Repr

/-- What R7 requires of the parameters. -/
abbrev Params.valid (c : Params) : Prop := 1 ≤ c.tmsMax ∧ 1 ≤ c.bytesMax ∧ 1 ≤ c.rrqDepth

/-- The instantiation values: `TMS_MAX` is 7 (R7), the OPEN parameters are free values. -/
def Params.instantiation : Params where
  tmsMax := 7
  bytesMax := Config.bytesMaxLessOne + 1
  rrqDepth := Config.rrqDepthLessOne + 1
  clockHz := Config.clockHz

end Sys2Proof
end

