-- ==== Sys2Proof/Machine/Tap.lean ====
section
/-! DEFINITION. The TAP state graph that the ghost `tap` walks (40_tap_traversal.md R110 to R113). -/

namespace Sys2Proof

/-- The 16 TAP states in the order of R110. -/
inductive TapState where
  | testLogicReset | runTestIdle
  | selectDR | captureDR | shiftDR | exit1DR | pauseDR | exit2DR | updateDR
  | selectIR | captureIR | shiftIR | exit1IR | pauseIR | exit2IR | updateIR
deriving DecidableEq, Repr

/-- All states, in R110's numbering. -/
def TapState.all : List TapState :=
  [.testLogicReset, .runTestIdle, .selectDR, .captureDR, .shiftDR, .exit1DR, .pauseDR, .exit2DR, .updateDR,
   .selectIR, .captureIR, .shiftIR, .exit1IR, .pauseIR, .exit2IR, .updateIR]

/-- `Next(s, tms)`, one TCK edge (R111). -/
def TapState.next : TapState → Bool → TapState
  | .testLogicReset, false => .runTestIdle
  | .testLogicReset, true => .testLogicReset
  | .runTestIdle, false => .runTestIdle
  | .runTestIdle, true => .selectDR
  | .selectDR, false => .captureDR
  | .selectDR, true => .selectIR
  | .captureDR, false => .shiftDR
  | .captureDR, true => .exit1DR
  | .shiftDR, false => .shiftDR
  | .shiftDR, true => .exit1DR
  | .exit1DR, false => .pauseDR
  | .exit1DR, true => .updateDR
  | .pauseDR, false => .pauseDR
  | .pauseDR, true => .exit2DR
  | .exit2DR, false => .shiftDR
  | .exit2DR, true => .updateDR
  | .updateDR, false => .runTestIdle
  | .updateDR, true => .selectDR
  | .selectIR, false => .captureIR
  | .selectIR, true => .testLogicReset
  | .captureIR, false => .shiftIR
  | .captureIR, true => .exit1IR
  | .shiftIR, false => .shiftIR
  | .shiftIR, true => .exit1IR
  | .exit1IR, false => .pauseIR
  | .exit1IR, true => .updateIR
  | .pauseIR, false => .pauseIR
  | .pauseIR, true => .exit2IR
  | .exit2IR, false => .shiftIR
  | .exit2IR, true => .updateIR
  | .updateIR, false => .runTestIdle
  | .updateIR, true => .selectDR

/-- The image of a set of states under one edge. A set is held as a sublist of `TapState.all`, so that equal sets
are equal lists (DESIGN CHOICE, safe: log 16). -/
def walkStep (tap : List TapState) (m : Bool) : List TapState :=
  TapState.all.filter fun t => tap.any fun s => decide (s.next m = t)

/-- `Walk(S, tms)` (R112). -/
def walk : List TapState → List Bool → List TapState
  | tap, [] => tap
  | tap, m :: ms => walk (walkStep tap m) ms

/-- `InShift(tap)`: non-empty and within ShiftDR and ShiftIR (10_state.md R33). -/
def inShift (tap : List TapState) : Bool :=
  !tap.isEmpty && tap.all fun s => decide (s = .shiftDR ∨ s = .shiftIR)

end Sys2Proof
end

