-- ==== Sys2Proof/Syntax.lean ====
section
/-! DEFINITION. The instructions of spec/opcode_table.json, one constructor per row: the eight commands the Host
sends (30_encoding.md R72) and the eight primitives the adapter executes (R86). -/

namespace Sys2Proof

/-- Owner tag of a primitive record (10_state.md R24). -/
inductive Owner where
  /-- `NONE`: no result is kept. -/
  | none
  /-- `SYNC`: the captured bits go to the synchronous read in progress. -/
  | sync
  /-- `ENTRY(k)`: the captured bits go to the queue entry with id `k`. -/
  | entry (k : Nat)
deriving DecidableEq, Repr

/-- The eight primitive kinds (30_encoding.md R86). -/
inductive PrimKind where
  | tmsOut | tmsIo | bytesOut | bytesIn | bytesIo | bitsOut | bitsIn | bitsIo
deriving DecidableEq, Repr

/-- The fields of a primitive record beside its KIND (30_encoding.md R85). -/
structure PrimBody where
  /-- `LEN`: TMS bits, bytes or bits, by kind. -/
  len : Nat
  /-- `TDI`: the held TDI level of a TMS primitive. -/
  tdi : Bool
  /-- `DATA`. -/
  data : List Byte
  /-- `own`, which stays inside JTS. -/
  own : Owner
deriving DecidableEq, Repr

/-- A primitive record `(KIND, LEN, TDI, DATA, own)` (30_encoding.md R85). -/
structure Prim where
  kind : PrimKind
  body : PrimBody
deriving DecidableEq, Repr

/-- One constructor per row of the opcode table. The commands carry the fields of the command word that R73 lets
them use, and their payload bytes as they stand on the stream. -/
inductive Instr where
  /-- CHANGE_MODE: `L` TMS bits, held TDI `t`, payload `Pack(tms)` (40_tap_traversal.md R120). -/
  | changeMode (l : Nat) (t : Bool) (payload : List Byte)
  /-- READ_DATA of `n` bits (41_shift.md R155). -/
  | readData (n : Nat)
  /-- WRITE_DATA of `n` bits, `pause_after` `p` (41_shift.md R156). -/
  | writeData (n : Nat) (p : Bool) (data : List Byte)
  /-- READ_WRITE_DATA of `n` bits, `pause_after` `p` (41_shift.md R157). -/
  | readWriteData (n : Nat) (p : Bool) (data : List Byte)
  /-- FLUSH (42_queue.md R195). -/
  | flush
  /-- QUEUE_READ of `n` bits (42_queue.md R185). -/
  | queueRead (n : Nat)
  /-- QUEUE_READ_WRITE of `n` bits, `pause_after` `p` (42_queue.md R186). -/
  | queueReadWrite (n : Nat) (p : Bool) (data : List Byte)
  /-- FINISH_READ of an entry of `n` bits (42_queue.md R190). -/
  | finishRead (n : Nat)
  /-- PRIM.TMS_OUT (40_tap_traversal.md R125). -/
  | primTmsOut (b : PrimBody)
  /-- PRIM.TMS_IO (40_tap_traversal.md R126). -/
  | primTmsIo (b : PrimBody)
  /-- PRIM.BYTES_OUT (41_shift.md R160). -/
  | primBytesOut (b : PrimBody)
  /-- PRIM.BYTES_IN (41_shift.md R161). -/
  | primBytesIn (b : PrimBody)
  /-- PRIM.BYTES_IO (41_shift.md R162). -/
  | primBytesIo (b : PrimBody)
  /-- PRIM.BITS_OUT (41_shift.md R163). -/
  | primBitsOut (b : PrimBody)
  /-- PRIM.BITS_IN (41_shift.md R164). -/
  | primBitsIn (b : PrimBody)
  /-- PRIM.BITS_IO (41_shift.md R165). -/
  | primBitsIo (b : PrimBody)
deriving DecidableEq, Repr

end Sys2Proof
end

