-- ==== Sys2Proof/Machine/State.lean ====
section
/-! DEFINITION. The state of a JTS session: block state, configuration and ghost state of 10_state.md, and the
model's own record of the environment (log 1, 2, 3, 10, 11). Plain data throughout. -/

namespace Sys2Proof.Machine

/-- Status codes (60_exceptions.md R222). -/
inductive Status where
  | ok | queueFull | illegalCommand | invalidArgument | queueEmpty | queueMismatch | transportFailure
  | deviceUnavailable
deriving DecidableEq, Repr

/-- Mode (10_state.md R22). -/
inductive Mode where
  | run | faulted
deriving DecidableEq, Repr

/-- Kind of a queue entry (10_state.md R25). -/
inductive EntryKind where
  | read | readWrite
deriving DecidableEq, Repr

/-- An entry of the read-response queue (10_state.md R25). -/
structure Entry where
  id : Nat
  /-- Result length in bits. -/
  n : Nat
  kind : EntryKind
  /-- TDO bits captured so far, in edge order. -/
  cap : List Bool
  /-- How many of the entry's primitives are still in `opb`. -/
  undelivered : Nat
deriving DecidableEq, Repr

/-- A delivered TCK edge (10_state.md R30). The record's `capture` flag is the presence of `tdo` (log 15). -/
structure TraceEdge where
  tms : Bool
  tdi : Bool
  tdo : Option Bool
deriving DecidableEq, Repr

/-- R30's `capture`. -/
def TraceEdge.capture (e : TraceEdge) : Bool := e.tdo.isSome

/-- Observation faults (10_state.md R32). -/
inductive ObsFault where
  | notInShift (cmdIdx : Nat)
  | unretrieved (k : Nat)
deriving DecidableEq, Repr

/-- A response: STATUS and the result bits, NBITS being their number (30_encoding.md R80). -/
structure Response where
  status : Status
  bits : List Bool
deriving DecidableEq, Repr

/-- Which oracle answers captured edges (00_scope.md R9): the open draw, or one of the named oracles of
95_test_vectors.md (LOOP, ONES and ZEROS, STREAM). -/
inductive TdoOracle where
  | draw
  | loopback
  | constant (b : Bool)
  | stream (bytes : List Byte)
deriving DecidableEq, Repr

/-- Delivery schedules (20_memory.md R58; 95_test_vectors.md): any free delivery at any step, or forced ones only. -/
inductive Schedule where
  | free | lazy
deriving DecidableEq, Repr

/-- Which agent moves next (00_scope.md R6): the Sequencer, or the Transport with a free delivery of `k + 1`
primitives, fewer where `opb` holds fewer (log 1). -/
inductive Turn where
  | sequencer
  | transport (k : Nat)
deriving DecidableEq, Repr

/-- What the Host does next (20_memory.md R64, 70_reset_and_hazards.md R253; log 11). -/
inductive HostPhase where
  /-- It may send more commands. -/
  | issuing
  /-- It has issued its last command. -/
  | finished
  /-- It has issued its last command and releases the session. -/
  | releasing
deriving DecidableEq, Repr

/-- The model's record of the environment: the open choices of the spec as plain data (log 1, 2, 3, 10). -/
structure Env where
  /-- `TRANSPORT_OK` (60_exceptions.md R230). -/
  transportOk : Bool
  /-- Outcome of the next delivery when `transportOk` is false: `none`, or after how many edges it fails. -/
  failure : Option Nat
  failDraws : Nat
  oracle : TdoOracle
  /-- What the adapter puts in the unused low bits of a raw sub-byte capture (30_encoding.md R87; 93 I15). -/
  rawLow : Byte
  schedule : Schedule
  turn : Turn
  turnDraws : Nat
deriving DecidableEq, Repr

/-- The machine state. -/
structure State where
  /-- Configuration (R23). -/
  params : Params
  /-- The environment's choices, the model's own. -/
  env : Env
  /-- `mode` (R22). -/
  mode : Mode
  /-- `fault_cause` (R22); its 8-bit code is `Status.code`. -/
  faultCause : Status
  /-- Outbound primitive buffer, oldest first (R24). -/
  opb : List Prim
  /-- Read-response queue, oldest first (R25). -/
  rrq : List Entry
  /-- `next_id` (R26). -/
  nextId : Nat
  /-- `sync_cap` (R27). -/
  syncCap : List Bool
  /-- Command bytes sent and not yet consumed (R28). -/
  input : List Byte
  /-- Ghost `cmd_idx` (R21). -/
  cmdIdx : Nat
  /-- Ghost `trace` (R30). -/
  trace : List TraceEdge
  /-- Ghost `tap` (R31), a sublist of `TapState.all` (log 16). -/
  tap : List TapState
  /-- Ghost `ofaults` (R32). -/
  ofaults : List ObsFault
  /-- Ghost `responses` (R34). -/
  responses : List Response
  /-- The Host's phase, the model's own (log 11). -/
  host : HostPhase
  /-- The end of the run (R64) has been recorded, the model's own (log 11). -/
  runEnded : Bool
  /-- The session has been torn down (R253), the model's own (log 11). -/
  released : Bool
deriving DecidableEq, Repr

/-- Why the machine stops. The errors of 60_exceptions.md are no stops: the machine takes them (Ops.raiseFault). -/
inductive Fault where
  /-- Raised by `step` at a session that has already been torn down (70_reset_and_hazards.md R253): there is no
  machine left to step, only a reset makes a new one. Safe: nothing can be proved of such a step. -/
  | sessionReleased
deriving DecidableEq, Repr

/-- Why an instruction has no meaning. -/
inductive Refusal where
  /-- Answered by an arm of `exec` whose instruction has no meaning yet; no arm does. Safe. -/
  | notModelled (mnemonic : String)
deriving DecidableEq, Repr

/-- What a step or a meaning answers. -/
abbrev Result := Host.Outcome State Fault Refusal

/-- The environment at `State.reset` (DESIGN CHOICE, log 1, 2, 3, 10): a transport that does not fail (R230), the
open oracle, the free schedule, the Sequencer to move. -/
def Env.initial : Env where
  transportOk := true
  failure := Config.failDraw 0
  failDraws := 1
  oracle := .draw
  rawLow := Config.rawLow
  schedule := .free
  turn := .sequencer
  turnDraws := 0

/-- Reset (10_state.md R35; 70_reset_and_hazards.md R250 to R252): a session created with instantiation values `c`,
in environment `e`, with an adapter bound or not (60_exceptions.md R233). -/
def State.resetWith (c : Params) (e : Env) (bound : Bool) : State where
  params := c
  env := e
  mode := if bound then .run else .faulted
  faultCause := if bound then .ok else .deviceUnavailable
  opb := []
  rrq := []
  nextId := 0
  syncCap := []
  input := []
  cmdIdx := 0
  trace := []
  tap := TapState.all
  ofaults := []
  responses := []
  host := .issuing
  runEnded := false
  released := false

/-- The machine right after reset, an adapter bound (log 3, 4, 5). -/
def State.reset : State := State.resetWith Params.instantiation Env.initial true

end Sys2Proof.Machine
end

