-- ==== Sys2Proof/Machine/Edges.lean ====
section
/-! DEFINITION. The TCK edges of each primitive (40_tap_traversal.md R125 and R126, 41_shift.md R160 to R165), their
sampling by the target (00_scope.md R9), and the raw capture an adapter returns with its conversion to bits
(30_encoding.md R87, 41_shift.md R167). -/

namespace Sys2Proof.Machine

/-- An edge a primitive makes: TMS, TDI, and whether TDO is captured (00_scope.md R5). -/
structure Edge where
  tms : Bool
  tdi : Bool
  capture : Bool
deriving DecidableEq, Repr

/-- TMS_OUT: `LEN` edges, TMS from DATA, TDI held (R125). -/
def edgesTmsOut (b : PrimBody) : List Edge := (List.range b.len).map fun j => ⟨bufBit b.data j, b.tdi, false⟩

/-- TMS_IO: as TMS_OUT with every edge captured (R126). -/
def edgesTmsIo (b : PrimBody) : List Edge := (List.range b.len).map fun j => ⟨bufBit b.data j, b.tdi, true⟩

/-- BYTES_OUT: `8 * LEN` edges, TMS 0, TDI from DATA (R160). -/
def edgesBytesOut (b : PrimBody) : List Edge := (List.range (8 * b.len)).map fun i => ⟨false, bufBit b.data i, false⟩

/-- BYTES_IN: `8 * LEN` edges, TMS 0, TDI 1, captured (R161, R142). -/
def edgesBytesIn (b : PrimBody) : List Edge := List.replicate (8 * b.len) ⟨false, true, true⟩

/-- BYTES_IO: `8 * LEN` edges, TMS 0, TDI from DATA, captured (R162). -/
def edgesBytesIo (b : PrimBody) : List Edge := (List.range (8 * b.len)).map fun i => ⟨false, bufBit b.data i, true⟩

/-- BITS_OUT: `LEN` edges, TMS 0, TDI from DATA byte 0 (R163). -/
def edgesBitsOut (b : PrimBody) : List Edge :=
  (List.range b.len).map fun j => ⟨false, (b.data.getD 0 0).getLsbD j, false⟩

/-- BITS_IN: `LEN` edges, TMS 0, TDI 1, captured (R164, R142). -/
def edgesBitsIn (b : PrimBody) : List Edge := List.replicate b.len ⟨false, true, true⟩

/-- BITS_IO: `LEN` edges, TMS 0, TDI from DATA byte 0, captured (R165). -/
def edgesBitsIo (b : PrimBody) : List Edge :=
  (List.range b.len).map fun j => ⟨false, (b.data.getD 0 0).getLsbD j, true⟩

/-- `Edges(p)` (20_memory.md R59). -/
def primEdges (p : Prim) : List Edge :=
  match p.kind with
  | .tmsOut => edgesTmsOut p.body
  | .tmsIo => edgesTmsIo p.body
  | .bytesOut => edgesBytesOut p.body
  | .bytesIn => edgesBytesIn p.body
  | .bytesIo => edgesBytesIo p.body
  | .bitsOut => edgesBitsOut p.body
  | .bitsIn => edgesBitsIn p.body
  | .bitsIo => edgesBitsIo p.body

/-- The edges of a list of primitives, in order. -/
def edgesOf (ps : List Prim) : List Edge := ps.flatMap primEdges

/-- `TmsOf(p)` (40_tap_traversal.md R113). -/
def tmsOf (p : Prim) : List Bool := (primEdges p).map (·.tms)

/-! ## Sampling -/

/-- The TDO bit of a captured edge at a position of the trace (R9; the named oracles of 95_test_vectors.md). -/
def TdoOracle.bit (o : TdoOracle) (pos : Nat) (tdi : Bool) : Bool :=
  match o with
  | .draw => Config.tdoDraw pos
  | .loopback => tdi
  | .constant b => b
  | .stream bytes => (bytes.getD (pos / 8 % bytes.length) 0).getLsbD (pos % 8)

/-- The trace record of an edge delivered at a position (R30, R59). -/
def Edge.sampled (o : TdoOracle) (pos : Nat) (e : Edge) : TraceEdge :=
  ⟨e.tms, e.tdi, if e.capture then some (o.bit pos e.tdi) else none⟩

/-- Edges delivered one after another from a position on. -/
def sampleEdges (o : TdoOracle) : Nat → List Edge → List TraceEdge
  | _, [] => []
  | pos, e :: es => e.sampled o pos :: sampleEdges o (pos + 1) es

/-- The TDO bits of the captured edges, in order. -/
def tdoBits (es : List TraceEdge) : List Bool := es.filterMap (·.tdo)

/-! ## Raw capture -/

/-- The raw bytes an adapter returns for a primitive of `len` whose captured edges gave `bits`; `low` is what it puts
in the unused low bits of a sub-byte capture (R87; log 10). -/
def adapterRaw (kind : PrimKind) (len : Nat) (low : Byte) (bits : List Bool) : List Byte :=
  match kind with
  | .bytesIn | .bytesIo => pack bits
  | .bitsIn | .bitsIo | .tmsIo =>
    [byteOf fun j => if j < 8 - len then low.getLsbD j else bits.getD (j - (8 - len)) false]
  | .tmsOut | .bytesOut | .bitsOut => []

/-- The bit string JTS makes of a raw capture (R167). -/
def convertRaw (kind : PrimKind) (len : Nat) (raw : List Byte) : List Bool :=
  match kind with
  | .bytesIn | .bytesIo => unpack raw (8 * len)
  | .bitsIn | .bitsIo | .tmsIo => unpack [raw.getD 0 0 >>> (8 - len)] len
  | .tmsOut | .bytesOut | .bitsOut => []

/-- The bits routed to a primitive's owner when its edges have been sampled. -/
def capturedBits (low : Byte) (p : Prim) (es : List TraceEdge) : List Bool :=
  convertRaw p.kind p.body.len (adapterRaw p.kind p.body.len low (tdoBits es))

end Sys2Proof.Machine
end

