-- ==== Sys2Proof/Machine/Flags.lean ====
section
/-! DEFINITION. Status codes and the response stream: the only flags JTS shows (10_state.md R22 and R29,
60_exceptions.md R222, 30_encoding.md R80). -/

namespace Sys2Proof.Machine

/-- The code of a status (R222). -/
def Status.code : Status → Byte
  | .ok => 0x00
  | .queueFull => 0x01
  | .illegalCommand => 0x10
  | .invalidArgument => 0x11
  | .queueEmpty => 0x12
  | .queueMismatch => 0x13
  | .transportFailure => 0x14
  | .deviceUnavailable => 0x15

/-- The status of a code; any other value is none (R222). -/
def Status.ofCode (v : Byte) : Option Status :=
  match v.toNat with
  | 0x00 => some .ok
  | 0x01 => some .queueFull
  | 0x10 => some .illegalCommand
  | 0x11 => some .invalidArgument
  | 0x12 => some .queueEmpty
  | 0x13 => some .queueMismatch
  | 0x14 => some .transportFailure
  | 0x15 => some .deviceUnavailable
  | _ => none

/-- R222's column `fault`. -/
def Status.isFault : Status → Bool
  | .ok | .queueFull => false
  | .illegalCommand | .invalidArgument | .queueEmpty | .queueMismatch | .transportFailure | .deviceUnavailable => true

/-- The response word: STATUS in `r[7:0]`, NBITS in `r[31:8]` (R80). -/
def Response.word (r : Response) : Word := BitVec.ofNat 24 r.bits.length ++ r.status.code

/-- The bytes of a response on the response stream (R80). -/
def Response.bytes (r : Response) : List Byte := wordBytes r.word ++ pack r.bits

/-- What the Host reads at the head of the response stream. A status value outside R222 is refused (93 I18). -/
inductive ReadResponse where
  | incomplete
  | unknownStatus (code : Byte)
  | response (r : Response) (rest : List Byte)
deriving DecidableEq, Repr

/-- Reading a response once its word is known. -/
def Response.ofWord (w : Word) (rest : List Byte) : ReadResponse :=
  match Status.ofCode (w.extractLsb' 0 8) with
  | none => .unknownStatus (w.extractLsb' 0 8)
  | some status =>
    if rest.length < byteCount (w.extractLsb' 8 24).toNat then .incomplete
    else .response ⟨status, unpack rest (w.extractLsb' 8 24).toNat⟩ (rest.drop (byteCount (w.extractLsb' 8 24).toNat))

/-- The Host's decoder of responses (R80, R222). -/
def Response.decode : List Byte → ReadResponse
  | b0 :: b1 :: b2 :: b3 :: rest => Response.ofWord (bytesWord b0 b1 b2 b3) rest
  | _ => .incomplete

/-- The response byte stream of a session so far (20_memory.md R56). -/
def State.responseStream (s : State) : List Byte := s.responses.flatMap Response.bytes

end Sys2Proof.Machine
end

