-- ==== Sys2Proof/Machine/Operands.lean ====
section
/-! DEFINITION. Operand forms: the derived counts of a shift (30_encoding.md R75), the chunk splits (R121, R146), and
the primitives a command makes of its operands (40_tap_traversal.md R120, 41_shift.md R147 and R151). -/

namespace Sys2Proof.Machine

/-- `b = N - 8 * (ceil(N/8) - 1)`, the bits in the last byte (R75). -/
def lastBits (n : Nat) : Nat := n - 8 * (byteCount n - 1)

/-- `dbit(i)`, the `i`-th bit to shift (41_shift.md R143). -/
def dbit (data : List Byte) (i : Nat) : Bool := bufBit data i

/-- `ByteChunks(m, B)` (R146): counts of exactly `B`, then `m mod B` when that is non-zero. -/
def byteChunks (m most : Nat) : List Nat :=
  List.replicate (m / most) most ++ (if m % most = 0 then [] else [m % most])

/-- Consecutive pieces of a list, of the given sizes. -/
def splitSizes {α : Type} : List Nat → List α → List (List α)
  | [], _ => []
  | k :: ks, xs => xs.take k :: splitSizes ks (xs.drop k)

/-- `Chunks(s, M)` (40_tap_traversal.md R121). -/
def chunks (s : List Bool) (most : Nat) : List (List Bool) := splitSizes (byteChunks s.length most) s

/-- The primitives of CHANGE_MODE (R120). -/
def changeModePrims (tmsMax : Nat) (tms : List Bool) (t : Bool) : List Prim :=
  (chunks tms tmsMax).map fun c => ⟨.tmsOut, c.length, t, pack c, .none⟩

/-- `ReadPrims(N, own)` (R147). -/
def readPrims (bytesMax n : Nat) (own : Owner) : List Prim :=
  (byteChunks (n / 8) bytesMax).map (fun m => ⟨.bytesIn, m, true, [], own⟩) ++
    (if n % 8 = 0 then [] else [⟨.bitsIn, n % 8, true, [], own⟩])

/-- `ExitTms(P)` (R150). -/
def exitTms (p : Bool) : List Bool := if p then [true, false] else [true]

/-- The three kinds of a write form, without capture or with it (R151). -/
def writeKinds (io : Bool) : PrimKind × PrimKind × PrimKind :=
  if io then (.bytesIo, .bitsIo, .tmsIo) else (.bytesOut, .bitsOut, .tmsOut)

/-- `WritePrims(data, N, P, io, own)` (R151), `N >= 1`; zero-length primitives are omitted (R149). -/
def writePrims (bytesMax : Nat) (data : List Byte) (n : Nat) (p io : Bool) (own : Owner) : List Prim :=
  let whole := byteCount n - 1
  let b := lastBits n
  let o := if io then own else .none
  let last := data.getD whole 0
  (splitSizes (byteChunks whole bytesMax) (data.take whole)).map
      (fun piece => ⟨(writeKinds io).1, piece.length, false, piece, o⟩) ++
    (if b - 1 = 0 then []
     else [⟨(writeKinds io).2.1, b - 1, false, [last &&& BitVec.ofNat 8 (2 ^ (b - 1) - 1)], o⟩]) ++
    [⟨(writeKinds io).2.2, (exitTms p).length, last.getLsbD (b - 1), pack (exitTms p), o⟩]

/-- `PrimCount_R(N)` (42_queue.md R185). -/
def primCountR (bytesMax n : Nat) : Nat := (byteChunks (n / 8) bytesMax).length + (if n % 8 > 0 then 1 else 0)

/-- `PrimCount_W(N)` (42_queue.md R186). -/
def primCountW (bytesMax n : Nat) : Nat :=
  (byteChunks (byteCount n - 1) bytesMax).length + (if lastBits n > 1 then 1 else 0) + 1

end Sys2Proof.Machine
end

