-- ==== Sys2Proof/Machine/Ops.lean ====
section
/-! DEFINITION. The operations every meaning is written over: the pseudocode primitives of 00_scope.md R9, delivery
(20_memory.md R58 and R59, 60_exceptions.md R231), the order of checks (R228) and taking a fault (R226). -/

namespace Sys2Proof.Machine.Ops

/-! ## Responses and faults -/

/-- `Respond(status, bits)` (R9). -/
def respond (status : Status) (bits : List Bool) (s : State) : State :=
  { s with responses := s.responses ++ [⟨status, bits⟩] }

/-- Entering FAULTED with the first cause kept (R226, R22). -/
def enterFaulted (code : Status) (s : State) : State :=
  match s.mode with
  | .run => { s with mode := .faulted, faultCause := code }
  | .faulted => s

/-- `raise Fault(code)` (R226). -/
def raiseFault (code : Status) (s : State) : State := respond code [] (enterFaulted code s)

/-! ## Emission -/

/-- `Emit(p)` for each primitive of a list, in order: `opb` grows by it and the ghost `tap` walks its TMS bits
(R9, 40_tap_traversal.md R113). -/
def emitAll (ps : List Prim) (s : State) : State :=
  { s with opb := s.opb ++ ps, tap := walk s.tap (ps.flatMap tmsOf) }

/-- `CheckShift()`, the caller contract (41_shift.md R140, 10_state.md R33). -/
def checkShift (s : State) : State :=
  if inShift s.tap then s else { s with ofaults := s.ofaults ++ [.notInShift s.cmdIdx] }

/-! ## Delivery -/

/-- What a delivered primitive does to a queue entry (R59). -/
def Entry.receive (bits : List Bool) (e : Entry) : Entry :=
  { e with cap := e.cap ++ bits, undelivered := e.undelivered - 1 }

/-- Route captured bits to their owner (R59). -/
def route (own : Owner) (bits : List Bool) (s : State) : State :=
  match own with
  | .none => s
  | .sync => { s with syncCap := s.syncCap ++ bits }
  | .entry k => { s with rrq := s.rrq.map fun e => if e.id = k then Entry.receive bits e else e }

/-- The trace records a list of edges gives when delivered now. -/
def sampledNow (es : List Edge) (s : State) : List TraceEdge := sampleEdges s.env.oracle s.trace.length es

/-- The adapter clocks one primitive: the body of R59's loop. -/
def clock (p : Prim) (s : State) : State :=
  route p.body.own (capturedBits s.env.rawLow p (sampledNow (primEdges p) s))
    { s with trace := s.trace ++ sampledNow (primEdges p) s }

/-- Primitives clocked one after another (R59). -/
def clockAll (ps : List Prim) (s : State) : State := ps.foldl (fun s p => clock p s) s

/-- Whether the next delivery fails, and after how many edges (R230). -/
def nextFailure (s : State) : Option Nat := if s.env.transportOk then none else s.env.failure

/-- Draw the outcome of the delivery after this one (log 3). -/
def drawFailure (s : State) : State :=
  if s.env.transportOk then s
  else { s with env := { s.env with failure := Config.failDraw s.env.failDraws, failDraws := s.env.failDraws + 1 } }

/-- A queue entry once `opb` is lost: none of its primitives is in `opb` any more, so `undelivered`, which counts them
(10_state.md R25), is 0; its `cap` stays, as no bit is routed (R231). -/
def Entry.lose (e : Entry) : Entry := { e with undelivered := 0 }

/-- TRANSPORT_FAILURE while `ps` are delivered, `m` edges getting through (R231). -/
def failDelivery (ps : List Prim) (m : Nat) (s : State) : State :=
  enterFaulted .transportFailure
    { s with
      trace := s.trace ++ sampledNow ((edgesOf ps).take m) s, opb := [], rrq := s.rrq.map Entry.lose
      tap := TapState.all }

/-- A forced delivery, then the rest of the command; when it fails the command responds TRANSPORT_FAILURE instead
(R58, R231). With `opb` empty there is no delivery (R59). -/
def forceDelivery (after : State → State) (s : State) : State :=
  match s.opb with
  | [] => after s
  | p :: ps =>
    match nextFailure s with
    | none => after (clockAll (p :: ps) { drawFailure s with opb := [] })
    | some m => respond .transportFailure [] (failDelivery (p :: ps) m (drawFailure s))

/-! ## The frame of a command -/

/-- A command in FAULTED mode answers the first cause; otherwise it runs; either way `cmd_idx` counts it
(R227, R228 step 1, 10_state.md R21). -/
def runCommand (body : State → State) (s : State) : State :=
  let t := match s.mode with
    | .faulted => respond s.faultCause [] s
    | .run => body s
  { t with cmdIdx := t.cmdIdx + 1 }

/-- A command whose COUNT must be at least 1 (R224, R228 step 3). -/
def runCounted (n : Nat) (body : State → State) (s : State) : State :=
  runCommand (fun s => if n = 0 then raiseFault .invalidArgument s else body s) s

/-- An illegal command word (R223, R228 step 2). -/
def illegalCommand (s : State) : State := runCommand (raiseFault .illegalCommand) s

/-! ## The queue -/

/-- Admission and entry creation, then the entry's primitives (42_queue.md R180 to R182, R185, R186). -/
def enqueue (n : Nat) (kind : EntryKind) (prims : Owner → List Prim) (s : State) : State :=
  if s.params.rrqDepth ≤ s.rrq.length then respond .queueFull [] s
  else
    let ps := prims (.entry s.nextId)
    let s := checkShift s
    respond .ok []
      (emitAll ps
        { s with rrq := s.rrq ++ [⟨s.nextId, n, kind, [], ps.length⟩], nextId := s.nextId + 1 })

/-- Pop the head and respond with its first `n` bits (42_queue.md R190, R192). -/
def retire (n : Nat) (s : State) : State :=
  match s.rrq with
  | [] => respond .ok [] s
  | e :: rest => respond .ok (e.cap.take n) { s with rrq := rest }

/-! ## Turns -/

/-- Draw whose move is next (R58; log 1). -/
def drawTurn (s : State) : State :=
  match s.env.schedule with
  | .lazy => { s with env := { s.env with turn := .sequencer } }
  | .free =>
    { s with env := { s.env with
        turn := (match Config.turnDraw s.env.turnDraws with
          | none => .sequencer
          | some k => .transport k)
        turnDraws := s.env.turnDraws + 1 } }

/-- The Sequencer has taken one command off the stream, `rest` remaining. -/
def fetched (rest : List Byte) (s : State) : State := drawTurn { s with input := rest }

end Sys2Proof.Machine.Ops
end

