-- ==== Sys2Proof/Machine/Primitives.lean ====
section
/-! DEFINITION. The primitives as the adapter executes them on delivery (20_memory.md R59, 30_encoding.md R86). A
delivery does not read `mode`: a free delivery goes on in FAULTED mode (60_exceptions.md R226). -/

namespace Sys2Proof.Machine

/-- PRIM.TMS_OUT (40_tap_traversal.md R125). -/
def execPrimTmsOut (b : PrimBody) (s : State) : Result := .next (Ops.clock ⟨.tmsOut, b⟩ s)

/-- PRIM.TMS_IO (40_tap_traversal.md R126). -/
def execPrimTmsIo (b : PrimBody) (s : State) : Result := .next (Ops.clock ⟨.tmsIo, b⟩ s)

/-- PRIM.BYTES_OUT (41_shift.md R160). -/
def execPrimBytesOut (b : PrimBody) (s : State) : Result := .next (Ops.clock ⟨.bytesOut, b⟩ s)

/-- PRIM.BYTES_IN (41_shift.md R161). -/
def execPrimBytesIn (b : PrimBody) (s : State) : Result := .next (Ops.clock ⟨.bytesIn, b⟩ s)

/-- PRIM.BYTES_IO (41_shift.md R162). -/
def execPrimBytesIo (b : PrimBody) (s : State) : Result := .next (Ops.clock ⟨.bytesIo, b⟩ s)

/-- PRIM.BITS_OUT (41_shift.md R163). -/
def execPrimBitsOut (b : PrimBody) (s : State) : Result := .next (Ops.clock ⟨.bitsOut, b⟩ s)

/-- PRIM.BITS_IN (41_shift.md R164). -/
def execPrimBitsIn (b : PrimBody) (s : State) : Result := .next (Ops.clock ⟨.bitsIn, b⟩ s)

/-- PRIM.BITS_IO (41_shift.md R165). -/
def execPrimBitsIo (b : PrimBody) (s : State) : Result := .next (Ops.clock ⟨.bitsIo, b⟩ s)

end Sys2Proof.Machine
end

