-- ==== Sys2Proof/Machine/Queue.lean ====
section
/-! DEFINITION. ReadQueue (42_queue.md): the queued shift commands, FINISH_READ and FLUSH. -/

namespace Sys2Proof.Machine

/-- FLUSH (R195). -/
def execFlush (s : State) : Result :=
  .next (Ops.runCommand (Ops.forceDelivery (Ops.respond .ok [])) s)

/-- QUEUE_READ (R185). -/
def execQueueRead (n : Nat) (s : State) : Result :=
  .next (Ops.runCounted n (fun s => Ops.enqueue n .read (readPrims s.params.bytesMax n) s) s)

/-- QUEUE_READ_WRITE (R186). -/
def execQueueReadWrite (n : Nat) (p : Bool) (data : List Byte) (s : State) : Result :=
  .next (Ops.runCounted n
    (fun s => Ops.enqueue n .readWrite (writePrims s.params.bytesMax data n p true) s) s)

/-- FINISH_READ (R190, R191). -/
def execFinishRead (n : Nat) (s : State) : Result :=
  .next (Ops.runCounted n
    (fun s =>
      match s.rrq with
      | [] => Ops.raiseFault .queueEmpty s
      | e :: _ =>
        if e.n ≠ n then Ops.raiseFault .queueMismatch s
        else if 0 < e.undelivered then Ops.forceDelivery (Ops.retire n) s
        else Ops.retire n s) s)

end Sys2Proof.Machine
end

