-- ==== Sys2Proof/Machine/Shift.lean ====
section
/-! DEFINITION. ShiftSession (41_shift.md): the three synchronous shift commands. -/

namespace Sys2Proof.Machine

/-- READ_DATA (R155). -/
def execReadData (n : Nat) (s : State) : Result :=
  .next (Ops.runCounted n
    (fun s =>
      Ops.forceDelivery (fun s => Ops.respond .ok s.syncCap s)
        (Ops.emitAll (readPrims s.params.bytesMax n .sync) { Ops.checkShift s with syncCap := [] })) s)

/-- WRITE_DATA (R156). -/
def execWriteData (n : Nat) (p : Bool) (data : List Byte) (s : State) : Result :=
  .next (Ops.runCounted n
    (fun s =>
      Ops.respond .ok [] (Ops.emitAll (writePrims s.params.bytesMax data n p false .none) (Ops.checkShift s))) s)

/-- READ_WRITE_DATA (R157). -/
def execReadWriteData (n : Nat) (p : Bool) (data : List Byte) (s : State) : Result :=
  .next (Ops.runCounted n
    (fun s =>
      Ops.forceDelivery (fun s => Ops.respond .ok (s.syncCap.take n) s)
        (Ops.emitAll (writePrims s.params.bytesMax data n p true .sync)
          { Ops.checkShift s with syncCap := [] })) s)

end Sys2Proof.Machine
end

