-- ==== Sys2Proof/Machine/Traverse.lean ====
section
/-! DEFINITION. TapDriver (40_tap_traversal.md): CHANGE_MODE. -/

namespace Sys2Proof.Machine

/-- CHANGE_MODE (R120). -/
def execChangeMode (l : Nat) (t : Bool) (payload : List Byte) (s : State) : Result :=
  .next (Ops.runCommand
    (fun s => Ops.respond .ok [] (Ops.emitAll (changeModePrims s.params.tmsMax (unpack payload l) t) s)) s)

end Sys2Proof.Machine
end

