-- ==== Sys2Proof/Machine/Dispatch.lean ====
section
/-! DEFINITION. One arm per instruction of spec/opcode_table.json. -/

namespace Sys2Proof.Machine

def exec (i : Instr) (s : State) : Host.Outcome State Fault Refusal :=
  match i with
  | .changeMode l t payload => Sys2Proof.Machine.execChangeMode l t payload s
  | .readData n => Sys2Proof.Machine.execReadData n s
  | .writeData n p data => Sys2Proof.Machine.execWriteData n p data s
  | .readWriteData n p data => Sys2Proof.Machine.execReadWriteData n p data s
  | .flush => Sys2Proof.Machine.execFlush s
  | .queueRead n => Sys2Proof.Machine.execQueueRead n s
  | .queueReadWrite n p data => Sys2Proof.Machine.execQueueReadWrite n p data s
  | .finishRead n => Sys2Proof.Machine.execFinishRead n s
  | .primTmsOut b => Sys2Proof.Machine.execPrimTmsOut b s
  | .primTmsIo b => Sys2Proof.Machine.execPrimTmsIo b s
  | .primBytesOut b => Sys2Proof.Machine.execPrimBytesOut b s
  | .primBytesIn b => Sys2Proof.Machine.execPrimBytesIn b s
  | .primBytesIo b => Sys2Proof.Machine.execPrimBytesIo b s
  | .primBitsOut b => Sys2Proof.Machine.execPrimBitsOut b s
  | .primBitsIn b => Sys2Proof.Machine.execPrimBitsIn b s
  | .primBitsIo b => Sys2Proof.Machine.execPrimBitsIo b s

end Sys2Proof.Machine
end

