-- ==== Sys2Proof/Decode.lean ====
section
/-! DEFINITION. The decoders of the two ports and their encoders. The command stream carries bytes
(30_encoding.md R70 to R79); the primitive port carries records whose KIND is a 4-bit code and whose wire bytes the
spec leaves to the vendor library (R85, R86). -/

namespace Sys2Proof

/-! ## Fields of the command word (R70) -/

/-- `OPC = w[31:28]`. -/
def opcField (w : Word) : BitVec 4 := w.extractLsb' 28 4
/-- `P = w[27]`. -/
def pField (w : Word) : Bool := w.getLsbD 27
/-- `T = w[26]`. -/
def tField (w : Word) : Bool := w.getLsbD 26
/-- `RSV = w[25:24]`. -/
def rsvField (w : Word) : BitVec 2 := w.extractLsb' 24 2
/-- `COUNT = w[23:0]`, read unsigned (R71). -/
def countField (w : Word) : Nat := (w.extractLsb' 0 24).toNat

/-- The eight opcodes (R72). -/
inductive Opcode where
  | changeMode | readData | writeData | readWriteData | flush | queueRead | queueReadWrite | finishRead
deriving DecidableEq, Repr

/-- The OPC value of an opcode (R72). -/
def Opcode.bits : Opcode → BitVec 4
  | .changeMode => 0x1
  | .readData => 0x2
  | .writeData => 0x3
  | .readWriteData => 0x4
  | .flush => 0x5
  | .queueRead => 0x6
  | .queueReadWrite => 0x7
  | .finishRead => 0x8

/-- The opcode map (R72); 0x0 and 0x9 to 0xF are illegal. -/
def Opcode.ofBits (v : BitVec 4) : Option Opcode :=
  match v.toNat with
  | 1 => some .changeMode
  | 2 => some .readData
  | 3 => some .writeData
  | 4 => some .readWriteData
  | 5 => some .flush
  | 6 => some .queueRead
  | 7 => some .queueReadWrite
  | 8 => some .finishRead
  | _ => none

/-- Opcodes whose `P` column in R73 is `pause_after`. -/
def Opcode.usesP : Opcode → Bool
  | .writeData | .readWriteData | .queueReadWrite => true
  | .changeMode | .readData | .flush | .queueRead | .finishRead => false

/-- The opcode whose `T` column in R73 is the held TDI. -/
def Opcode.usesT : Opcode → Bool
  | .changeMode => true
  | .readData | .writeData | .readWriteData | .flush | .queueRead | .queueReadWrite | .finishRead => false

/-- Payload bytes of a legal command, from its opcode and COUNT alone (R73, R76). -/
def Opcode.payloadBytes (op : Opcode) (count : Nat) : Nat :=
  match op with
  | .changeMode | .writeData | .readWriteData | .queueReadWrite => byteCount count
  | .readData | .flush | .queueRead | .finishRead => 0

/-! ## Legality (R79) -/

/-- Why an encoding stands for no instruction. The first five are R79's illegal command words; the last is a KIND
that R86 says is never emitted. -/
inductive Illegal where
  | reservedOpcode | reservedBits | pauseUnused | tdiUnused | flushCount | reservedKind
deriving DecidableEq, Repr

/-- What makes a command word illegal, if anything does (R79). -/
def illegalReason (w : Word) : Option Illegal :=
  match Opcode.ofBits (opcField w) with
  | none => some .reservedOpcode
  | some op =>
    if rsvField w ≠ 0 then some .reservedBits
    else if pField w && !op.usesP then some .pauseUnused
    else if tField w && !op.usesT then some .tdiUnused
    else if op = .flush ∧ countField w ≠ 0 then some .flushCount
    else none

/-- Payload length a word implies; 0 for an illegal word (R76). -/
def payloadLength (w : Word) : Nat :=
  match illegalReason w, Opcode.ofBits (opcField w) with
  | none, some op => op.payloadBytes (countField w)
  | _, _ => 0

/-! ## Decoding the command stream -/

/-- The command an opcode and its operands make. -/
def Instr.ofCommand (op : Opcode) (count : Nat) (p t : Bool) (payload : List Byte) : Instr :=
  match op with
  | .changeMode => .changeMode count t payload
  | .readData => .readData count
  | .writeData => .writeData count p payload
  | .readWriteData => .readWriteData count p payload
  | .flush => .flush
  | .queueRead => .queueRead count
  | .queueReadWrite => .queueReadWrite count p payload
  | .finishRead => .finishRead count

/-- What the bytes at the head of the command stream are. -/
inductive Decoded where
  /-- The word or its payload has not fully arrived: the Sequencer holds (10_state.md R28). -/
  | incomplete
  /-- An illegal word, with what follows it; no payload is read (R76, R79). -/
  | illegal (why : Illegal) (rest : List Byte)
  /-- One whole command, with what follows it. -/
  | command (i : Instr) (rest : List Byte)
deriving DecidableEq, Repr

/-- Decoding once the word is known. -/
def decodeWord (w : Word) (rest : List Byte) : Decoded :=
  match illegalReason w, Opcode.ofBits (opcField w) with
  | none, some op =>
    if rest.length < op.payloadBytes (countField w) then .incomplete
    else .command
      (Instr.ofCommand op (countField w) (pField w) (tField w) (rest.take (op.payloadBytes (countField w))))
      (rest.drop (op.payloadBytes (countField w)))
  | some why, _ => .illegal why rest
  | none, none => .illegal .reservedOpcode rest

/-- Decode the head of the command stream; total on any bytes (R70, R76, R79). -/
def decode : List Byte → Decoded
  | b0 :: b1 :: b2 :: b3 :: rest => decodeWord (bytesWord b0 b1 b2 b3) rest
  | _ => .incomplete

/-! ## Decoding the primitive port -/

/-- The KIND code of a kind (R86). -/
def PrimKind.code : PrimKind → BitVec 4
  | .tmsOut => 0x1
  | .tmsIo => 0x2
  | .bytesOut => 0x3
  | .bytesIn => 0x4
  | .bytesIo => 0x5
  | .bitsOut => 0x6
  | .bitsIn => 0x7
  | .bitsIo => 0x8

/-- The kind of a KIND code; 0x0 and 0x9 to 0xF are never emitted (R86). -/
def PrimKind.ofCode (v : BitVec 4) : Option PrimKind :=
  match v.toNat with
  | 1 => some .tmsOut
  | 2 => some .tmsIo
  | 3 => some .bytesOut
  | 4 => some .bytesIn
  | 5 => some .bytesIo
  | 6 => some .bitsOut
  | 7 => some .bitsIn
  | 8 => some .bitsIo
  | _ => none

/-- The instruction a primitive record is. -/
def Instr.ofPrim (p : Prim) : Instr :=
  match p.kind with
  | .tmsOut => .primTmsOut p.body
  | .tmsIo => .primTmsIo p.body
  | .bytesOut => .primBytesOut p.body
  | .bytesIn => .primBytesIn p.body
  | .bytesIo => .primBytesIo p.body
  | .bitsOut => .primBitsOut p.body
  | .bitsIn => .primBitsIn p.body
  | .bitsIo => .primBitsIo p.body

/-- The record of a primitive instruction; a command is none. -/
def Instr.toPrim : Instr → Option Prim
  | .primTmsOut b => some ⟨.tmsOut, b⟩
  | .primTmsIo b => some ⟨.tmsIo, b⟩
  | .primBytesOut b => some ⟨.bytesOut, b⟩
  | .primBytesIn b => some ⟨.bytesIn, b⟩
  | .primBytesIo b => some ⟨.bytesIo, b⟩
  | .primBitsOut b => some ⟨.bitsOut, b⟩
  | .primBitsIn b => some ⟨.bitsIn, b⟩
  | .primBitsIo b => some ⟨.bitsIo, b⟩
  | .changeMode .. | .readData .. | .writeData .. | .readWriteData .. | .flush | .queueRead ..
  | .queueReadWrite .. | .finishRead .. => none

/-- Decode a record of the primitive port. -/
def decodePort (code : BitVec 4) (body : PrimBody) : Except Illegal Instr :=
  match PrimKind.ofCode code with
  | some kind => .ok (Instr.ofPrim ⟨kind, body⟩)
  | none => .error .reservedKind

/-! ## The encoders -/

/-- The command word of R70. -/
def commandWord (op : Opcode) (p t : Bool) (count : Nat) : Word :=
  op.bits ++ BitVec.ofBool p ++ BitVec.ofBool t ++ (0 : BitVec 2) ++ BitVec.ofNat 24 count

/-- The stream bytes of a command: its word, then its payload (R70, R73). A primitive has none. -/
def Instr.bytes : Instr → List Byte
  | .changeMode l t payload => wordBytes (commandWord .changeMode false t l) ++ payload
  | .readData n => wordBytes (commandWord .readData false false n)
  | .writeData n p data => wordBytes (commandWord .writeData p false n) ++ data
  | .readWriteData n p data => wordBytes (commandWord .readWriteData p false n) ++ data
  | .flush => wordBytes (commandWord .flush false false 0)
  | .queueRead n => wordBytes (commandWord .queueRead false false n)
  | .queueReadWrite n p data => wordBytes (commandWord .queueReadWrite p false n) ++ data
  | .finishRead n => wordBytes (commandWord .finishRead false false n)
  | .primTmsOut _ | .primTmsIo _ | .primBytesOut _ | .primBytesIn _ | .primBytesIo _ | .primBitsOut _
  | .primBitsIn _ | .primBitsIo _ => []

/-- How an instruction stands at its port: bytes of the command stream, or a record of the primitive port. -/
inductive Image where
  | stream (bytes : List Byte)
  | port (code : BitVec 4) (body : PrimBody)
deriving DecidableEq, Repr

/-- The encoding of an instruction. -/
def encode (i : Instr) : Image :=
  match i.toPrim with
  | some p => .port p.kind.code p.body
  | none => .stream i.bytes

/-- Decode an image that holds exactly one instruction. -/
def decodeImage : Image → Option Instr
  | .stream bytes =>
    match decode bytes with
    | .command i [] => some i
    | .command _ (_ :: _) | .incomplete | .illegal _ _ => none
  | .port code body => (decodePort code body).toOption

/-! ## Words of the opcode table -/

/-- `k` bytes of a number, least significant first. -/
def natBytes (k w : Nat) : List Byte := (List.range k).map fun j => BitVec.ofNat 8 (w / 2 ^ (8 * j))

/-- The stream bytes of a table word: its own bytes (at least the four of a command word), then zero bytes up to the
length the word implies. -/
def tableBytes (nbits w : Nat) : List Byte :=
  natBytes (max 4 (nbits / 8)) w ++
    List.replicate (4 + payloadLength (BitVec.ofNat 32 w) - max 4 (nbits / 8)) 0

/-- The record a PRIM row's word stands for: the row gives the 4-bit KIND alone, every other field is 0 or empty. -/
def tableRecord : PrimBody := ⟨0, false, [], .none⟩

/-- The instruction the decoders read from a word of spec/opcode_table.json: a row of fewer than 32 bits is a record
of the primitive port, KIND in bits 3..0; a row of 32 bits is a command word (log 6). -/
def decodeTableWord (nbits w : Nat) : Option Instr :=
  if nbits < 32 then (decodePort (BitVec.ofNat 4 w) tableRecord).toOption
  else
    match decode (tableBytes nbits w) with
    | .command i _ => some i
    | .incomplete | .illegal _ _ => none

end Sys2Proof
end

