-- ==== Sys2Proof/Machine/HostAgent.lean ====
section
/-! DEFINITION. The Host agent (00_scope.md R6): what it does to the machine from outside, the end of a run
(20_memory.md R64) and teardown (70_reset_and_hazards.md R253). Log 11. -/

namespace Sys2Proof.Machine

/-- The Host sends bytes on the command stream (R28, R269). -/
def State.hostSend (bytes : List Byte) (s : State) : State := { s with input := s.input ++ bytes }

/-- The Host has issued its last command (R64). -/
def State.hostFinish (s : State) : State := { s with host := .finished }

/-- The Host releases the session (R253, R269). -/
def State.hostRelease (s : State) : State := { s with host := .releasing }

/-- R64: the Host has issued its last command, every command has been processed, and `opb` is empty. A Host that
releases the session has issued its last command too (log 11). -/
def State.atRunEnd (s : State) : Bool := decide (s.host ≠ .issuing) && s.input.isEmpty && s.opb.isEmpty

namespace Ops

/-- Record the end of the run: UNRETRIEVED when entries are left (42_queue.md R194). -/
def endRun (s : State) : State :=
  match s.rrq with
  | [] => { s with runEnded := true }
  | _ :: _ => { s with runEnded := true, ofaults := s.ofaults ++ [.unretrieved s.rrq.length] }

/-- Record the end of the run where R64 puts it, once. -/
def recordEnd (s : State) : State := if s.atRunEnd && !s.runEnded then endRun s else s

/-- Teardown discards `opb` and `rrq` (R253). A run that has reached its end (R64) is recorded first, so entries still
queued are UNRETRIEVED (R194); with bytes left in `input` or primitives left in `opb` the run has not ended and none is
recorded (DESIGN CHOICE, log 21 and 22). The ghost `tap` stays as emission left it, walked along the discarded edges
too (DESIGN CHOICE, log 23). -/
def teardown (s : State) : State := { recordEnd s with opb := [], rrq := [], released := true }

end Ops

end Sys2Proof.Machine
end

