-- ==== Sys2Proof/Machine/Fetch.lean ====
section
/-! DEFINITION. What one step fetches and runs: the Sequencer's next command or the Transport's next primitives
(00_scope.md R5 and R6, 20_memory.md R58). `run` is the meaning of an instruction, which Step.lean gives. -/

namespace Sys2Proof.Machine.Ops

/-- Nothing whole stands on the command stream: the Sequencer holds (10_state.md R28), and the end of the run is
recorded once where R64 puts it. -/
def hold (s : State) : State := recordEnd (drawTurn s)

/-- The Sequencer's turn: one whole command with its payload (R5, R28, R76). -/
def sequencerTurn (run : Instr → State → Result) (s : State) : Result :=
  match decode s.input with
  | .incomplete => .next (hold s)
  | .illegal _ rest => .next (illegalCommand (fetched rest s))
  | .command i rest => run i (fetched rest s)

/-- Run primitives in order, stopping at the first that does not give a next state. -/
def runPrims (run : Instr → State → Result) : List Prim → State → Result
  | [], s => .next s
  | p :: ps, s =>
    match run (Instr.ofPrim p) s with
    | .next s => runPrims run ps s
    | .fault r => .fault r
    | .refused r => .refused r

/-- The Transport's turn: a free delivery of the first `k + 1` primitives, which may fail (R58, R231). -/
def transportTurn (run : Instr → State → Result) (k : Nat) (s : State) : Result :=
  match nextFailure s with
  | none => runPrims run (s.opb.take (k + 1)) { drawFailure (drawTurn s) with opb := s.opb.drop (k + 1) }
  | some m => .next (failDelivery (s.opb.take (k + 1)) m (drawFailure (drawTurn s)))

/-- One step of the session. A Transport's turn with nothing to deliver is the Sequencer's. A release the Host has
asked for comes before any command it has sent and JTS has not processed: such a command is never run and never
answered, and its bytes stay in `input` (DESIGN CHOICE, log 21: R253 names only `opb` and `rrq`). -/
def cycle (run : Instr → State → Result) (s : State) : Result :=
  if s.released then .fault .sessionReleased
  else
    match s.host with
    | .releasing => .next (teardown s)
    | .issuing | .finished =>
      match s.env.turn, s.opb with
      | .transport k, _ :: _ => transportTurn run k s
      | .transport _, [] | .sequencer, _ => sequencerTurn run s

/-- Place a word of the opcode table where the next step fetches (log 6, 7): a command at the head of the command
stream with the Sequencer to move, a primitive at the head of `opb` with the Transport to deliver one. -/
def placeWord (s : State) (nbits w : Nat) : State :=
  if nbits < 32 then
    match PrimKind.ofCode (BitVec.ofNat 4 w) with
    | some kind =>
      { s with
        opb := ⟨kind, tableRecord⟩ :: s.opb, host := .issuing, released := false
        env := { s.env with turn := .transport 0, failure := none } }
    | none => s
  else
    { s with
      input := tableBytes nbits w ++ s.input, host := .issuing, released := false
      env := { s.env with turn := .sequencer } }

end Sys2Proof.Machine.Ops
end

