-- ==== Sys2Proof/Machine/Step.lean ====
section
/-! DEFINITION. The step of the machine, and the placing of a table word for it to fetch. -/

namespace Sys2Proof.Machine

/-- One step: one command, one free delivery, a hold, or teardown (00_scope.md R5 and R6). -/
def step (s : State) : Host.Outcome State Fault Refusal := Ops.cycle exec s

/-- `s` with a table word where `step` fetches its next instruction. -/
def State.withFetchWord (s : State) (nbits w : Nat) : State := Ops.placeWord s nbits w

end Sys2Proof.Machine
end

