-- ==== Sys2Proof/Machine/HostBinding.lean ====
section
/-! DEFINITION. The host binding: how the source's calls become command bytes (30_encoding.md R74, R82, R83). Log 18. -/

namespace Sys2Proof.Machine

/-- A call of the source's capability surface, the abstract syntax of R82. In a write form `bits` counts the bits of
the last byte of `data`; in the others it is the whole count. TMS values are integers. -/
inductive HostCall where
  | changeMode (tms : List Nat) (tdi : Bool)
  | readData (bits : Nat)
  | writeData (data : List Byte) (bits : Nat) (pauseAfter : Bool)
  | readWriteData (data : List Byte) (bits : Nat) (pauseAfter : Bool)
  | flush
  | queueRead (bits : Nat)
  | queueReadWrite (data : List Byte) (bits : Nat) (pauseAfter : Bool)
  | finishRead (bits : Nat)
deriving DecidableEq, Repr

/-- The total count of a write form, `8 * (len(data) - 1) + bits` (R74); 0 for the arguments R83 (d) calls invalid. -/
def writeCount (data : List Byte) (bits : Nat) : Nat :=
  if data.isEmpty || decide (bits < 1 ∨ 8 < bits) then 0 else 8 * (data.length - 1) + bits

/-- The payload of a write form; none for invalid arguments (R83 (d)). -/
def writePayload (data : List Byte) (bits : Nat) : List Byte := if writeCount data bits = 0 then [] else data

/-- The bits of a TMS sequence: any nonzero value is 1 (R83 (a)). -/
def tmsBits (tms : List Nat) : List Bool := tms.map fun v => decide (v ≠ 0)

/-- The command of a call. -/
def HostCall.command : HostCall → Instr
  | .changeMode tms tdi => .changeMode tms.length tdi (pack (tmsBits tms))
  | .readData bits => .readData bits
  | .writeData data bits p => .writeData (writeCount data bits) p (writePayload data bits)
  | .readWriteData data bits p => .readWriteData (writeCount data bits) p (writePayload data bits)
  | .flush => .flush
  | .queueRead bits => .queueRead bits
  | .queueReadWrite data bits p => .queueReadWrite (writeCount data bits) p (writePayload data bits)
  | .finishRead bits => .finishRead bits

/-- The COUNT a call needs. -/
def HostCall.count : HostCall → Nat
  | .changeMode tms _ => tms.length
  | .readData bits | .queueRead bits | .finishRead bits => bits
  | .writeData data bits _ | .readWriteData data bits _ | .queueReadWrite data bits _ => writeCount data bits
  | .flush => 0

/-- The bytes the binding sends; a count above COUNT_MAX is refused (R83 (e)). -/
def HostCall.bind (call : HostCall) : Option (List Byte) :=
  if call.count ≤ Config.countMax then some call.command.bytes else none

/-! ## Textual form (R82) -/

/-- `true` or `false`. -/
def boolText (b : Bool) : String := if b then "true" else "false"

/-- A list of integers, as the source writes `[1,1,0]`. -/
def listText (xs : List Nat) : String := "[" ++ String.intercalate "," (xs.map fun x => toString x) ++ "]"

/-- A list of bytes as integers. -/
def bytesText (data : List Byte) : String := listText (data.map fun d => d.toNat)

/-- The call syntax of R82. -/
def HostCall.text : HostCall → String
  | .changeMode tms tdi => "change_mode(" ++ listText tms ++ ", " ++ boolText tdi ++ ")"
  | .readData bits => "read_data(" ++ toString bits ++ ")"
  | .writeData data bits p => "write_data(" ++ bytesText data ++ ", " ++ toString bits ++ ", " ++ boolText p ++ ")"
  | .readWriteData data bits p =>
    "read_write_data(" ++ bytesText data ++ ", " ++ toString bits ++ ", " ++ boolText p ++ ")"
  | .flush => "flush()"
  | .queueRead bits => "queue_read(" ++ toString bits ++ ")"
  | .queueReadWrite data bits p =>
    "queue_read_write(" ++ bytesText data ++ ", " ++ toString bits ++ ", " ++ boolText p ++ ")"
  | .finishRead bits => "finish_read(" ++ toString bits ++ ")"

end Sys2Proof.Machine
end

