-- ==== Sys2Proof/WellFormed.lean ====
section
/-! DEFINITION. Well-formed instructions: the ranges of 30_encoding.md R73 for commands and of R86 for primitives.
A COUNT of 0 is well formed where R73 asks for 1 or more: it is an invalid argument, not an illegal word. -/

namespace Sys2Proof

/-- COUNT fits its field (R70). -/
def countFits (n : Nat) : Bool := decide (n ≤ Config.countMax)

/-- A payload has the `ceil(COUNT/8)` bytes of R73. -/
def payloadFits (n : Nat) (payload : List Byte) : Bool := countFits n && decide (payload.length = byteCount n)

/-- DATA of a TMS or bit primitive holds `LEN` bits in `ceil(LEN/8)` bytes with its unused bits zero (R86, R151). -/
def dataPacked (b : PrimBody) : Bool := decide (b.data = pack (unpack b.data b.len))

/-- `LEN` between 1 and a largest value (R86). -/
def lenWithin (b : PrimBody) (most : Nat) : Bool := decide (1 ≤ b.len ∧ b.len ≤ most)

/-- No result is kept (10_state.md R24: TMS_OUT, BYTES_OUT, BITS_OUT). -/
def ownerIsNone (b : PrimBody) : Bool := decide (b.own = .none)

/-- A well-formed instruction under the session's parameters. -/
def Instr.wellFormed (c : Params) : Instr → Bool
  | .changeMode l _ payload => payloadFits l payload
  | .readData n => countFits n
  | .writeData n _ data => payloadFits n data
  | .readWriteData n _ data => payloadFits n data
  | .flush => true
  | .queueRead n => countFits n
  | .queueReadWrite n _ data => payloadFits n data
  | .finishRead n => countFits n
  | .primTmsOut b => lenWithin b c.tmsMax && dataPacked b && ownerIsNone b
  | .primTmsIo b => lenWithin b c.tmsMax && dataPacked b && !ownerIsNone b
  | .primBytesOut b => lenWithin b c.bytesMax && decide (b.data.length = b.len) && !b.tdi && ownerIsNone b
  | .primBytesIn b => lenWithin b c.bytesMax && b.data.isEmpty && b.tdi && !ownerIsNone b
  | .primBytesIo b => lenWithin b c.bytesMax && decide (b.data.length = b.len) && !b.tdi && !ownerIsNone b
  | .primBitsOut b => lenWithin b 7 && dataPacked b && !b.tdi && ownerIsNone b
  | .primBitsIn b => lenWithin b 7 && b.data.isEmpty && b.tdi && !ownerIsNone b
  | .primBitsIo b => lenWithin b 7 && dataPacked b && !b.tdi && !ownerIsNone b

end Sys2Proof
end

