-- ==== Sys2Proof/Safety.lean ====
section
/-! DEFINITION. What counts as a run a claim may speak of (60_exceptions.md R242), and the invariant every step
keeps. -/

namespace Sys2Proof.Machine

/-- The premise of every claim about a run: `mode` never became FAULTED, which is sticky, and `ofaults` is empty
(R242). -/
abbrev State.Clean (s : State) : Prop := s.mode = .run ∧ s.ofaults = []

/-- A primitive JTS can have emitted: R86's ranges, the exit primitive's two TMS bits allowed whatever TMS_MAX
(log 12), and TMS_IO only as an exit primitive (40_tap_traversal.md R126). -/
def Prim.sound (c : Params) (p : Prim) : Bool :=
  (Instr.ofPrim p).wellFormed { c with tmsMax := max c.tmsMax 2 } && decide (p.kind = .tmsIo → p.body.len ≤ 2)

/-- The primitives of `ps` owned by entry `k`. -/
def ownedBy (k : Nat) (ps : List Prim) : List Prim := ps.filter fun p => decide (p.body.own = .entry k)

/-- The ids of the queue's entries. -/
def State.entryIds (s : State) : List Nat := s.rrq.map (·.id)

/-- Every parameter is in R7's range. -/
abbrev State.ParamsOk (s : State) : Prop := s.params.valid

/-- `fault_cause` is 0x00 exactly in RUN, and a fault's code otherwise (10_state.md R22). -/
abbrev State.ModeOk (s : State) : Prop :=
  (s.mode = .run → s.faultCause = .ok) ∧ (s.mode = .faulted → s.faultCause.isFault = true)

/-- One response per command (R80), each short enough for its NBITS field. -/
abbrev State.ResponsesOk (s : State) : Prop :=
  s.responses.length = s.cmdIdx ∧ ∀ r ∈ s.responses, r.bits.length ≤ Config.countMax

/-- `tap` is a non-empty set of states in canonical form (R31, log 16). -/
abbrev State.TapOk (s : State) : Prop := s.tap ≠ [] ∧ s.tap = TapState.all.filter fun t => decide (t ∈ s.tap)

/-- Between commands no primitive is owned by a synchronous read, and an owning entry is still in `rrq` (R24, R27,
R182). -/
def ownerKnown (ids : List Nat) : Owner → Bool
  | .none => true
  | .sync => false
  | .entry k => decide (k ∈ ids)

/-- `opb` holds emitted primitives, each with a known owner (R24). -/
abbrev State.BufferOk (s : State) : Prop :=
  ∀ p ∈ s.opb, Prim.sound s.params p = true ∧ ownerKnown s.entryIds p.body.own = true

/-- `rrq` is within capacity, with ids rising and below `next_id`, and lengths in range (R25, R26). -/
abbrev State.QueueOk (s : State) : Prop :=
  s.rrq.length ≤ s.params.rrqDepth ∧ s.entryIds.Pairwise (· < ·) ∧
    ∀ e ∈ s.rrq, e.id < s.nextId ∧ 1 ≤ e.n ∧ e.n ≤ Config.countMax

/-- `undelivered` counts the entry's primitives in `opb` (R25); in RUN what has been captured and what is still to be
captured make up the entry's result, with the one extra bit of a pausing read-write (R192). -/
abbrev State.CaptureOk (s : State) : Prop :=
  ∀ e ∈ s.rrq,
    e.undelivered = (ownedBy e.id s.opb).length ∧
    (s.mode = .run →
      (e.kind = .read → e.cap.length + (edgesOf (ownedBy e.id s.opb)).length = e.n) ∧
      (e.kind = .readWrite →
        e.cap.length + (edgesOf (ownedBy e.id s.opb)).length = e.n ∨
        e.cap.length + (edgesOf (ownedBy e.id s.opb)).length = e.n + 1))

/-- A session that has been torn down holds nothing (R253). -/
abbrev State.ReleasedOk (s : State) : Prop := s.released = true → s.opb = [] ∧ s.rrq = []

/-- The invariant: it holds at reset and every step keeps it. -/
abbrev State.Inv (s : State) : Prop :=
  s.ParamsOk ∧ s.ModeOk ∧ s.ResponsesOk ∧ s.TapOk ∧ s.BufferOk ∧ s.QueueOk ∧ s.CaptureOk ∧ s.ReleasedOk

/-! ## Terms of the claims -/

/-- The edges of a read of `n` bits: `(tms 0, tdi 1, capture)` each (41_shift.md R153). -/
def readEdges (n : Nat) : List Edge := List.replicate n ⟨false, true, true⟩

/-- The edges of a write form: the `n` data bits, TMS 1 on the last, then the pause edge (41_shift.md R153). -/
def writeEdges (data : List Byte) (n : Nat) (p io : Bool) : List Edge :=
  (List.range n).map (fun i => ⟨decide (i + 1 = n), dbit data i, io⟩) ++
    (if p then [⟨false, dbit data (n - 1), io⟩] else [])

/-- The edges of a TMS sequence with TDI held (40_tap_traversal.md R122). -/
def holdEdges (tms : List Bool) (t : Bool) : List Edge := tms.map fun m => ⟨m, t, false⟩

/-- The observation faults after the caller-contract check (10_state.md R33). -/
def State.checkedOfaults (s : State) : List ObsFault :=
  if inShift s.tap then s.ofaults else s.ofaults ++ [.notInShift s.cmdIdx]

/-- What never changes in an entry while it is queued. -/
def Entry.label (e : Entry) : Nat × Nat × EntryKind := (e.id, e.n, e.kind)

/-- The TDO bits that the primitives owned by entry `k` capture when `ps` is delivered from trace position `pos`. -/
def ownedBits (o : TdoOracle) (k : Nat) : Nat → List Prim → List Bool
  | _, [] => []
  | pos, p :: ps =>
    (if p.body.own = .entry k then tdoBits (sampleEdges o pos (primEdges p)) else []) ++
      ownedBits o k (pos + (primEdges p).length) ps

/-- The queue once the whole of `opb` has been delivered: every entry has its owned bits and nothing undelivered
(20_memory.md R59). -/
def State.completed (s : State) : List Entry :=
  s.rrq.map fun e =>
    { e with cap := e.cap ++ ownedBits s.env.oracle e.id s.trace.length s.opb, undelivered := 0 }

/-- What delivering one primitive does: its records appear at the end of the trace, its bits go to its owner alone, and
nothing else changes (20_memory.md R59). -/
abbrev DeliversTo (s t : State) (own : Owner) (bits : List Bool) (es : List TraceEdge) : Prop :=
  t = { s with trace := s.trace ++ es, syncCap := t.syncCap, rrq := t.rrq } ∧
  t.syncCap = (if own = .sync then s.syncCap ++ bits else s.syncCap) ∧
  t.rrq = s.rrq.map fun e =>
    if own = .entry e.id then { e with cap := e.cap ++ bits, undelivered := e.undelivered - 1 } else e

/-- The Sequencer is about to take a turn of a live session. -/
abbrev State.SequencerMoves (s : State) : Prop :=
  s.released = false ∧ s.host ≠ .releasing ∧ (s.env.turn = .sequencer ∨ s.opb = [])

/-- A trace record as the edge it is of (00_scope.md R5). -/
def TraceEdge.edge (e : TraceEdge) : Edge := ⟨e.tms, e.tdi, e.capture⟩

/-- Every edge issued so far and not lost: those delivered, then those still in `opb` (10_state.md R31). -/
def State.issued (s : State) : List Edge := s.trace.map TraceEdge.edge ++ edgesOf s.opb

/-- The edges a command issues from a state: none when it is answered FAULTED, invalid, refused or is no shift and no
CHANGE_MODE (60_exceptions.md R225 and R227, 42_queue.md R181). -/
def commandEdges (s : State) : Instr → List Edge
  | .changeMode l t payload => if s.mode = .run then holdEdges (unpack payload l) t else []
  | .readData n => if s.mode = .run ∧ 1 ≤ n then readEdges n else []
  | .writeData n p data => if s.mode = .run ∧ 1 ≤ n then writeEdges data n p false else []
  | .readWriteData n p data => if s.mode = .run ∧ 1 ≤ n then writeEdges data n p true else []
  | .queueRead n => if s.mode = .run ∧ 1 ≤ n ∧ s.rrq.length < s.params.rrqDepth then readEdges n else []
  | .queueReadWrite n p data =>
    if s.mode = .run ∧ 1 ≤ n ∧ s.rrq.length < s.params.rrqDepth then writeEdges data n p true else []
  | .flush | .finishRead _ => []
  | .primTmsOut _ | .primTmsIo _ | .primBytesOut _ | .primBytesIn _ | .primBytesIo _ | .primBitsOut _
  | .primBitsIn _ | .primBitsIo _ => []

/-- The edges the next step issues: those of the command it runs, if it runs one. -/
def State.stepEdges (s : State) : List Edge :=
  match s.env.turn, s.opb, decode s.input with
  | .transport _, _ :: _, _ => []
  | _, _, .command i _ => commandEdges s i
  | _, _, _ => []

/-- `trace` once the whole of `opb` has been delivered (20_memory.md R59). -/
def State.delivered (s : State) : List TraceEdge :=
  s.trace ++ sampleEdges s.env.oracle s.trace.length (edgesOf s.opb)

/-- Nothing of the environment changes but whose turn is next (log 1). -/
abbrev Env.TurnFrame (e f : Env) : Prop := f = { e with turn := f.turn, turnDraws := f.turnDraws }

/-- Nothing of the environment changes but whose turn is next (log 1) and, where a delivery may fail, the outcome of the
next one (log 3). -/
abbrev Env.DrawFrame (e f : Env) : Prop :=
  f = { e with turn := f.turn, turnDraws := f.turnDraws, failure := f.failure, failDraws := f.failDraws } ∧
  (e.transportOk = true → f.failure = e.failure ∧ f.failDraws = e.failDraws)

/-- The ghost `tap` holds every state the target may be in once what was issued has been clocked, whatever state it
started in (10_state.md R31). -/
abbrev State.TapTracks (s : State) : Prop :=
  ∀ x ∈ walk TapState.all (s.issued.map (·.tms)), x ∈ s.tap

end Sys2Proof.Machine
end

