-- ==== Sys2Proof/Certificates/Slice0/Obligations.lean ====
section
/-! DEFINITION. The statements for the provers, each from the numbered rules its docstring cites. A transport that
does not fail is a premise wherever a delivery is forced, as 60_exceptions.md R230 has every claim; the statements
TransportFailureLosesTheRest and FailedFreeDeliveryFaults say what a failure does. -/

open Sys2Proof Sys2Proof.Machine

/-! ## Reset and the invariant -/

/-- 10_state.md R35: every piece of state at reset, an adapter bound or not, whatever the instantiation values. -/
def Obligations.ResetGivesEveryFieldItsValue : Prop :=
  ∀ (c : Params) (e : Env) (bound : Bool),
    let s := State.resetWith c e bound
    s.mode = (if bound then .run else .faulted) ∧
    s.faultCause.code = (if bound then 0x00 else 0x15) ∧
    s.opb = [] ∧ s.rrq = [] ∧ s.nextId = 0 ∧ s.syncCap = [] ∧ s.input = [] ∧ s.cmdIdx = 0 ∧ s.trace = [] ∧
    (∀ x : TapState, x ∈ s.tap) ∧ s.ofaults = [] ∧ s.responses = [] ∧ s.params = c

/-- The invariant holds at reset, for every instantiation in R7's ranges, and at `State.reset`, whose instantiation,
environment and bound adapter are the model's choice (log 1 to 5). -/
def Obligations.ResetMeetsInvariant : Prop :=
  (∀ (c : Params) (e : Env) (bound : Bool), c.valid → (State.resetWith c e bound).Inv) ∧ State.reset.Inv

/-- Every step keeps the invariant: mode and fault cause agree (R22), one response a command (R80), `tap` a non-empty
set (R31), `opb` and `rrq` consistent with each other (R24, R25, R182, R192). -/
def Obligations.StepKeepsInvariant : Prop :=
  ∀ s t : State, s.Inv → step s = .next t → t.Inv

/-- The ghost `tap` holds every state the target can be in (R31) at reset. -/
def Obligations.ResetTapTracksTarget : Prop :=
  ∀ (c : Params) (e : Env) (bound : Bool), (State.resetWith c e bound).TapTracks

/-- Every step of a live session keeps it so that `tap` holds every state the target can be in once what has been
issued is clocked (10_state.md R31, 40_tap_traversal.md R113, 60_exceptions.md R231). -/
def Obligations.StepKeepsTapTracking : Prop :=
  ∀ s t : State, s.released = false → s.host ≠ .releasing → s.TapTracks → step s = .next t → t.TapTracks

/-! ## Encodings -/

/-- Decode and encode agree: a well-formed command, whatever follows it on the stream, decodes to itself
(30_encoding.md R70, R73, R76). -/
def Obligations.EncodedCommandsDecodeToThemselves : Prop :=
  ∀ (c : Params) (i : Instr) (rest : List Byte),
    i.wellFormed c = true → i.toPrim = none → decode (i.bytes ++ rest) = .command i rest

/-- The other direction: the bytes of a decoded command are its encoding, and it is well formed; so no two byte
strings stand for one command (R72, R73, R79). -/
def Obligations.DecodedCommandsReencode : Prop :=
  ∀ (bs : List Byte) (i : Instr) (rest : List Byte), decode bs = .command i rest →
    i.bytes ++ rest = bs ∧ i.toPrim = none ∧ ∀ c : Params, i.wellFormed c = true

/-- 30_encoding.md R79, over the bits of the word: exactly these words are illegal, and no other word is. -/
def Obligations.IllegalWordsCharacterised : Prop :=
  ∀ (b0 b1 b2 b3 : Byte) (rest : List Byte),
    let w := (bytesWord b0 b1 b2 b3).toNat
    let opc := w / 2 ^ 28
    (∃ why, decode (b0 :: b1 :: b2 :: b3 :: rest) = .illegal why rest) ↔
      (opc = 0 ∨ 9 ≤ opc ∨ w / 2 ^ 24 % 4 ≠ 0 ∨
        (w / 2 ^ 27 % 2 = 1 ∧ opc ≠ 3 ∧ opc ≠ 4 ∧ opc ≠ 7) ∨
        (w / 2 ^ 26 % 2 = 1 ∧ opc ≠ 1) ∨
        (opc = 5 ∧ w % 2 ^ 24 ≠ 0))

/-- 30_encoding.md R84, each example as bytes on the stream. -/
def Obligations.EncodingExamplesDecode : Prop :=
  (HostCall.changeMode [1, 1, 1, 1, 1, 0] false).bind = some [0x06, 0x00, 0x00, 0x10, 0x1F] ∧
  decode [0x06, 0x00, 0x00, 0x10, 0x1F] = .command (.changeMode 6 false [0x1F]) [] ∧
  (HostCall.writeData [0xAB] 8 true).bind = some [0x08, 0x00, 0x00, 0x38, 0xAB] ∧
  decode [0x08, 0x00, 0x00, 0x38, 0xAB] = .command (.writeData 8 true [0xAB]) [] ∧
  (HostCall.readData 12).bind = some (wordBytes 0x2000000C) ∧
  decode (wordBytes 0x2000000C) = .command (.readData 12) [] ∧
  (HostCall.readWriteData [0x34, 0x12] 4 false).bind = some (wordBytes 0x4000000C ++ [0x34, 0x12]) ∧
  decode (wordBytes 0x4000000C ++ [0x34, 0x12]) = .command (.readWriteData 12 false [0x34, 0x12]) [] ∧
  HostCall.flush.bind = some (wordBytes 0x50000000) ∧
  decode (wordBytes 0x50000000) = .command .flush [] ∧
  (HostCall.finishRead 8).bind = some (wordBytes 0x80000008) ∧
  decode (wordBytes 0x80000008) = .command (.finishRead 8) [] ∧
  (∀ r : Response, r.status = .ok → r.bits.length = 8 →
    ∃ d : Byte, r.word = 0x00000800 ∧ r.bytes = [0x00, 0x08, 0x00, 0x00, d])

/-- 30_encoding.md R86: the KIND codes of the eight primitives, and the codes that are never emitted; the record of a
primitive instruction decodes back to it. -/
def Obligations.PrimitiveCodesDecode : Prop :=
  (∀ b : PrimBody,
    decodePort 0x1 b = .ok (.primTmsOut b) ∧ decodePort 0x2 b = .ok (.primTmsIo b) ∧
    decodePort 0x3 b = .ok (.primBytesOut b) ∧ decodePort 0x4 b = .ok (.primBytesIn b) ∧
    decodePort 0x5 b = .ok (.primBytesIo b) ∧ decodePort 0x6 b = .ok (.primBitsOut b) ∧
    decodePort 0x7 b = .ok (.primBitsIn b) ∧ decodePort 0x8 b = .ok (.primBitsIo b)) ∧
  (∀ (v : BitVec 4) (b : PrimBody), v = 0 ∨ 9 ≤ v.toNat → decodePort v b = .error .reservedKind) ∧
  (∀ (i : Instr) (p : Prim), i.toPrim = some p → decodePort p.kind.code p.body = .ok i ∧ decodeImage (encode i) = some i)

/-- 20_memory.md R51 and R52: where each bit of a packed string stands, and that unpacking reads it back. -/
def Obligations.PackAndUnpackAgree : Prop :=
  (∀ s : List Bool, (pack s).length = (s.length + 7) / 8 ∧
    ∀ i, ((pack s).getD (i / 8) 0).getLsbD (i % 8) = if i < s.length then s.getD i false else false) ∧
  pack [] = [] ∧
  (∀ (buf : List Byte) (n : Nat), (unpack buf n).length = n ∧
    ∀ i < n, (unpack buf n)[i]? = some ((buf.getD (i / 8) 0).getLsbD (i % 8))) ∧
  (∀ s : List Bool, unpack (pack s) s.length = s) ∧
  (∀ (buf : List Byte) (n : Nat), buf.length = (n + 7) / 8 →
    (pack (unpack buf n)).length = buf.length ∧
    ∀ i, ((pack (unpack buf n)).getD (i / 8) 0).getLsbD (i % 8) =
      (decide (i < n) && (buf.getD (i / 8) 0).getLsbD (i % 8)))

/-- The response stream reads back, and a status value outside R222's table is refused (30_encoding.md R80,
60_exceptions.md R222). -/
def Obligations.ResponsesReadBack : Prop :=
  (∀ (r : Response) (rest : List Byte), r.bits.length ≤ Config.countMax →
    Response.decode (r.bytes ++ rest) = .response r rest) ∧
  (∀ (w : Word) (rest : List Byte), (∀ c : Status, c.code ≠ w.extractLsb' 0 8) →
    Response.decode (wordBytes w ++ rest) = .unknownStatus (w.extractLsb' 0 8))

/-- 60_exceptions.md R222, columns `code` and `fault`: the eight codes, and no other value is a status. -/
def Obligations.StatusCodesAreTheTable : Prop :=
  [Status.ok, .queueFull, .illegalCommand, .invalidArgument, .queueEmpty, .queueMismatch, .transportFailure,
    .deviceUnavailable].map (fun c => (c.code, c.isFault)) =
    [(0x00, false), (0x01, false), (0x10, true), (0x11, true), (0x12, true), (0x13, true), (0x14, true), (0x15, true)] ∧
  (∀ c : Status, Status.ofCode c.code = some c) ∧
  (∀ v : Byte, (Status.ofCode v).isSome = true → ∃ c : Status, c.code = v)

/-- 30_encoding.md R74: the source's pair (length, bits in the last byte) and the total count determine each other;
the read commands and FINISH_READ carry their count directly. -/
def Obligations.WriteCountIsBijective : Prop :=
  (∀ (data : List Byte) (bits : Nat), data ≠ [] → 1 ≤ bits → bits ≤ 8 →
    writeCount data bits = 8 * (data.length - 1) + bits ∧ 1 ≤ writeCount data bits ∧
    byteCount (writeCount data bits) = data.length ∧
    writeCount data bits - 8 * (byteCount (writeCount data bits) - 1) = bits) ∧
  (∀ n : Nat, 1 ≤ n → 1 ≤ byteCount n ∧ 1 ≤ n - 8 * (byteCount n - 1) ∧ n - 8 * (byteCount n - 1) ≤ 8 ∧
    ∀ data : List Byte, data.length = byteCount n → writeCount data (n - 8 * (byteCount n - 1)) = n) ∧
  (∀ n : Nat, (HostCall.readData n).command = .readData n ∧ (HostCall.queueRead n).command = .queueRead n ∧
    (HostCall.finishRead n).command = .finishRead n)

/-- What the host binding sends decodes to the call's command, and a count above COUNT_MAX is refused, which is the
model's choice of the two R83 allows (log 18); nonzero TMS values are 1 (30_encoding.md R83). -/
def Obligations.HostCallsDecodeToTheirCommand : Prop :=
  (∀ (call : HostCall) (bytes rest : List Byte), call.bind = some bytes →
    decode (bytes ++ rest) = .command call.command rest) ∧
  (∀ call : HostCall, Config.countMax < call.count → call.bind = none) ∧
  (∀ (tms : List Nat) (t : Bool), ∃ payload, (HostCall.changeMode tms t).command = .changeMode tms.length t payload ∧
    unpack payload tms.length = tms.map fun v => decide (v ≠ 0))

/-! ## Steps -/

/-- On the Sequencer's turn a whole command at the head of the stream is taken off it and run; the turn drawn for the
move after is the model's own (log 1). R5, R28. -/
def Obligations.StepRunsDecodedCommand : Prop :=
  ∀ (s : State) (i : Instr) (rest : List Byte), s.SequencerMoves → decode s.input = .command i rest →
    step s = exec i (Ops.fetched rest s) ∧
    Ops.fetched rest s =
      { s with
        input := rest
        env := { s.env with
          turn := (Ops.fetched rest s).env.turn, turnDraws := (Ops.fetched rest s).env.turnDraws } }

/-- On the Transport's turn, with one primitive to deliver and no failure, the step runs the instruction the head of
`opb` is, with it taken off `opb` (20_memory.md R58, R59). That a primitive is an instruction run on a state it has
already been taken off is the model's choice (log 6), and so is the form of the turn, `transport 0` (log 1). -/
def Obligations.StepRunsPrimitiveAtHead : Prop :=
  ∀ (s : State) (p : Prim) (ps : List Prim), s.released = false → s.host ≠ .releasing →
    s.env.turn = .transport 0 → s.opb = p :: ps → (s.env.transportOk = true ∨ s.env.failure = none) →
    ∃ e : Env, step s = exec (Instr.ofPrim p) { s with opb := ps, env := e } ∧ s.env.DrawFrame e

/-- An illegal word in RUN raises ILLEGAL_COMMAND: it is consumed without payload, and nothing but `mode`,
`fault_cause`, `cmd_idx`, the responses and the stream changes (60_exceptions.md R223, R225, R226). -/
def Obligations.StepTakesIllegalWord : Prop :=
  ∀ (s : State) (why : Illegal) (rest : List Byte), s.SequencerMoves → s.mode = .run →
    decode s.input = .illegal why rest →
    s.input = s.input.take 4 ++ rest ∧
    ∃ t, step s = .next t ∧
      t = { s with
        mode := .faulted, faultCause := .illegalCommand, responses := s.responses ++ [⟨.illegalCommand, []⟩]
        cmdIdx := s.cmdIdx + 1, input := rest
        env := { s.env with turn := t.env.turn, turnDraws := t.env.turnDraws } }

/-- 10_state.md R28: a command is incomplete exactly when its word or the payload its word implies has not fully
arrived, and then the Sequencer holds: no edge, no response, no change of state but whose move is next (log 1). -/
def Obligations.StepHoldsOnShortStream : Prop :=
  (∀ bs : List Byte, bs.length < 4 → decode bs = .incomplete) ∧
  (∀ (w : Word) (rest : List Byte),
    decode (wordBytes w ++ rest) = .incomplete ↔ rest.length < payloadLength w) ∧
  (∀ s : State, s.SequencerMoves → s.host = .issuing ∨ s.input ≠ [] → decode s.input = .incomplete →
    ∃ t, step s = .next t ∧
      t = { s with env := { s.env with turn := t.env.turn, turnDraws := t.env.turnDraws } })

/-- The Transport's turn that does not fail, whatever TRANSPORT_OK, is a free delivery: the first `k + 1` primitives of
`opb`, fewer where it holds fewer (the form of the turn is the model's choice, log 1), in order, in RUN and in FAULTED
mode alike; nothing is emitted and nothing answered (20_memory.md R58, R59, 60_exceptions.md R226, R230). -/
def Obligations.StepDeliversPrefixFreely : Prop :=
  ∀ (s : State) (k : Nat), s.released = false → s.host ≠ .releasing → s.env.turn = .transport k → s.opb ≠ [] →
    (s.env.transportOk = true ∨ s.env.failure = none) → s.BufferOk →
    ∃ t, step s = .next t ∧ s.env.DrawFrame t.env ∧
      t = { s with
        env := t.env, opb := s.opb.drop (k + 1), rrq := t.rrq
        trace := s.trace ++ sampleEdges s.env.oracle s.trace.length (edgesOf (s.opb.take (k + 1))) } ∧
      t.rrq = s.rrq.map fun e =>
        { e with
          cap := e.cap ++ ownedBits s.env.oracle e.id s.trace.length (s.opb.take (k + 1))
          undelivered := e.undelivered - (ownedBy e.id (s.opb.take (k + 1))).length }

/-- A free delivery that fails: some prefix of the edges being delivered happens, the rest of `opb` is lost, no bit is
routed, `tap` is unknown, and the first fault's cause is kept (60_exceptions.md R231, R229). No primitive of an entry is
in `opb` any more, so every `undelivered` is 0 (10_state.md R25); the `k + 1` of the turn is the model's choice
(log 1). -/
def Obligations.FailedFreeDeliveryFaults : Prop :=
  ∀ (s : State) (k m : Nat), s.released = false → s.host ≠ .releasing → s.env.turn = .transport k → s.opb ≠ [] →
    s.env.transportOk = false → s.env.failure = some m →
    ∃ t, step s = .next t ∧ s.env.DrawFrame t.env ∧
      t = { s with
        env := t.env, opb := [], tap := TapState.all, mode := .faulted
        rrq := s.rrq.map fun e => { e with undelivered := 0 }
        faultCause := if s.mode = .run then .transportFailure else s.faultCause
        trace := s.trace ++
          sampleEdges s.env.oracle s.trace.length ((edgesOf (s.opb.take (k + 1))).take m) }

/-- The end of a run is recorded once, with UNRETRIEVED when entries are left (20_memory.md R64, 42_queue.md R194; the
step at which it is recorded is the model's choice, log 11). StepTearsDown says the same of a Host that releases. -/
def Obligations.StepRecordsUnretrieved : Prop :=
  ∀ s : State, s.released = false → s.host = .finished → s.input = [] → s.opb = [] → s.runEnded = false →
    ∃ t, step s = .next t ∧ s.env.TurnFrame t.env ∧
      t = { s with
        env := t.env, runEnded := true
        ofaults := if s.rrq = [] then s.ofaults else s.ofaults ++ [.unretrieved s.rrq.length] } ∧
      ∀ u, step t = .next u → u.ofaults = t.ofaults

/-- Releasing the session discards `opb` and `rrq` and delivers nothing (70_reset_and_hazards.md R253). A run whose
commands are all processed and whose `opb` is empty ends there, so entries still queued are UNRETRIEVED
(20_memory.md R64, 42_queue.md R194); that no other release records any is the model's choice (log 22), as it is that
commands not yet processed are never run (log 21), that `tap` stays as emission left it (log 23), and that there is no
session to step afterwards (log 11). -/
def Obligations.StepTearsDown : Prop :=
  ∀ s : State, s.released = false → s.host = .releasing →
    ∃ t, step s = .next t ∧ step t = .fault .sessionReleased ∧
      t = { s with
        opb := [], rrq := [], released := true
        runEnded := s.runEnded || decide (s.input = [] ∧ s.opb = [])
        ofaults := if s.input = [] ∧ s.opb = [] ∧ s.runEnded = false ∧ s.rrq ≠ [] then
            s.ofaults ++ [.unretrieved s.rrq.length]
          else s.ofaults }

/-- Every edge is issued exactly once and in issue order: what has been delivered followed by what is still in `opb`
grows by the edges of the command the step runs, and by nothing else (20_memory.md R57, R60, R61). -/
def Obligations.EdgesIssuedInOrder : Prop :=
  ∀ s t : State, s.env.transportOk = true → s.released = false → s.host ≠ .releasing → step s = .next t →
    t.issued = s.issued ++ s.stepEdges

/-- No step takes back an edge, a response or an observation fault, or changes the configuration or the environment's
parameters (20_memory.md R57, 10_state.md R23, R32, R34, 00_scope.md R7); what a step changes of the environment is
whose turn is next and the outcome of the next delivery (log 1, 3). -/
def Obligations.HistoryOnlyGrows : Prop :=
  ∀ s t : State, step s = .next t →
    s.trace <+: t.trace ∧ s.responses <+: t.responses ∧ s.ofaults <+: t.ofaults ∧ s.cmdIdx ≤ t.cmdIdx ∧
      t.params = s.params ∧ s.env.DrawFrame t.env

/-- `rrq` is a FIFO: a step leaves the ids, lengths and kinds as they are, appends one entry with the next id, or removes
the oldest and answers OK; in a state that meets the invariant the answer is that entry's result, the first `n` of the
bits it has captured and those its primitives in `opb` capture (42_queue.md R182, R190, R192, R193). -/
def Obligations.StepKeepsQueueOrder : Prop :=
  ∀ s t : State, s.released = false → s.host ≠ .releasing → step s = .next t →
    (t.rrq.map Entry.label = s.rrq.map Entry.label ∧ t.nextId = s.nextId) ∨
    (∃ (n : Nat) (kind : EntryKind), t.rrq.map Entry.label = s.rrq.map Entry.label ++ [(s.nextId, n, kind)] ∧
      t.nextId = s.nextId + 1 ∧ s.rrq.length < s.params.rrqDepth ∧ t.responses = s.responses ++ [⟨.ok, []⟩]) ∨
    (∃ (e : Entry) (rest : List Entry) (bits : List Bool), s.rrq = e :: rest ∧
      t.rrq.map Entry.label = rest.map Entry.label ∧ t.nextId = s.nextId ∧ bits.length ≤ e.n ∧
      t.responses = s.responses ++ [⟨.ok, bits⟩] ∧
      (s.Inv → bits.length = e.n ∧
        bits = (e.cap ++ ownedBits s.env.oracle e.id s.trace.length s.opb).take e.n))

/-! ## Faults -/

/-- 60_exceptions.md R227: in FAULTED mode every command, legal or not, answers the first cause and counts, and does
nothing else; no step leaves the mode or changes the cause. -/
def Obligations.FaultedModeAnswersFirstCause : Prop :=
  (∀ (s : State) (i : Instr), s.mode = .faulted → i.toPrim = none →
    exec i s = .next { s with responses := s.responses ++ [⟨s.faultCause, []⟩], cmdIdx := s.cmdIdx + 1 }) ∧
  (∀ (s : State) (why : Illegal) (rest : List Byte), s.SequencerMoves → s.mode = .faulted →
    decode s.input = .illegal why rest →
    ∃ t, step s = .next t ∧
      t = { s with
        responses := s.responses ++ [⟨s.faultCause, []⟩], cmdIdx := s.cmdIdx + 1, input := rest
        env := { s.env with turn := t.env.turn, turnDraws := t.env.turnDraws } }) ∧
  (∀ (s : State) (i : Instr) (rest : List Byte), decode s.input = .command i rest →
    s.input.length = 4 + payloadLength (bytesWord (s.input.getD 0 0) (s.input.getD 1 0) (s.input.getD 2 0)
      (s.input.getD 3 0)) + rest.length) ∧
  (∀ s t : State, s.mode = .faulted → step s = .next t → t.mode = .faulted ∧ t.faultCause = s.faultCause)

/-- 60_exceptions.md R224, with R225's precision: COUNT 0 in RUN is INVALID_ARGUMENT for the six commands that need a
count, changes nothing else, and has no payload; the host binding sends it for the write arguments R83 (d) calls
invalid. -/
def Obligations.CountZeroIsInvalidArgument : Prop :=
  (∀ (s : State) (p : Bool) (data : List Byte) (i : Instr), s.mode = .run →
    i ∈ [Instr.readData 0, .writeData 0 p data, .readWriteData 0 p data, .queueRead 0, .queueReadWrite 0 p data,
      .finishRead 0] →
    exec i s = .next { s with
      mode := .faulted, faultCause := .invalidArgument, responses := s.responses ++ [⟨.invalidArgument, []⟩]
      cmdIdx := s.cmdIdx + 1 }) ∧
  (∀ w : Word, countField w = 0 → payloadLength w = 0) ∧
  (∀ (data : List Byte) (bits : Nat), data = [] ∨ bits < 1 ∨ 8 < bits →
    writeCount data bits = 0 ∧ writePayload data bits = [])

/-- 42_queue.md R191: FINISH_READ with nothing queued raises QUEUE_EMPTY, with another length QUEUE_MISMATCH; no data
is returned, and nothing else changes (60_exceptions.md R225). -/
def Obligations.FinishReadMismatchFaults : Prop :=
  (∀ (s : State) (n : Nat), s.mode = .run → 1 ≤ n → s.rrq = [] →
    exec (.finishRead n) s = .next { s with
      mode := .faulted, faultCause := .queueEmpty, responses := s.responses ++ [⟨.queueEmpty, []⟩]
      cmdIdx := s.cmdIdx + 1 }) ∧
  (∀ (s : State) (n : Nat) (e : Entry) (rest : List Entry), s.mode = .run → 1 ≤ n → s.rrq = e :: rest → e.n ≠ n →
    exec (.finishRead n) s = .next { s with
      mode := .faulted, faultCause := .queueMismatch, responses := s.responses ++ [⟨.queueMismatch, []⟩]
      cmdIdx := s.cmdIdx + 1 })

/-- 42_queue.md R181: a refused queue command changes no state except `cmd_idx`, and responds QUEUE_FULL with no
result; it is not a fault. -/
def Obligations.FullQueueRefuses : Prop :=
  ∀ (s : State) (n : Nat) (p : Bool) (data : List Byte), s.mode = .run → 1 ≤ n →
    s.params.rrqDepth ≤ s.rrq.length →
    exec (.queueRead n) s =
      .next { s with responses := s.responses ++ [⟨.queueFull, []⟩], cmdIdx := s.cmdIdx + 1 } ∧
    exec (.queueReadWrite n p data) s =
      .next { s with responses := s.responses ++ [⟨.queueFull, []⟩], cmdIdx := s.cmdIdx + 1 } ∧
    Status.queueFull.isFault = false

/-- A forced delivery that fails: the command responds TRANSPORT_FAILURE with no data; `m` edges of those being
delivered happen; the rest of `opb` is lost; no bit is routed; `tap` is unknown; the mode is FAULTED
(60_exceptions.md R231, R232). The queue keeps its entries, with no primitive of theirs in `opb` any more, so every
`undelivered` is 0 (10_state.md R25). -/
def Obligations.TransportFailureLosesTheRest : Prop :=
  ∀ (s : State) (m n : Nat) (p : Bool) (data : List Byte), s.mode = .run → s.env.transportOk = false →
    s.env.failure = some m → 1 ≤ n → data.length = byteCount n →
    let after (t : State) (cap : List Bool) (of : List ObsFault) (es : List Edge) : Prop :=
      t.env = { s.env with failure := t.env.failure, failDraws := t.env.failDraws } ∧
      t = { s with
        env := t.env, mode := .faulted, faultCause := .transportFailure, opb := [], tap := TapState.all
        syncCap := cap, ofaults := of, rrq := s.rrq.map fun e => { e with undelivered := 0 }
        trace := s.trace ++ sampleEdges s.env.oracle s.trace.length (es.take m)
        responses := s.responses ++ [⟨.transportFailure, []⟩], cmdIdx := s.cmdIdx + 1 }
    (∃ t, exec (.readData n) s = .next t ∧ after t [] s.checkedOfaults (edgesOf s.opb ++ readEdges n)) ∧
    (∃ t, exec (.readWriteData n p data) s = .next t ∧
      after t [] s.checkedOfaults (edgesOf s.opb ++ writeEdges data n p true)) ∧
    (s.opb ≠ [] → ∃ t, exec .flush s = .next t ∧ after t s.syncCap s.ofaults (edgesOf s.opb)) ∧
    (∀ (e : Entry) (rest : List Entry), s.rrq = e :: rest → e.n = n → 0 < e.undelivered → s.opb ≠ [] →
      ∃ t, exec (.finishRead n) s = .next t ∧ after t s.syncCap s.ofaults (edgesOf s.opb))

/-- No adapter bound at reset: FAULTED with 0x15, which every command answers (60_exceptions.md R233). -/
def Obligations.NoAdapterAnswersUnavailable : Prop :=
  ∀ (c : Params) (e : Env) (i : Instr), i.toPrim = none →
    (State.resetWith c e false).mode = .faulted ∧ (State.resetWith c e false).faultCause.code = 0x15 ∧
    ∃ t, exec i (State.resetWith c e false) = .next t ∧ t.responses = [⟨.deviceUnavailable, []⟩] ∧
      t.opb = [] ∧ t.trace = []

/-! ## TAP traversal -/

/-- 40_tap_traversal.md R112: `Walk` is the image of the set, edge by edge. -/
def Obligations.TapWalkIsImage : Prop :=
  (∀ S : List TapState, walk S [] = S) ∧
  (∀ (S : List TapState) (m : Bool) (ms : List Bool), ∃ S' : List TapState,
    (∀ t, t ∈ S' ↔ ∃ s ∈ S, s.next m = t) ∧ walk S (m :: ms) = walk S' ms) ∧
  (∀ (S : List TapState) (ms : List Bool) (t : TapState), t ∈ walk S ms ↔ ∃ s ∈ S, ms.foldl TapState.next s = t)

/-- 40_tap_traversal.md R114: five TMS-high edges reach TestLogicReset from every state, no shorter all-ones string
does, and six edges of `change_mode([1,1,1,1,1,0], x)` leave RunTestIdle. -/
def Obligations.FiveOnesReachTestLogicReset : Prop :=
  walk TapState.all [true, true, true, true, true] = [.testLogicReset] ∧
  (∀ k < 5, walk TapState.all (List.replicate k true) ≠ [.testLogicReset]) ∧
  walk TapState.all [true, true, true, true] = [.testLogicReset, .selectIR] ∧
  (∀ (s : State) (x : Bool), s.mode = .run → s.tap = TapState.all →
    ∃ t, exec (.changeMode 6 x [0x1F]) s = .next t ∧ t.tap = [.runTestIdle])

/-- 40_tap_traversal.md R115: the useful paths. -/
def Obligations.UsefulPathsReachTheirStates : Prop :=
  walk [.testLogicReset] [false, true, true, false, false] = [.shiftIR] ∧
  walk [.testLogicReset] [false, true, false, false] = [.shiftDR] ∧
  walk [.testLogicReset] [true, true, false] = [.runTestIdle] ∧
  walk [.runTestIdle] [true, false, false] = [.shiftDR] ∧
  walk [.runTestIdle] [true, true, false, false] = [.shiftIR] ∧
  walk [.shiftDR] [true] = [.exit1DR] ∧ walk [.shiftIR] [true] = [.exit1IR] ∧
  walk [.shiftDR] [true, false] = [.pauseDR] ∧ walk [.shiftIR] [true, false] = [.pauseIR] ∧
  walk [.pauseDR] [true] = [.exit2DR] ∧ walk [.pauseIR] [true] = [.exit2IR] ∧
  walk [.pauseDR] [true, false] = [.shiftDR] ∧ walk [.pauseIR] [true, false] = [.shiftIR] ∧
  walk [.exit1DR] [true] = [.updateDR] ∧ walk [.exit1IR] [true] = [.updateIR] ∧
  walk [.exit1DR] [true, false] = [.runTestIdle] ∧ walk [.exit1IR] [true, false] = [.runTestIdle] ∧
  walk [.pauseDR] [true, true] = [.updateDR] ∧ walk [.pauseIR] [true, true] = [.updateIR] ∧
  walk [.pauseDR] [true, true, false] = [.runTestIdle] ∧ walk [.pauseIR] [true, true, false] = [.runTestIdle]

/-- CHANGE_MODE (40_tap_traversal.md R120): in RUN it always completes, emits the chunks of its TMS sequence, moves
`tap` along the whole sequence, answers OK, and changes nothing else. -/
def Obligations.ChangeModeEmitsItsSequence : Prop :=
  ∀ (s : State) (l : Nat) (t : Bool) (payload : List Byte), s.mode = .run →
    exec (.changeMode l t payload) s = .next { s with
      opb := s.opb ++ changeModePrims s.params.tmsMax (unpack payload l) t
      tap := walk s.tap (unpack payload l)
      responses := s.responses ++ [⟨.ok, []⟩], cmdIdx := s.cmdIdx + 1 } ∧
    edgesOf (changeModePrims s.params.tmsMax (unpack payload l) t) =
      (List.range l).map fun i => ⟨(payload.getD (i / 8) 0).getLsbD (i % 8), t, false⟩

/-- 40_tap_traversal.md R121 and R122: the chunks, and that they are invisible in the edges. -/
def Obligations.ChunkingIsTransparent : Prop :=
  (∀ most : Nat, chunks [] most = []) ∧
  ∀ (tms : List Bool) (most : Nat) (t : Bool), 1 ≤ most →
    (chunks tms most).flatten = tms ∧
    (chunks tms most).map List.length =
      List.replicate (tms.length / most) most ++ (if tms.length % most = 0 then [] else [tms.length % most]) ∧
    (chunks tms most).length = (tms.length + most - 1) / most ∧
    edgesOf (changeModePrims most tms t) = tms.map (fun m => ⟨m, t, false⟩) ∧
    ∀ p ∈ changeModePrims most tms t, 1 ≤ p.body.len ∧ p.body.len ≤ most

/-- From reset with an adapter bound, one CHANGE_MODE of ten edges brings the TAP to ShiftIR, and the write after it
meets its caller contract (70_reset_and_hazards.md R254, 95_test_vectors.md L1-7c). -/
def Obligations.BootReachesShift : Prop :=
  ∀ (c : Params) (e : Env), ∃ t u,
    exec (.changeMode 10 false [0xDF, 0x00]) (State.resetWith c e true) = .next t ∧ t.tap = [.shiftIR] ∧
    exec (.writeData 8 true [0xAB]) t = .next u ∧ u.ofaults = [] ∧ u.tap = [.pauseIR]

/-! ## Shifts -/

/-- 41_shift.md R146: the counts are `B`, then the remainder where there is one; they add up to the whole; and a byte
list is split along them in order. -/
def Obligations.ByteChunksCoverTheirCount : Prop :=
  (∀ most : Nat, byteChunks 0 most = []) ∧
  ∀ m most : Nat, 1 ≤ most →
    byteChunks m most = List.replicate (m / most) most ++ (if m % most = 0 then [] else [m % most]) ∧
    (byteChunks m most).sum = m ∧
    (∀ k ∈ byteChunks m most, 1 ≤ k ∧ k ≤ most) ∧
    ∀ data : List Byte, data.length = m →
      (splitSizes (byteChunks m most) data).flatten = data ∧
      (splitSizes (byteChunks m most) data).map List.length = byteChunks m most

/-- 41_shift.md R153: the edges of every shift form, whatever the byte chunking. -/
def Obligations.ShiftEdgesInOnePlace : Prop :=
  ∀ (most n : Nat) (own : Owner) (p : Bool) (data : List Byte), 1 ≤ most → 1 ≤ n → data.length = byteCount n →
    edgesOf (readPrims most n own) = List.replicate n ⟨false, true, true⟩ ∧
    ∀ io : Bool,
      (edgesOf (writePrims most data n p io own)).length = (if p then n + 1 else n) ∧
      (∀ i, i + 1 < n → (edgesOf (writePrims most data n p io own))[i]? = some ⟨false, dbit data i, io⟩) ∧
      (edgesOf (writePrims most data n p io own))[n - 1]? = some ⟨true, dbit data (n - 1), io⟩ ∧
      (p = true → (edgesOf (writePrims most data n p io own))[n]? = some ⟨false, dbit data (n - 1), io⟩)

/-- 41_shift.md R152: a write form leaves Shift for Exit1, or for Pause when it pauses, and its data bits are on its
first edges in order. -/
def Obligations.WriteFormsExitShift : Prop :=
  ∀ (s : State) (n : Nat) (p : Bool) (data : List Byte) (i : Instr), s.mode = .run → s.env.transportOk = true →
    1 ≤ s.params.bytesMax → 1 ≤ n → data.length = byteCount n → s.rrq.length < s.params.rrqDepth →
    i ∈ [Instr.writeData n p data, .readWriteData n p data, .queueReadWrite n p data] →
    ∃ t, exec i s = .next t ∧
      (s.tap = [.shiftDR] → t.tap = [if p then .pauseDR else .exit1DR]) ∧
      (s.tap = [.shiftIR] → t.tap = [if p then .pauseIR else .exit1IR]) ∧
      (s.tap = [.shiftDR, .shiftIR] →
        t.tap = if p then [.pauseDR, .pauseIR] else [.exit1DR, .exit1IR]) ∧
      ((commandEdges s i).take n).map (·.tdi) = (List.range n).map (dbit data) ∧
      t.issued = s.issued ++ commandEdges s i

/-- 41_shift.md R148: the bits of the last payload byte beyond the count affect nothing. -/
def Obligations.UnusedWriteBitsIgnored : Prop :=
  ∀ (s : State) (n : Nat) (p : Bool) (a b : List Byte), 1 ≤ n → a.length = byteCount n → b.length = byteCount n →
    (∀ i < n, dbit a i = dbit b i) →
    exec (.writeData n p a) s = exec (.writeData n p b) s ∧
    exec (.readWriteData n p a) s = exec (.readWriteData n p b) s ∧
    exec (.queueReadWrite n p a) s = exec (.queueReadWrite n p b) s

/-- 41_shift.md R166 and R142: every edge of a data primitive has TMS 0, so a TAP in Shift stays there, and the edges
of a read-only primitive drive TDI high. -/
def Obligations.DataEdgesKeepShift : Prop :=
  ∀ p : Prim, p.kind ≠ .tmsOut → p.kind ≠ .tmsIo →
    tmsOf p = List.replicate (primEdges p).length false ∧
    (∀ S : List TapState, S = (TapState.all.filter fun t => decide (t ∈ S)) →
      (∀ x ∈ S, x = .shiftDR ∨ x = .shiftIR) → walk S (tmsOf p) = S) ∧
    (p.kind = .bytesIn ∨ p.kind = .bitsIn → ∀ e ∈ primEdges p, e.tdi = true)

/-- READ_DATA (41_shift.md R155): it completes, its edges follow all earlier ones in the trace, the answer is the `n`
bits captured on them, every earlier queued read is completed, and nothing else changes. -/
def Obligations.ReadDataReturnsCapturedBits : Prop :=
  ∀ (s : State) (n : Nat), s.Inv → s.mode = .run → s.env.transportOk = true → 1 ≤ n →
    ∃ t bits, exec (.readData n) s = .next t ∧ bits.length = n ∧
      bits = tdoBits (sampleEdges s.env.oracle (s.trace.length + (edgesOf s.opb).length) (readEdges n)) ∧
      t = { s with
        opb := [], rrq := s.completed, syncCap := bits, tap := walk s.tap (List.replicate n false)
        trace := s.trace ++ sampleEdges s.env.oracle s.trace.length (edgesOf s.opb ++ readEdges n)
        ofaults := s.checkedOfaults, responses := s.responses ++ [⟨.ok, bits⟩], cmdIdx := s.cmdIdx + 1 }

/-- WRITE_DATA (41_shift.md R156): it completes with its primitives in `opb`, forces no delivery, answers OK, moves
`tap` along its edges, and changes nothing else. -/
def Obligations.WriteDataEmitsItsEdges : Prop :=
  ∀ (s : State) (n : Nat) (p : Bool) (data : List Byte), s.mode = .run → 1 ≤ s.params.bytesMax → 1 ≤ n →
    data.length = byteCount n →
    ∃ ps : List Prim, edgesOf ps = writeEdges data n p false ∧ (∀ x ∈ ps, x.body.own = .none) ∧
      ps.length = primCountW s.params.bytesMax n ∧
      exec (.writeData n p data) s = .next { s with
        opb := s.opb ++ ps, tap := walk s.tap ((writeEdges data n p false).map (·.tms))
        ofaults := s.checkedOfaults, responses := s.responses ++ [⟨.ok, []⟩], cmdIdx := s.cmdIdx + 1 }

/-- READ_WRITE_DATA (41_shift.md R157): as READ_DATA over the edges of a write form; the answer is the first `n`
captured bits, so the bit of the pause edge is dropped. -/
def Obligations.ReadWriteDataReturnsCapturedBits : Prop :=
  ∀ (s : State) (n : Nat) (p : Bool) (data : List Byte), s.Inv → s.mode = .run → s.env.transportOk = true → 1 ≤ n →
    data.length = byteCount n →
    ∃ t bits, exec (.readWriteData n p data) s = .next t ∧ bits.length = (if p then n + 1 else n) ∧
      bits = tdoBits (sampleEdges s.env.oracle (s.trace.length + (edgesOf s.opb).length)
        (writeEdges data n p true)) ∧
      t = { s with
        opb := [], rrq := s.completed, syncCap := bits
        tap := walk s.tap ((writeEdges data n p true).map (·.tms))
        trace := s.trace ++ sampleEdges s.env.oracle s.trace.length (edgesOf s.opb ++ writeEdges data n p true)
        ofaults := s.checkedOfaults, responses := s.responses ++ [⟨.ok, bits.take n⟩], cmdIdx := s.cmdIdx + 1 }

/-- 41_shift.md R168: with TDI looped back to TDO the captured result is the written pattern, at once for
READ_WRITE_DATA, and for QUEUE_READ_WRITE in its entry once delivered and in the answer of FINISH_READ. -/
def Obligations.LoopbackReturnsWrittenBits : Prop :=
  ∀ (s : State) (n : Nat) (p : Bool) (data : List Byte), s.Inv → s.mode = .run → s.env.transportOk = true →
    s.env.oracle = .loopback → 1 ≤ n → n ≤ Config.countMax → data.length = byteCount n →
    (∃ t, exec (.readWriteData n p data) s = .next t ∧
      t.responses = s.responses ++ [⟨.ok, (List.range n).map (dbit data)⟩]) ∧
    (s.rrq.length < s.params.rrqDepth → ∃ t e, exec (.queueReadWrite n p data) s = .next t ∧
      t.completed.getLast? = some e ∧ e.cap.take n = (List.range n).map (dbit data)) ∧
    (s.rrq = [] → ∃ t u, exec (.queueReadWrite n p data) s = .next t ∧ exec (.finishRead n) t = .next u ∧
      u.responses = s.responses ++ [⟨.ok, []⟩, ⟨.ok, (List.range n).map (dbit data)⟩])

/-! ## The queue -/

/-- 42_queue.md R182: an accepted queue command appends its entry with the next id, no bit captured and all its
primitives undelivered, then emits those primitives, each owned by the entry; it answers OK, forces no delivery and
changes nothing else. -/
def Obligations.QueueCommandsCreateEntries : Prop :=
  ∀ (s : State) (n : Nat) (p : Bool) (data : List Byte), s.mode = .run → 1 ≤ s.params.bytesMax → 1 ≤ n →
    data.length = byteCount n → s.rrq.length < s.params.rrqDepth →
    (∃ ps : List Prim, edgesOf ps = readEdges n ∧ (∀ x ∈ ps, x.body.own = .entry s.nextId) ∧
      ps.length = primCountR s.params.bytesMax n ∧
      exec (.queueRead n) s = .next { s with
        opb := s.opb ++ ps, rrq := s.rrq ++ [⟨s.nextId, n, .read, [], ps.length⟩], nextId := s.nextId + 1
        tap := walk s.tap (List.replicate n false), ofaults := s.checkedOfaults
        responses := s.responses ++ [⟨.ok, []⟩], cmdIdx := s.cmdIdx + 1 }) ∧
    (∃ ps : List Prim, edgesOf ps = writeEdges data n p true ∧ (∀ x ∈ ps, x.body.own = .entry s.nextId) ∧
      ps.length = primCountW s.params.bytesMax n ∧
      exec (.queueReadWrite n p data) s = .next { s with
        opb := s.opb ++ ps, rrq := s.rrq ++ [⟨s.nextId, n, .readWrite, [], ps.length⟩], nextId := s.nextId + 1
        tap := walk s.tap ((writeEdges data n p true).map (·.tms)), ofaults := s.checkedOfaults
        responses := s.responses ++ [⟨.ok, []⟩], cmdIdx := s.cmdIdx + 1 })

/-- FINISH_READ on a complete head pops it and answers its first `n` bits; no edge happens and nothing else changes
(42_queue.md R190). -/
def Obligations.FinishReadPopsCompleteHead : Prop :=
  ∀ (s : State) (n : Nat) (e : Entry) (rest : List Entry), s.mode = .run → 1 ≤ n → s.rrq = e :: rest → e.n = n →
    e.undelivered = 0 →
    exec (.finishRead n) s = .next { s with
      rrq := rest, responses := s.responses ++ [⟨.ok, e.cap.take n⟩], cmdIdx := s.cmdIdx + 1 }

/-- FINISH_READ on an incomplete head delivers the whole of `opb` first; its answer is the head's `n` bits, the TDO
bits of the captured edges of the entry's own primitives in order (42_queue.md R190, R192). -/
def Obligations.FinishReadForcesDelivery : Prop :=
  ∀ (s : State) (n : Nat) (e : Entry) (rest : List Entry), s.Inv → s.mode = .run → s.env.transportOk = true →
    1 ≤ n → s.rrq = e :: rest → e.n = n → 0 < e.undelivered →
    ∃ bits, bits = (e.cap ++ ownedBits s.env.oracle e.id s.trace.length s.opb).take n ∧ bits.length = n ∧
      exec (.finishRead n) s = .next { s with
        opb := [], rrq := s.completed.tail
        trace := s.trace ++ sampleEdges s.env.oracle s.trace.length (edgesOf s.opb)
        responses := s.responses ++ [⟨.ok, bits⟩], cmdIdx := s.cmdIdx + 1 }

/-- FLUSH delivers the whole of `opb` in order and answers OK; every entry is then complete and none is removed, so it
frees no capacity; with `opb` empty it only answers (42_queue.md R195, 20_memory.md R61, 70_reset_and_hazards.md
R265). -/
def Obligations.FlushDeliversEverything : Prop :=
  ∀ s : State, s.mode = .run →
    (s.Inv → s.env.transportOk = true → exec .flush s = .next { s with
      opb := [], rrq := s.completed
      trace := s.trace ++ sampleEdges s.env.oracle s.trace.length (edgesOf s.opb)
      responses := s.responses ++ [⟨.ok, []⟩], cmdIdx := s.cmdIdx + 1 }) ∧
    (s.opb = [] → exec .flush s =
      .next { s with responses := s.responses ++ [⟨.ok, []⟩], cmdIdx := s.cmdIdx + 1 })

/-- A queued read and its FINISH_READ give the bits, the edges and the TAP state of the synchronous read
(42_queue.md R185: "identical semantics to the synchronous forms above, but the result is not returned
immediately"). -/
def Obligations.QueuedReadEqualsReadData : Prop :=
  ∀ (s : State) (n : Nat), s.Inv → s.mode = .run → s.env.transportOk = true → s.rrq = [] → 1 ≤ n →
    n ≤ Config.countMax →
    ∃ a b c r, exec (.queueRead n) s = .next a ∧ exec (.finishRead n) a = .next b ∧ exec (.readData n) s = .next c ∧
      b.responses = s.responses ++ [⟨.ok, []⟩, r] ∧ c.responses = s.responses ++ [r] ∧ r.bits.length = n ∧
      b.trace = c.trace ∧ b.tap = c.tap ∧ b.rrq = [] ∧ b.opb = []

/-! ## Primitives -/

/-- 40_tap_traversal.md R125: the edges of TMS_OUT, and (R126) of TMS_IO, which captures them; the bits go to the
owner (20_memory.md R59). That executing a primitive is its delivery, in either mode and with `opb` left alone, is the
model's choice (log 6). A TMS_IO of more than 8 edges, which JTS never emits, has no raw capture layout (log 13). -/
def Obligations.TmsPrimitivesClockTheirEdges : Prop :=
  ∀ (c : Params) (s : State) (b : PrimBody),
    (primEdges ⟨.tmsOut, b⟩).length = b.len ∧ tmsOf ⟨.tmsOut, b⟩ = unpack b.data b.len ∧
    ((Instr.primTmsOut b).wellFormed c = true → ∃ t, exec (.primTmsOut b) s = .next t ∧
      t = { s with
        trace := s.trace ++
          (List.range b.len).map fun j => ⟨(b.data.getD (j / 8) 0).getLsbD (j % 8), b.tdi, none⟩ }) ∧
    ((Instr.primTmsIo b).wellFormed c = true → b.len ≤ 8 → ∃ t, exec (.primTmsIo b) s = .next t ∧
      DeliversTo s t b.own ((List.range b.len).map fun j => s.env.oracle.bit (s.trace.length + j) b.tdi)
        ((List.range b.len).map fun j =>
          ⟨(b.data.getD (j / 8) 0).getLsbD (j % 8), b.tdi,
            some (s.env.oracle.bit (s.trace.length + j) b.tdi)⟩))

/-- 41_shift.md R160 to R165: the edges of the six data primitives; a capturing one gives its bits to its owner
(20_memory.md R59), and the adapter's raw bytes of BYTES_IN hold edge `8i + j` at byte `i` bit `j`. That executing a
primitive is its delivery, in either mode and with `opb` left alone, is the model's choice (log 6). -/
def Obligations.DataPrimitivesClockTheirEdges : Prop :=
  ∀ (c : Params) (s : State) (b : PrimBody),
    let tdo (j : Nat) (tdi : Bool) : Bool := s.env.oracle.bit (s.trace.length + j) tdi
    let byteBit (j : Nat) : Bool := (b.data.getD (j / 8) 0).getLsbD (j % 8)
    let lowBit (j : Nat) : Bool := (b.data.getD 0 0).getLsbD j
    ((Instr.primBytesOut b).wellFormed c = true → ∃ t, exec (.primBytesOut b) s = .next t ∧
      t = { s with trace := s.trace ++ (List.range (8 * b.len)).map fun j => ⟨false, byteBit j, none⟩ }) ∧
    ((Instr.primBytesIn b).wellFormed c = true → ∃ t, exec (.primBytesIn b) s = .next t ∧
      DeliversTo s t b.own ((List.range (8 * b.len)).map fun j => tdo j true)
        ((List.range (8 * b.len)).map fun j => ⟨false, true, some (tdo j true)⟩)) ∧
    ((Instr.primBytesIo b).wellFormed c = true → ∃ t, exec (.primBytesIo b) s = .next t ∧
      DeliversTo s t b.own ((List.range (8 * b.len)).map fun j => tdo j (byteBit j))
        ((List.range (8 * b.len)).map fun j => ⟨false, byteBit j, some (tdo j (byteBit j))⟩)) ∧
    ((Instr.primBitsOut b).wellFormed c = true → ∃ t, exec (.primBitsOut b) s = .next t ∧
      t = { s with trace := s.trace ++ (List.range b.len).map fun j => ⟨false, lowBit j, none⟩ }) ∧
    ((Instr.primBitsIn b).wellFormed c = true → ∃ t, exec (.primBitsIn b) s = .next t ∧
      DeliversTo s t b.own ((List.range b.len).map fun j => tdo j true)
        ((List.range b.len).map fun j => ⟨false, true, some (tdo j true)⟩)) ∧
    ((Instr.primBitsIo b).wellFormed c = true → ∃ t, exec (.primBitsIo b) s = .next t ∧
      DeliversTo s t b.own ((List.range b.len).map fun j => tdo j (lowBit j))
        ((List.range b.len).map fun j => ⟨false, lowBit j, some (tdo j (lowBit j))⟩)) ∧
    (∀ (low : Byte) (bits : List Bool), bits.length = 8 * b.len → ∀ i < b.len, ∀ j < 8,
      ((adapterRaw .bytesIn b.len low bits).getD i 0).getLsbD j = bits.getD (8 * i + j) false)

/-- 41_shift.md R167: JTS unpacks a raw byte capture, shifts a raw sub-byte capture right by `8 - LEN`, and either way
has the captured bits in edge order, whatever the adapter left in the unused low bits (log 10). -/
def Obligations.RawCaptureConverts : Prop :=
  ∀ (kind : PrimKind) (len : Nat) (low : Byte) (raw : List Byte) (bits : List Bool),
    (kind = .bytesIn ∨ kind = .bytesIo →
      convertRaw kind len raw = unpack raw (8 * len) ∧
      (bits.length = 8 * len → convertRaw kind len (adapterRaw kind len low bits) = bits)) ∧
    (kind = .bitsIn ∨ kind = .bitsIo ∨ kind = .tmsIo →
      convertRaw kind len raw = unpack [raw.getD 0 0 >>> (8 - len)] len ∧
      (len ≤ 8 → bits.length = len →
        (∀ j < len, ((adapterRaw kind len low bits).getD 0 0).getLsbD (8 - len + j) = bits.getD j false) ∧
        convertRaw kind len (adapterRaw kind len low bits) = bits))

/-! ## Whole-machine rules -/

/-- JTS never reads the ghost `tap` or `ofaults`: whatever they hold, an instruction and a step of the machine (a
command, an illegal word, a hold, a delivery that succeeds or fails, the end of a run, teardown) do the same to
everything else, and step stops in the same cases (10_state.md R31, 60_exceptions.md R242). -/
def Obligations.ObservationNeverChangesBehaviour : Prop :=
  ∀ (s : State) (tap : List TapState) (of : List ObsFault),
    (∀ i : Instr, ∃ t u, exec i s = .next t ∧ exec i { s with tap := tap, ofaults := of } = .next u ∧
      { u with tap := t.tap, ofaults := t.ofaults } = t) ∧
    ((∃ t u, step s = .next t ∧ step { s with tap := tap, ofaults := of } = .next u ∧
        { u with tap := t.tap, ofaults := t.ofaults } = t) ∨
      (s.released = true ∧ step s = .fault .sessionReleased ∧
        step { s with tap := tap, ofaults := of } = .fault .sessionReleased))

/-- The delivery schedule is invisible: a command issued after a free delivery of any prefix of `opb` gives the state it
gives without it, but for what has been delivered: `opb`, `trace` and how far the entries are captured. The edges issued,
the trace once all is delivered with every TDO bit, and the entries once all is delivered are the same
(20_memory.md R58, R60; 95_test_vectors.md, delivery schedule). -/
def Obligations.DeliverySchedulesAgree : Prop :=
  ∀ (s : State) (k : Nat) (i : Instr), s.Inv → s.env.transportOk = true → i.toPrim = none →
    ∃ t u, exec i s = .next t ∧
      exec i (Ops.clockAll (s.opb.take k) { s with opb := s.opb.drop k }) = .next u ∧
      u = { t with opb := u.opb, trace := u.trace, rrq := u.rrq } ∧
      u.issued = t.issued ∧ u.delivered = t.delivered ∧ u.rrq.map Entry.label = t.rrq.map Entry.label ∧
      u.completed = t.completed

/-! ## The edges of a primitive -/

/-- 40_tap_traversal.md R125, 41_shift.md R160 to R165: each edge of TMS_OUT and of the six data primitives in its place,
and where a captured bit of BYTES_IN stands in the raw return. -/
def Obligations.PrimitiveEdgesStandInOrder : Prop :=
  ∀ b : PrimBody,
    ((primEdges ⟨.tmsOut, b⟩).length = b.len ∧ tmsOf ⟨.tmsOut, b⟩ = unpack b.data b.len ∧
      ∀ j < b.len, (primEdges ⟨.tmsOut, b⟩)[j]? =
        some ⟨(b.data.getD (j / 8) 0).getLsbD (j % 8), b.tdi, false⟩) ∧
    ((primEdges ⟨.bytesOut, b⟩).length = 8 * b.len ∧ ∀ i < b.len, ∀ j < 8,
      (primEdges ⟨.bytesOut, b⟩)[8 * i + j]? = some ⟨false, (b.data.getD i 0).getLsbD j, false⟩) ∧
    ((primEdges ⟨.bytesIn, b⟩).length = 8 * b.len ∧ ∀ i < b.len, ∀ j < 8,
      (primEdges ⟨.bytesIn, b⟩)[8 * i + j]? = some ⟨false, true, true⟩ ∧
      ∀ (low : Byte) (bits : List Bool), bits.length = 8 * b.len →
        ((adapterRaw .bytesIn b.len low bits).getD i 0).getLsbD j = bits.getD (8 * i + j) false) ∧
    ((primEdges ⟨.bytesIo, b⟩).length = 8 * b.len ∧ ∀ i < b.len, ∀ j < 8,
      (primEdges ⟨.bytesIo, b⟩)[8 * i + j]? = some ⟨false, (b.data.getD i 0).getLsbD j, true⟩) ∧
    ((primEdges ⟨.bitsOut, b⟩).length = b.len ∧ ∀ j < b.len,
      (primEdges ⟨.bitsOut, b⟩)[j]? = some ⟨false, (b.data.getD 0 0).getLsbD j, false⟩) ∧
    ((primEdges ⟨.bitsIn, b⟩).length = b.len ∧ ∀ j < b.len,
      (primEdges ⟨.bitsIn, b⟩)[j]? = some ⟨false, true, true⟩) ∧
    ((primEdges ⟨.bitsIo, b⟩).length = b.len ∧ ∀ j < b.len,
      (primEdges ⟨.bitsIo, b⟩)[j]? = some ⟨false, (b.data.getD 0 0).getLsbD j, true⟩)
end

