-- ==== Sys2Proof/Laws/BitBuffer.lean ====
section
/-! SUPPORT. Laws of the bit buffers (20_memory.md R50 to R53): what each function reads at an index. -/

namespace Sys2Proof

theorem getLsbD_byteOf (f : Nat → Bool) (j : Nat) (h : j < 8) : (byteOf f).getLsbD j = f j := by
  have e : (byteOf f).getLsbD j = [f 0, f 1, f 2, f 3, f 4, f 5, f 6, f 7].getD j false :=
    BitVec.getLsbD_ofBoolListLE
  rw [e]
  interval_cases j <;> rfl

@[simp] theorem byteCount_zero : byteCount 0 = 0 := rfl

theorem byteCount_pos {n : Nat} (h : 1 ≤ n) : 1 ≤ byteCount n := by
  unfold byteCount; omega

theorem lt_byteCount_iff {n i : Nat} : i < byteCount n ↔ 8 * i < n := by
  unfold byteCount; omega

@[simp] theorem pack_nil : pack [] = [] := rfl

@[simp] theorem length_pack (s : List Bool) : (pack s).length = byteCount s.length := by
  simp [pack]

@[simp] theorem length_unpack (buf : List Byte) (n : Nat) : (unpack buf n).length = n := by
  simp [unpack]

@[simp] theorem unpack_zero (buf : List Byte) : unpack buf 0 = [] := rfl

theorem getElem?_unpack (buf : List Byte) (n i : Nat) :
    (unpack buf n)[i]? = if i < n then some (bufBit buf i) else none := by
  by_cases h : i < n <;> simp [unpack, h]

/-- A bit of a packed string: the string's own bit, zero at and beyond its end (R51). -/
theorem bufBit_pack (s : List Bool) (i : Nat) : bufBit (pack s) i = s.getD i false := by
  unfold bufBit pack
  by_cases h : i / 8 < byteCount s.length
  · rw [List.getD_eq_getElem?_getD, List.getElem?_map, List.getElem?_range h]
    simp only [Option.map_some, Option.getD_some]
    rw [getLsbD_byteOf _ _ (Nat.mod_lt _ (by decide)), Nat.div_add_mod]
  · have hs : s.length ≤ i := by rw [lt_byteCount_iff] at h; omega
    rw [List.getD_eq_getElem?_getD, List.getElem?_eq_none (by simpa using h),
      List.getD_eq_getElem?_getD, List.getElem?_eq_none hs]
    simp

theorem bufBit_cons_zero (d : Byte) (ds : List Byte) (i : Nat) (h : i < 8) :
    bufBit (d :: ds) i = d.getLsbD i := by
  have h0 : i / 8 = 0 := by omega
  have h1 : i % 8 = i := by omega
  simp [bufBit, h0, h1]

theorem unpack_congr {a b : List Byte} {n : Nat} (h : ∀ i < n, bufBit a i = bufBit b i) :
    unpack a n = unpack b n := by
  unfold unpack
  exact List.map_congr_left fun i hi => h i (List.mem_range.mp hi)

/-- The four bytes of a word give the word back (R53). -/
theorem bytesWord_wordBytes (w : Word) :
    bytesWord (w.extractLsb' 0 8) (w.extractLsb' 8 8) (w.extractLsb' 16 8) (w.extractLsb' 24 8) = w := by
  apply BitVec.eq_of_getLsbD_eq
  intro i hi
  unfold bytesWord
  simp only [BitVec.getLsbD_append, BitVec.getLsbD_extractLsb']
  interval_cases i <;> simp

theorem wordBytes_bytesWord (b0 b1 b2 b3 : Byte) : wordBytes (bytesWord b0 b1 b2 b3) = [b0, b1, b2, b3] := by
  unfold wordBytes bytesWord
  congr 1
  · apply BitVec.eq_of_getLsbD_eq
    intro i hi
    simp only [BitVec.getLsbD_append, BitVec.getLsbD_extractLsb']
    interval_cases i <;> simp
  congr 1
  · apply BitVec.eq_of_getLsbD_eq
    intro i hi
    simp only [BitVec.getLsbD_append, BitVec.getLsbD_extractLsb']
    interval_cases i <;> simp
  congr 1
  · apply BitVec.eq_of_getLsbD_eq
    intro i hi
    simp only [BitVec.getLsbD_append, BitVec.getLsbD_extractLsb']
    interval_cases i <;> simp
  congr 1
  · apply BitVec.eq_of_getLsbD_eq
    intro i hi
    simp only [BitVec.getLsbD_append, BitVec.getLsbD_extractLsb']
    interval_cases i <;> simp

end Sys2Proof
end

