-- ==== Sys2Proof/Laws/Decode.lean ====
section
/-! SUPPORT. Laws of the decoders: the fields of an encoded command word, and what a stream that begins with a word
decodes to. -/

namespace Sys2Proof

theorem opcField_commandWord (op : Opcode) (p t : Bool) (n : Nat) :
    opcField (commandWord op p t n) = op.bits := by
  apply BitVec.eq_of_getLsbD_eq
  intro i hi
  unfold opcField commandWord
  simp only [BitVec.getLsbD_extractLsb', BitVec.getLsbD_append]
  interval_cases i <;> simp

theorem rsvField_commandWord (op : Opcode) (p t : Bool) (n : Nat) : rsvField (commandWord op p t n) = 0 := by
  apply BitVec.eq_of_getLsbD_eq
  intro i hi
  unfold rsvField commandWord
  simp only [BitVec.getLsbD_extractLsb', BitVec.getLsbD_append]
  interval_cases i <;> simp

theorem pField_commandWord (op : Opcode) (p t : Bool) (n : Nat) : pField (commandWord op p t n) = p := by
  unfold pField commandWord
  simp only [BitVec.getLsbD_append]
  cases p <;> simp

theorem tField_commandWord (op : Opcode) (p t : Bool) (n : Nat) : tField (commandWord op p t n) = t := by
  unfold tField commandWord
  simp only [BitVec.getLsbD_append]
  cases t <;> simp

theorem countField_commandWord (op : Opcode) (p t : Bool) (n : Nat) (h : n ≤ Config.countMax) :
    countField (commandWord op p t n) = n := by
  have e : (commandWord op p t n).extractLsb' 0 24 = BitVec.ofNat 24 n := by
    apply BitVec.eq_of_getLsbD_eq
    intro i hi
    unfold commandWord
    simp only [BitVec.getLsbD_extractLsb', BitVec.getLsbD_append]
    simp [hi]
  have hn : n < 2 ^ 24 := by
    have : Config.countMax = 2 ^ 24 - 1 := rfl
    omega
  rw [countField, e, BitVec.toNat_ofNat, Nat.mod_eq_of_lt hn]

theorem ofBits_bits (op : Opcode) : Opcode.ofBits op.bits = some op := by cases op <;> rfl

theorem bits_of_ofBits {v : BitVec 4} {op : Opcode} (h : Opcode.ofBits v = some op) : op.bits = v := by
  revert h
  revert op
  revert v
  decide

theorem ofCode_code (k : PrimKind) : PrimKind.ofCode k.code = some k := by cases k <;> rfl

theorem code_of_ofCode {v : BitVec 4} {k : PrimKind} (h : PrimKind.ofCode v = some k) : k.code = v := by
  revert h
  cases k <;> revert v <;> decide

/-- A stream that begins with the bytes of a word. -/
theorem decode_wordBytes (w : Word) (rest : List Byte) : decode (wordBytes w ++ rest) = decodeWord w rest := by
  simp only [wordBytes, List.cons_append, List.nil_append, decode, bytesWord_wordBytes]

/-- A legal word with its whole payload (R76). -/
theorem decodeWord_legal {w : Word} {op : Opcode} {payload rest : List Byte} (hl : illegalReason w = none)
    (ho : Opcode.ofBits (opcField w) = some op) (hp : payload.length = op.payloadBytes (countField w)) :
    decodeWord w (payload ++ rest) =
      .command (Instr.ofCommand op (countField w) (pField w) (tField w) payload) rest := by
  have h : ¬ (payload ++ rest).length < op.payloadBytes (countField w) := by
    rw [List.length_append]; omega
  simp only [decodeWord, hl, ho, h, if_false]
  rw [List.take_append_of_le_length (by omega), List.take_of_length_le (by omega),
    List.drop_append_of_le_length (by omega), List.drop_of_length_le (by omega), List.nil_append]

/-- An illegal word (R76, R79). -/
theorem decodeWord_illegal {w : Word} {why : Illegal} (h : illegalReason w = some why) (rest : List Byte) :
    decodeWord w rest = .illegal why rest := by
  simp [decodeWord, h]

/-- A command word whose fields the opcode uses is legal (R73, R79). -/
theorem illegalReason_commandWord (op : Opcode) (p t : Bool) (n : Nat) (hn : n ≤ Config.countMax)
    (hp : p = true → op.usesP = true) (ht : t = true → op.usesT = true) (hf : op = .flush → n = 0) :
    illegalReason (commandWord op p t n) = none := by
  unfold illegalReason
  rw [opcField_commandWord, ofBits_bits, rsvField_commandWord, pField_commandWord, tField_commandWord,
    countField_commandWord _ _ _ _ hn]
  cases p <;> cases t <;> simp_all

end Sys2Proof
end

