-- ==== Sys2Proof/Laws/Edges.lean ====
section
/-! SUPPORT. Laws of the edges and of sampling: how many edges there are, and that a delivery cut in two samples the
same edges. -/

namespace Sys2Proof.Machine

@[simp] theorem edgesOf_nil : edgesOf [] = [] := rfl

@[simp] theorem edgesOf_cons (p : Prim) (ps : List Prim) : edgesOf (p :: ps) = primEdges p ++ edgesOf ps := rfl

@[simp] theorem edgesOf_append (ps qs : List Prim) : edgesOf (ps ++ qs) = edgesOf ps ++ edgesOf qs :=
  List.flatMap_append

/-- `EdgeCount(p)`: `LEN` for TMS and bit primitives, `8 * LEN` for byte primitives (R125, R160 to R166). -/
theorem length_primEdges (p : Prim) :
    (primEdges p).length =
      match p.kind with
      | .tmsOut | .tmsIo | .bitsOut | .bitsIn | .bitsIo => p.body.len
      | .bytesOut | .bytesIn | .bytesIo => 8 * p.body.len := by
  rcases p with ⟨k, b⟩
  cases k <;>
    simp [primEdges, edgesTmsOut, edgesTmsIo, edgesBytesOut, edgesBytesIn, edgesBytesIo, edgesBitsOut, edgesBitsIn,
      edgesBitsIo]

/-- The TMS bits of a list of primitives are those of their edges. -/
theorem flatMap_tmsOf (ps : List Prim) : ps.flatMap tmsOf = (edgesOf ps).map (·.tms) := by
  induction ps with
  | nil => rfl
  | cons p ps ih => simp [tmsOf, ih]

@[simp] theorem sampleEdges_nil (o : TdoOracle) (pos : Nat) : sampleEdges o pos [] = [] := rfl

@[simp] theorem length_sampleEdges (o : TdoOracle) (pos : Nat) (es : List Edge) :
    (sampleEdges o pos es).length = es.length := by
  induction es generalizing pos with
  | nil => rfl
  | cons e es ih => simp [sampleEdges, ih]

theorem sampleEdges_append (o : TdoOracle) (pos : Nat) (a b : List Edge) :
    sampleEdges o pos (a ++ b) = sampleEdges o pos a ++ sampleEdges o (pos + a.length) b := by
  induction a generalizing pos with
  | nil => rfl
  | cons e es ih =>
    simp only [List.cons_append, sampleEdges, ih, List.length_cons]
    rw [show pos + 1 + es.length = pos + (es.length + 1) by omega]

/-- The record at an index: the edge there, sampled at its own position (R59). -/
theorem getElem?_sampleEdges (o : TdoOracle) (pos : Nat) (es : List Edge) (i : Nat) :
    (sampleEdges o pos es)[i]? = es[i]?.map (Edge.sampled o (pos + i)) := by
  induction es generalizing pos i with
  | nil => simp
  | cons e es ih =>
    cases i with
    | zero => simp [sampleEdges]
    | succ i =>
      simp only [sampleEdges, List.getElem?_cons_succ, ih]
      rw [show pos + 1 + i = pos + (i + 1) by omega]

@[simp] theorem tdoBits_nil : tdoBits [] = [] := rfl

@[simp] theorem tdoBits_append (a b : List TraceEdge) : tdoBits (a ++ b) = tdoBits a ++ tdoBits b :=
  List.filterMap_append

/-- Where every edge is captured there is one bit an edge. -/
theorem length_tdoBits_of_captured (o : TdoOracle) (pos : Nat) (es : List Edge) (h : ∀ e ∈ es, e.capture = true) :
    (tdoBits (sampleEdges o pos es)).length = es.length := by
  induction es generalizing pos with
  | nil => rfl
  | cons e es ih =>
    have he : e.capture = true := h e (by simp)
    have := ih (pos + 1) fun x hx => h x (by simp [hx])
    simpa [sampleEdges, tdoBits, Edge.sampled, he] using this

/-- Where no edge is captured there is no bit. -/
theorem tdoBits_of_uncaptured (o : TdoOracle) (pos : Nat) (es : List Edge) (h : ∀ e ∈ es, e.capture = false) :
    tdoBits (sampleEdges o pos es) = [] := by
  induction es generalizing pos with
  | nil => rfl
  | cons e es ih =>
    have he : e.capture = false := h e (by simp)
    have := ih (pos + 1) fun x hx => h x (by simp [hx])
    simpa [sampleEdges, tdoBits, Edge.sampled, he] using this

end Sys2Proof.Machine
end

