-- ==== Sys2Proof/Laws/Operands.lean ====
section
/-! SUPPORT. Laws of the operand forms: what the chunk counts add up to, how a split list joins again, and the parts of
`readPrims` and `writePrims`. -/

namespace Sys2Proof.Machine

@[simp] theorem byteChunks_zero (most : Nat) : byteChunks 0 most = [] := by simp [byteChunks]

/-- The counts add up to the whole (R146). -/
theorem sum_byteChunks (m most : Nat) : (byteChunks m most).sum = m := by
  have h := Nat.div_add_mod m most
  by_cases hz : m % most = 0
  · simp [byteChunks, hz]; rw [hz] at h; rw [Nat.mul_comm]; omega
  · simp [byteChunks, hz]; rw [Nat.mul_comm]; omega

/-- Every count is between 1 and the largest (R146). -/
theorem mem_byteChunks {m most k : Nat} (hm : 1 ≤ most) (h : k ∈ byteChunks m most) : 1 ≤ k ∧ k ≤ most := by
  unfold byteChunks at h
  rw [List.mem_append] at h
  rcases h with h | h
  · have := (List.mem_replicate.mp h).2
    omega
  · split at h
    · simp at h
    · have hk : k = m % most := by simpa using h
      have := Nat.mod_lt m (show most > 0 by omega)
      omega

theorem length_splitSizes {α : Type} (ks : List Nat) (xs : List α) : (splitSizes ks xs).length = ks.length := by
  induction ks generalizing xs with
  | nil => rfl
  | cons k ks ih => simp [splitSizes, ih]

/-- Pieces that use a whole list up join to it. -/
theorem flatten_splitSizes {α : Type} (ks : List Nat) (xs : List α) (h : ks.sum = xs.length) :
    (splitSizes ks xs).flatten = xs := by
  induction ks generalizing xs with
  | nil => cases xs <;> simp_all [splitSizes]
  | cons k ks ih =>
    simp only [List.sum_cons] at h
    simp only [splitSizes, List.flatten_cons]
    rw [ih _ (by simp; omega)]
    exact List.take_append_drop k xs

/-- The pieces have the given sizes. -/
theorem map_length_splitSizes {α : Type} (ks : List Nat) (xs : List α) (h : ks.sum = xs.length) :
    (splitSizes ks xs).map List.length = ks := by
  induction ks generalizing xs with
  | nil => rfl
  | cons k ks ih =>
    simp only [List.sum_cons] at h
    simp only [splitSizes, List.map_cons]
    rw [ih _ (by simp; omega)]
    simp; omega

theorem mem_splitSizes_length {α : Type} {ks : List Nat} {xs : List α} (h : ks.sum = xs.length) {c : List α}
    (hc : c ∈ splitSizes ks xs) : c.length ∈ ks := by
  rw [← map_length_splitSizes ks xs h]
  exact List.mem_map_of_mem hc

/-- The bits in the last byte are 1 to 8 (30_encoding.md R75). -/
theorem lastBits_bounds {n : Nat} (h : 1 ≤ n) : 1 ≤ lastBits n ∧ lastBits n ≤ 8 := by
  unfold lastBits byteCount; omega

theorem byteCount_lastBits {n : Nat} (h : 1 ≤ n) : 8 * (byteCount n - 1) + lastBits n = n := by
  unfold lastBits byteCount; omega

@[simp] theorem length_exitTms (p : Bool) : (exitTms p).length = if p then 2 else 1 := by cases p <;> rfl

/-- `PrimCount_R` counts the primitives of `ReadPrims` (42_queue.md R182, R185). -/
theorem length_readPrims (bytesMax n : Nat) (own : Owner) :
    (readPrims bytesMax n own).length = primCountR bytesMax n := by
  unfold readPrims primCountR
  by_cases h : n % 8 = 0
  · simp [h]
  · simp [h, Nat.pos_of_ne_zero h]

/-- `PrimCount_W` counts the primitives of `WritePrims` (42_queue.md R182, R186). -/
theorem length_writePrims (bytesMax : Nat) (data : List Byte) (n : Nat) (p io : Bool) (own : Owner) (h : 1 ≤ n) :
    (writePrims bytesMax data n p io own).length = primCountW bytesMax n := by
  have hb := lastBits_bounds h
  unfold writePrims primCountW
  by_cases h1 : lastBits n - 1 = 0
  · have h2 : ¬ lastBits n > 1 := by omega
    simp [h1, h2, length_splitSizes]
  · have h2 : lastBits n > 1 := by omega
    simp [h1, h2, length_splitSizes]

/-- Every primitive of a read is owned as asked. -/
theorem own_readPrims {bytesMax n : Nat} {own : Owner} {p : Prim} (h : p ∈ readPrims bytesMax n own) :
    p.body.own = own := by
  unfold readPrims at h
  rw [List.mem_append] at h
  rcases h with h | h
  · obtain ⟨m, -, rfl⟩ := List.mem_map.mp h; rfl
  · split at h
    · simp at h
    · obtain rfl := List.mem_singleton.mp h; rfl

/-- Every primitive of a write form is owned as asked, by none where it does not capture (R151). -/
theorem own_writePrims {bytesMax : Nat} {data : List Byte} {n : Nat} {pause io : Bool} {own : Owner} {p : Prim}
    (h : p ∈ writePrims bytesMax data n pause io own) : p.body.own = if io then own else .none := by
  unfold writePrims at h
  simp only [List.mem_append] at h
  rcases h with (h | h) | h
  · obtain ⟨m, -, rfl⟩ := List.mem_map.mp h; rfl
  · split at h
    · simp at h
    · obtain rfl := List.mem_singleton.mp h; rfl
  · obtain rfl := List.mem_singleton.mp h; rfl

end Sys2Proof.Machine
end

