-- ==== Sys2Proof/Laws/State.lean ====
section
/-! SUPPORT. For each operation over State, one lemma per field: what it leaves unchanged, and what it writes. No later
proof unfolds a record update. -/

namespace Sys2Proof.Machine.Ops

/-! ## Respond -/

section
variable (c : Status) (b : List Bool)

@[simp] theorem respond_params (s : State) : (respond c b s).params = s.params := rfl
@[simp] theorem respond_env (s : State) : (respond c b s).env = s.env := rfl
@[simp] theorem respond_mode (s : State) : (respond c b s).mode = s.mode := rfl
@[simp] theorem respond_faultCause (s : State) : (respond c b s).faultCause = s.faultCause := rfl
@[simp] theorem respond_opb (s : State) : (respond c b s).opb = s.opb := rfl
@[simp] theorem respond_rrq (s : State) : (respond c b s).rrq = s.rrq := rfl
@[simp] theorem respond_nextId (s : State) : (respond c b s).nextId = s.nextId := rfl
@[simp] theorem respond_syncCap (s : State) : (respond c b s).syncCap = s.syncCap := rfl
@[simp] theorem respond_input (s : State) : (respond c b s).input = s.input := rfl
@[simp] theorem respond_cmdIdx (s : State) : (respond c b s).cmdIdx = s.cmdIdx := rfl
@[simp] theorem respond_trace (s : State) : (respond c b s).trace = s.trace := rfl
@[simp] theorem respond_tap (s : State) : (respond c b s).tap = s.tap := rfl
@[simp] theorem respond_ofaults (s : State) : (respond c b s).ofaults = s.ofaults := rfl
@[simp] theorem respond_responses (s : State) : (respond c b s).responses = s.responses ++ [⟨c, b⟩] := rfl
@[simp] theorem respond_host (s : State) : (respond c b s).host = s.host := rfl
@[simp] theorem respond_runEnded (s : State) : (respond c b s).runEnded = s.runEnded := rfl
@[simp] theorem respond_released (s : State) : (respond c b s).released = s.released := rfl

end

/-! ## Entering FAULTED -/

section
variable (c : Status)

@[simp] theorem enterFaulted_params (s : State) : (enterFaulted c s).params = s.params := by
  unfold enterFaulted; split <;> simp [*]
@[simp] theorem enterFaulted_env (s : State) : (enterFaulted c s).env = s.env := by
  unfold enterFaulted; split <;> simp [*]
@[simp] theorem enterFaulted_mode (s : State) : (enterFaulted c s).mode = .faulted := by
  unfold enterFaulted; split <;> simp [*]
@[simp] theorem enterFaulted_faultCause (s : State) : (enterFaulted c s).faultCause = match s.mode with | .run => c | .faulted => s.faultCause := by
  unfold enterFaulted; split <;> simp [*]
@[simp] theorem enterFaulted_opb (s : State) : (enterFaulted c s).opb = s.opb := by
  unfold enterFaulted; split <;> simp [*]
@[simp] theorem enterFaulted_rrq (s : State) : (enterFaulted c s).rrq = s.rrq := by
  unfold enterFaulted; split <;> simp [*]
@[simp] theorem enterFaulted_nextId (s : State) : (enterFaulted c s).nextId = s.nextId := by
  unfold enterFaulted; split <;> simp [*]
@[simp] theorem enterFaulted_syncCap (s : State) : (enterFaulted c s).syncCap = s.syncCap := by
  unfold enterFaulted; split <;> simp [*]
@[simp] theorem enterFaulted_input (s : State) : (enterFaulted c s).input = s.input := by
  unfold enterFaulted; split <;> simp [*]
@[simp] theorem enterFaulted_cmdIdx (s : State) : (enterFaulted c s).cmdIdx = s.cmdIdx := by
  unfold enterFaulted; split <;> simp [*]
@[simp] theorem enterFaulted_trace (s : State) : (enterFaulted c s).trace = s.trace := by
  unfold enterFaulted; split <;> simp [*]
@[simp] theorem enterFaulted_tap (s : State) : (enterFaulted c s).tap = s.tap := by
  unfold enterFaulted; split <;> simp [*]
@[simp] theorem enterFaulted_ofaults (s : State) : (enterFaulted c s).ofaults = s.ofaults := by
  unfold enterFaulted; split <;> simp [*]
@[simp] theorem enterFaulted_responses (s : State) : (enterFaulted c s).responses = s.responses := by
  unfold enterFaulted; split <;> simp [*]
@[simp] theorem enterFaulted_host (s : State) : (enterFaulted c s).host = s.host := by
  unfold enterFaulted; split <;> simp [*]
@[simp] theorem enterFaulted_runEnded (s : State) : (enterFaulted c s).runEnded = s.runEnded := by
  unfold enterFaulted; split <;> simp [*]
@[simp] theorem enterFaulted_released (s : State) : (enterFaulted c s).released = s.released := by
  unfold enterFaulted; split <;> simp [*]

end

/-! ## Emission -/

section
variable (ps : List Prim)

@[simp] theorem emitAll_params (s : State) : (emitAll ps s).params = s.params := rfl
@[simp] theorem emitAll_env (s : State) : (emitAll ps s).env = s.env := rfl
@[simp] theorem emitAll_mode (s : State) : (emitAll ps s).mode = s.mode := rfl
@[simp] theorem emitAll_faultCause (s : State) : (emitAll ps s).faultCause = s.faultCause := rfl
@[simp] theorem emitAll_opb (s : State) : (emitAll ps s).opb = s.opb ++ ps := rfl
@[simp] theorem emitAll_rrq (s : State) : (emitAll ps s).rrq = s.rrq := rfl
@[simp] theorem emitAll_nextId (s : State) : (emitAll ps s).nextId = s.nextId := rfl
@[simp] theorem emitAll_syncCap (s : State) : (emitAll ps s).syncCap = s.syncCap := rfl
@[simp] theorem emitAll_input (s : State) : (emitAll ps s).input = s.input := rfl
@[simp] theorem emitAll_cmdIdx (s : State) : (emitAll ps s).cmdIdx = s.cmdIdx := rfl
@[simp] theorem emitAll_trace (s : State) : (emitAll ps s).trace = s.trace := rfl
@[simp] theorem emitAll_tap (s : State) : (emitAll ps s).tap = walk s.tap (ps.flatMap tmsOf) := rfl
@[simp] theorem emitAll_ofaults (s : State) : (emitAll ps s).ofaults = s.ofaults := rfl
@[simp] theorem emitAll_responses (s : State) : (emitAll ps s).responses = s.responses := rfl
@[simp] theorem emitAll_host (s : State) : (emitAll ps s).host = s.host := rfl
@[simp] theorem emitAll_runEnded (s : State) : (emitAll ps s).runEnded = s.runEnded := rfl
@[simp] theorem emitAll_released (s : State) : (emitAll ps s).released = s.released := rfl

end

/-! ## The caller contract -/

@[simp] theorem checkShift_params (s : State) : (checkShift s).params = s.params := by
  unfold checkShift; split <;> rfl
@[simp] theorem checkShift_env (s : State) : (checkShift s).env = s.env := by
  unfold checkShift; split <;> rfl
@[simp] theorem checkShift_mode (s : State) : (checkShift s).mode = s.mode := by
  unfold checkShift; split <;> rfl
@[simp] theorem checkShift_faultCause (s : State) : (checkShift s).faultCause = s.faultCause := by
  unfold checkShift; split <;> rfl
@[simp] theorem checkShift_opb (s : State) : (checkShift s).opb = s.opb := by
  unfold checkShift; split <;> rfl
@[simp] theorem checkShift_rrq (s : State) : (checkShift s).rrq = s.rrq := by
  unfold checkShift; split <;> rfl
@[simp] theorem checkShift_nextId (s : State) : (checkShift s).nextId = s.nextId := by
  unfold checkShift; split <;> rfl
@[simp] theorem checkShift_syncCap (s : State) : (checkShift s).syncCap = s.syncCap := by
  unfold checkShift; split <;> rfl
@[simp] theorem checkShift_input (s : State) : (checkShift s).input = s.input := by
  unfold checkShift; split <;> rfl
@[simp] theorem checkShift_cmdIdx (s : State) : (checkShift s).cmdIdx = s.cmdIdx := by
  unfold checkShift; split <;> rfl
@[simp] theorem checkShift_trace (s : State) : (checkShift s).trace = s.trace := by
  unfold checkShift; split <;> rfl
@[simp] theorem checkShift_tap (s : State) : (checkShift s).tap = s.tap := by
  unfold checkShift; split <;> rfl
@[simp] theorem checkShift_ofaults (s : State) : (checkShift s).ofaults = if inShift s.tap then s.ofaults else s.ofaults ++ [.notInShift s.cmdIdx] := by
  unfold checkShift; split <;> rfl
@[simp] theorem checkShift_responses (s : State) : (checkShift s).responses = s.responses := by
  unfold checkShift; split <;> rfl
@[simp] theorem checkShift_host (s : State) : (checkShift s).host = s.host := by
  unfold checkShift; split <;> rfl
@[simp] theorem checkShift_runEnded (s : State) : (checkShift s).runEnded = s.runEnded := by
  unfold checkShift; split <;> rfl
@[simp] theorem checkShift_released (s : State) : (checkShift s).released = s.released := by
  unfold checkShift; split <;> rfl

/-! ## Routing -/

section
variable (o : Owner) (b : List Bool)

@[simp] theorem route_params (s : State) : (route o b s).params = s.params := by
  cases o <;> rfl
@[simp] theorem route_env (s : State) : (route o b s).env = s.env := by
  cases o <;> rfl
@[simp] theorem route_mode (s : State) : (route o b s).mode = s.mode := by
  cases o <;> rfl
@[simp] theorem route_faultCause (s : State) : (route o b s).faultCause = s.faultCause := by
  cases o <;> rfl
@[simp] theorem route_opb (s : State) : (route o b s).opb = s.opb := by
  cases o <;> rfl
@[simp] theorem route_nextId (s : State) : (route o b s).nextId = s.nextId := by
  cases o <;> rfl
@[simp] theorem route_input (s : State) : (route o b s).input = s.input := by
  cases o <;> rfl
@[simp] theorem route_cmdIdx (s : State) : (route o b s).cmdIdx = s.cmdIdx := by
  cases o <;> rfl
@[simp] theorem route_trace (s : State) : (route o b s).trace = s.trace := by
  cases o <;> rfl
@[simp] theorem route_tap (s : State) : (route o b s).tap = s.tap := by
  cases o <;> rfl
@[simp] theorem route_ofaults (s : State) : (route o b s).ofaults = s.ofaults := by
  cases o <;> rfl
@[simp] theorem route_responses (s : State) : (route o b s).responses = s.responses := by
  cases o <;> rfl
@[simp] theorem route_host (s : State) : (route o b s).host = s.host := by
  cases o <;> rfl
@[simp] theorem route_runEnded (s : State) : (route o b s).runEnded = s.runEnded := by
  cases o <;> rfl
@[simp] theorem route_released (s : State) : (route o b s).released = s.released := by
  cases o <;> rfl

end

/-! ## Clocking one primitive -/

section
variable (p : Prim)

@[simp] theorem clock_params (s : State) : (clock p s).params = s.params := by
  simp [clock]
@[simp] theorem clock_env (s : State) : (clock p s).env = s.env := by
  simp [clock]
@[simp] theorem clock_mode (s : State) : (clock p s).mode = s.mode := by
  simp [clock]
@[simp] theorem clock_faultCause (s : State) : (clock p s).faultCause = s.faultCause := by
  simp [clock]
@[simp] theorem clock_opb (s : State) : (clock p s).opb = s.opb := by
  simp [clock]
@[simp] theorem clock_nextId (s : State) : (clock p s).nextId = s.nextId := by
  simp [clock]
@[simp] theorem clock_input (s : State) : (clock p s).input = s.input := by
  simp [clock]
@[simp] theorem clock_cmdIdx (s : State) : (clock p s).cmdIdx = s.cmdIdx := by
  simp [clock]
@[simp] theorem clock_trace (s : State) : (clock p s).trace = s.trace ++ sampledNow (primEdges p) s := by
  simp [clock]
@[simp] theorem clock_tap (s : State) : (clock p s).tap = s.tap := by
  simp [clock]
@[simp] theorem clock_ofaults (s : State) : (clock p s).ofaults = s.ofaults := by
  simp [clock]
@[simp] theorem clock_responses (s : State) : (clock p s).responses = s.responses := by
  simp [clock]
@[simp] theorem clock_host (s : State) : (clock p s).host = s.host := by
  simp [clock]
@[simp] theorem clock_runEnded (s : State) : (clock p s).runEnded = s.runEnded := by
  simp [clock]
@[simp] theorem clock_released (s : State) : (clock p s).released = s.released := by
  simp [clock]

end

/-! ## Drawing the next delivery -/

@[simp] theorem drawFailure_params (s : State) : (drawFailure s).params = s.params := by
  unfold drawFailure; split <;> rfl
@[simp] theorem drawFailure_mode (s : State) : (drawFailure s).mode = s.mode := by
  unfold drawFailure; split <;> rfl
@[simp] theorem drawFailure_faultCause (s : State) : (drawFailure s).faultCause = s.faultCause := by
  unfold drawFailure; split <;> rfl
@[simp] theorem drawFailure_opb (s : State) : (drawFailure s).opb = s.opb := by
  unfold drawFailure; split <;> rfl
@[simp] theorem drawFailure_rrq (s : State) : (drawFailure s).rrq = s.rrq := by
  unfold drawFailure; split <;> rfl
@[simp] theorem drawFailure_nextId (s : State) : (drawFailure s).nextId = s.nextId := by
  unfold drawFailure; split <;> rfl
@[simp] theorem drawFailure_syncCap (s : State) : (drawFailure s).syncCap = s.syncCap := by
  unfold drawFailure; split <;> rfl
@[simp] theorem drawFailure_input (s : State) : (drawFailure s).input = s.input := by
  unfold drawFailure; split <;> rfl
@[simp] theorem drawFailure_cmdIdx (s : State) : (drawFailure s).cmdIdx = s.cmdIdx := by
  unfold drawFailure; split <;> rfl
@[simp] theorem drawFailure_trace (s : State) : (drawFailure s).trace = s.trace := by
  unfold drawFailure; split <;> rfl
@[simp] theorem drawFailure_tap (s : State) : (drawFailure s).tap = s.tap := by
  unfold drawFailure; split <;> rfl
@[simp] theorem drawFailure_ofaults (s : State) : (drawFailure s).ofaults = s.ofaults := by
  unfold drawFailure; split <;> rfl
@[simp] theorem drawFailure_responses (s : State) : (drawFailure s).responses = s.responses := by
  unfold drawFailure; split <;> rfl
@[simp] theorem drawFailure_host (s : State) : (drawFailure s).host = s.host := by
  unfold drawFailure; split <;> rfl
@[simp] theorem drawFailure_runEnded (s : State) : (drawFailure s).runEnded = s.runEnded := by
  unfold drawFailure; split <;> rfl
@[simp] theorem drawFailure_released (s : State) : (drawFailure s).released = s.released := by
  unfold drawFailure; split <;> rfl

/-! ## Drawing the next turn -/

@[simp] theorem drawTurn_params (s : State) : (drawTurn s).params = s.params := by
  unfold drawTurn; split <;> rfl
@[simp] theorem drawTurn_mode (s : State) : (drawTurn s).mode = s.mode := by
  unfold drawTurn; split <;> rfl
@[simp] theorem drawTurn_faultCause (s : State) : (drawTurn s).faultCause = s.faultCause := by
  unfold drawTurn; split <;> rfl
@[simp] theorem drawTurn_opb (s : State) : (drawTurn s).opb = s.opb := by
  unfold drawTurn; split <;> rfl
@[simp] theorem drawTurn_rrq (s : State) : (drawTurn s).rrq = s.rrq := by
  unfold drawTurn; split <;> rfl
@[simp] theorem drawTurn_nextId (s : State) : (drawTurn s).nextId = s.nextId := by
  unfold drawTurn; split <;> rfl
@[simp] theorem drawTurn_syncCap (s : State) : (drawTurn s).syncCap = s.syncCap := by
  unfold drawTurn; split <;> rfl
@[simp] theorem drawTurn_input (s : State) : (drawTurn s).input = s.input := by
  unfold drawTurn; split <;> rfl
@[simp] theorem drawTurn_cmdIdx (s : State) : (drawTurn s).cmdIdx = s.cmdIdx := by
  unfold drawTurn; split <;> rfl
@[simp] theorem drawTurn_trace (s : State) : (drawTurn s).trace = s.trace := by
  unfold drawTurn; split <;> rfl
@[simp] theorem drawTurn_tap (s : State) : (drawTurn s).tap = s.tap := by
  unfold drawTurn; split <;> rfl
@[simp] theorem drawTurn_ofaults (s : State) : (drawTurn s).ofaults = s.ofaults := by
  unfold drawTurn; split <;> rfl
@[simp] theorem drawTurn_responses (s : State) : (drawTurn s).responses = s.responses := by
  unfold drawTurn; split <;> rfl
@[simp] theorem drawTurn_host (s : State) : (drawTurn s).host = s.host := by
  unfold drawTurn; split <;> rfl
@[simp] theorem drawTurn_runEnded (s : State) : (drawTurn s).runEnded = s.runEnded := by
  unfold drawTurn; split <;> rfl
@[simp] theorem drawTurn_released (s : State) : (drawTurn s).released = s.released := by
  unfold drawTurn; split <;> rfl

/-! ## Taking a command off the stream -/

section
variable (rest : List Byte)

@[simp] theorem fetched_params (s : State) : (fetched rest s).params = s.params := by
  simp [fetched]
@[simp] theorem fetched_mode (s : State) : (fetched rest s).mode = s.mode := by
  simp [fetched]
@[simp] theorem fetched_faultCause (s : State) : (fetched rest s).faultCause = s.faultCause := by
  simp [fetched]
@[simp] theorem fetched_opb (s : State) : (fetched rest s).opb = s.opb := by
  simp [fetched]
@[simp] theorem fetched_rrq (s : State) : (fetched rest s).rrq = s.rrq := by
  simp [fetched]
@[simp] theorem fetched_nextId (s : State) : (fetched rest s).nextId = s.nextId := by
  simp [fetched]
@[simp] theorem fetched_syncCap (s : State) : (fetched rest s).syncCap = s.syncCap := by
  simp [fetched]
@[simp] theorem fetched_input (s : State) : (fetched rest s).input = rest := by
  simp [fetched]
@[simp] theorem fetched_cmdIdx (s : State) : (fetched rest s).cmdIdx = s.cmdIdx := by
  simp [fetched]
@[simp] theorem fetched_trace (s : State) : (fetched rest s).trace = s.trace := by
  simp [fetched]
@[simp] theorem fetched_tap (s : State) : (fetched rest s).tap = s.tap := by
  simp [fetched]
@[simp] theorem fetched_ofaults (s : State) : (fetched rest s).ofaults = s.ofaults := by
  simp [fetched]
@[simp] theorem fetched_responses (s : State) : (fetched rest s).responses = s.responses := by
  simp [fetched]
@[simp] theorem fetched_host (s : State) : (fetched rest s).host = s.host := by
  simp [fetched]
@[simp] theorem fetched_runEnded (s : State) : (fetched rest s).runEnded = s.runEnded := by
  simp [fetched]
@[simp] theorem fetched_released (s : State) : (fetched rest s).released = s.released := by
  simp [fetched]

end

/-! ## A delivery that fails -/

section
variable (ps : List Prim) (m : Nat)

@[simp] theorem failDelivery_params (s : State) : (failDelivery ps m s).params = s.params := by
  simp [failDelivery]
@[simp] theorem failDelivery_env (s : State) : (failDelivery ps m s).env = s.env := by
  simp [failDelivery]
@[simp] theorem failDelivery_mode (s : State) : (failDelivery ps m s).mode = .faulted := by
  simp [failDelivery]
@[simp] theorem failDelivery_faultCause (s : State) : (failDelivery ps m s).faultCause = match s.mode with | .run => .transportFailure | .faulted => s.faultCause := by
  simp [failDelivery]
@[simp] theorem failDelivery_opb (s : State) : (failDelivery ps m s).opb = [] := by
  simp [failDelivery]
@[simp] theorem failDelivery_rrq (s : State) : (failDelivery ps m s).rrq = s.rrq.map Entry.lose := by
  simp [failDelivery]
@[simp] theorem failDelivery_nextId (s : State) : (failDelivery ps m s).nextId = s.nextId := by
  simp [failDelivery]
@[simp] theorem failDelivery_syncCap (s : State) : (failDelivery ps m s).syncCap = s.syncCap := by
  simp [failDelivery]
@[simp] theorem failDelivery_input (s : State) : (failDelivery ps m s).input = s.input := by
  simp [failDelivery]
@[simp] theorem failDelivery_cmdIdx (s : State) : (failDelivery ps m s).cmdIdx = s.cmdIdx := by
  simp [failDelivery]
@[simp] theorem failDelivery_trace (s : State) : (failDelivery ps m s).trace = s.trace ++ sampledNow ((edgesOf ps).take m) s := by
  simp [failDelivery]
@[simp] theorem failDelivery_tap (s : State) : (failDelivery ps m s).tap = TapState.all := by
  simp [failDelivery]
@[simp] theorem failDelivery_ofaults (s : State) : (failDelivery ps m s).ofaults = s.ofaults := by
  simp [failDelivery]
@[simp] theorem failDelivery_responses (s : State) : (failDelivery ps m s).responses = s.responses := by
  simp [failDelivery]
@[simp] theorem failDelivery_host (s : State) : (failDelivery ps m s).host = s.host := by
  simp [failDelivery]
@[simp] theorem failDelivery_runEnded (s : State) : (failDelivery ps m s).runEnded = s.runEnded := by
  simp [failDelivery]
@[simp] theorem failDelivery_released (s : State) : (failDelivery ps m s).released = s.released := by
  simp [failDelivery]

end

/-! ## The end of a run -/

@[simp] theorem endRun_params (s : State) : (endRun s).params = s.params := by
  unfold endRun; split <;> rfl
@[simp] theorem endRun_env (s : State) : (endRun s).env = s.env := by
  unfold endRun; split <;> rfl
@[simp] theorem endRun_mode (s : State) : (endRun s).mode = s.mode := by
  unfold endRun; split <;> rfl
@[simp] theorem endRun_faultCause (s : State) : (endRun s).faultCause = s.faultCause := by
  unfold endRun; split <;> rfl
@[simp] theorem endRun_opb (s : State) : (endRun s).opb = s.opb := by
  unfold endRun; split <;> rfl
@[simp] theorem endRun_rrq (s : State) : (endRun s).rrq = s.rrq := by
  unfold endRun; split <;> rfl
@[simp] theorem endRun_nextId (s : State) : (endRun s).nextId = s.nextId := by
  unfold endRun; split <;> rfl
@[simp] theorem endRun_syncCap (s : State) : (endRun s).syncCap = s.syncCap := by
  unfold endRun; split <;> rfl
@[simp] theorem endRun_input (s : State) : (endRun s).input = s.input := by
  unfold endRun; split <;> rfl
@[simp] theorem endRun_cmdIdx (s : State) : (endRun s).cmdIdx = s.cmdIdx := by
  unfold endRun; split <;> rfl
@[simp] theorem endRun_trace (s : State) : (endRun s).trace = s.trace := by
  unfold endRun; split <;> rfl
@[simp] theorem endRun_tap (s : State) : (endRun s).tap = s.tap := by
  unfold endRun; split <;> rfl
@[simp] theorem endRun_responses (s : State) : (endRun s).responses = s.responses := by
  unfold endRun; split <;> rfl
@[simp] theorem endRun_host (s : State) : (endRun s).host = s.host := by
  unfold endRun; split <;> rfl
@[simp] theorem endRun_runEnded (s : State) : (endRun s).runEnded = true := by
  unfold endRun; split <;> rfl
@[simp] theorem endRun_released (s : State) : (endRun s).released = s.released := by
  unfold endRun; split <;> rfl

/-! ## Recording the end of a run -/

@[simp] theorem recordEnd_params (s : State) : (recordEnd s).params = s.params := by
  unfold recordEnd; split <;> simp
@[simp] theorem recordEnd_env (s : State) : (recordEnd s).env = s.env := by
  unfold recordEnd; split <;> simp
@[simp] theorem recordEnd_mode (s : State) : (recordEnd s).mode = s.mode := by
  unfold recordEnd; split <;> simp
@[simp] theorem recordEnd_faultCause (s : State) : (recordEnd s).faultCause = s.faultCause := by
  unfold recordEnd; split <;> simp
@[simp] theorem recordEnd_opb (s : State) : (recordEnd s).opb = s.opb := by
  unfold recordEnd; split <;> simp
@[simp] theorem recordEnd_rrq (s : State) : (recordEnd s).rrq = s.rrq := by
  unfold recordEnd; split <;> simp
@[simp] theorem recordEnd_nextId (s : State) : (recordEnd s).nextId = s.nextId := by
  unfold recordEnd; split <;> simp
@[simp] theorem recordEnd_syncCap (s : State) : (recordEnd s).syncCap = s.syncCap := by
  unfold recordEnd; split <;> simp
@[simp] theorem recordEnd_input (s : State) : (recordEnd s).input = s.input := by
  unfold recordEnd; split <;> simp
@[simp] theorem recordEnd_cmdIdx (s : State) : (recordEnd s).cmdIdx = s.cmdIdx := by
  unfold recordEnd; split <;> simp
@[simp] theorem recordEnd_trace (s : State) : (recordEnd s).trace = s.trace := by
  unfold recordEnd; split <;> simp
@[simp] theorem recordEnd_tap (s : State) : (recordEnd s).tap = s.tap := by
  unfold recordEnd; split <;> simp
@[simp] theorem recordEnd_responses (s : State) : (recordEnd s).responses = s.responses := by
  unfold recordEnd; split <;> simp
@[simp] theorem recordEnd_host (s : State) : (recordEnd s).host = s.host := by
  unfold recordEnd; split <;> simp
@[simp] theorem recordEnd_released (s : State) : (recordEnd s).released = s.released := by
  unfold recordEnd; split <;> simp

/-! ## Teardown -/

@[simp] theorem teardown_params (s : State) : (teardown s).params = s.params := by
  simp [teardown]
@[simp] theorem teardown_env (s : State) : (teardown s).env = s.env := by
  simp [teardown]
@[simp] theorem teardown_mode (s : State) : (teardown s).mode = s.mode := by
  simp [teardown]
@[simp] theorem teardown_faultCause (s : State) : (teardown s).faultCause = s.faultCause := by
  simp [teardown]
@[simp] theorem teardown_opb (s : State) : (teardown s).opb = [] := by
  simp [teardown]
@[simp] theorem teardown_rrq (s : State) : (teardown s).rrq = [] := by
  simp [teardown]
@[simp] theorem teardown_nextId (s : State) : (teardown s).nextId = s.nextId := by
  simp [teardown]
@[simp] theorem teardown_syncCap (s : State) : (teardown s).syncCap = s.syncCap := by
  simp [teardown]
@[simp] theorem teardown_input (s : State) : (teardown s).input = s.input := by
  simp [teardown]
@[simp] theorem teardown_cmdIdx (s : State) : (teardown s).cmdIdx = s.cmdIdx := by
  simp [teardown]
@[simp] theorem teardown_trace (s : State) : (teardown s).trace = s.trace := by
  simp [teardown]
@[simp] theorem teardown_tap (s : State) : (teardown s).tap = s.tap := by
  simp [teardown]
@[simp] theorem teardown_ofaults (s : State) : (teardown s).ofaults = (recordEnd s).ofaults := by
  simp [teardown]
@[simp] theorem teardown_responses (s : State) : (teardown s).responses = s.responses := by
  simp [teardown]
@[simp] theorem teardown_host (s : State) : (teardown s).host = s.host := by
  simp [teardown]
@[simp] theorem teardown_runEnded (s : State) : (teardown s).runEnded = (recordEnd s).runEnded := by
  simp [teardown]
@[simp] theorem teardown_released (s : State) : (teardown s).released = true := by
  simp [teardown]

end Sys2Proof.Machine.Ops
end

