-- ==== Sys2Proof/Laws/Tap.lean ====
section
/-! SUPPORT. Laws of the TAP walk on sets of states (40_tap_traversal.md R112). -/

namespace Sys2Proof

theorem TapState.mem_all (s : TapState) : s ∈ TapState.all := by cases s <;> decide

/-- The image of a set under one edge. -/
theorem mem_walkStep (tap : List TapState) (m : Bool) (t : TapState) :
    t ∈ walkStep tap m ↔ ∃ s ∈ tap, s.next m = t := by
  simp [walkStep, TapState.mem_all]

@[simp] theorem walk_nil (tap : List TapState) : walk tap [] = tap := rfl

@[simp] theorem walk_cons (tap : List TapState) (m : Bool) (ms : List Bool) :
    walk tap (m :: ms) = walk (walkStep tap m) ms := rfl

theorem walk_append (tap : List TapState) (a b : List Bool) : walk tap (a ++ b) = walk (walk tap a) b := by
  induction a generalizing tap with
  | nil => rfl
  | cons m ms ih => exact ih _

/-- The image depends on the members alone. -/
theorem walkStep_congr {a b : List TapState} (h : ∀ t, t ∈ a ↔ t ∈ b) (m : Bool) : walkStep a m = walkStep b m := by
  unfold walkStep
  apply List.filter_congr
  intro t _
  rw [Bool.eq_iff_iff]
  simp [h]

theorem walkStep_ne_nil {tap : List TapState} (h : tap ≠ []) (m : Bool) : walkStep tap m ≠ [] := by
  obtain ⟨s, hs⟩ := List.exists_mem_of_ne_nil tap h
  exact List.ne_nil_of_mem ((mem_walkStep _ _ _).mpr ⟨s, hs, rfl⟩)

theorem walk_ne_nil {tap : List TapState} (h : tap ≠ []) (ms : List Bool) : walk tap ms ≠ [] := by
  induction ms generalizing tap with
  | nil => exact h
  | cons m ms ih => exact ih (walkStep_ne_nil h m)

/-- A set in canonical form: the sublist of `TapState.all` of its members. -/
theorem walkStep_canonical (tap : List TapState) (m : Bool) :
    walkStep tap m = TapState.all.filter fun t => decide (t ∈ walkStep tap m) := by
  conv_lhs => unfold walkStep
  apply List.filter_congr
  intro t _
  rw [Bool.eq_iff_iff]
  simp [mem_walkStep]

theorem walk_canonical {tap : List TapState} (h : tap = TapState.all.filter fun t => decide (t ∈ tap))
    (ms : List Bool) : walk tap ms = TapState.all.filter fun t => decide (t ∈ walk tap ms) := by
  induction ms generalizing tap with
  | nil => exact h
  | cons m ms ih => exact ih (walkStep_canonical tap m)

theorem mem_walk_mono {a b : List TapState} (h : ∀ t ∈ a, t ∈ b) (ms : List Bool) :
    ∀ t ∈ walk a ms, t ∈ walk b ms := by
  induction ms generalizing a b with
  | nil => exact h
  | cons m ms ih =>
    apply ih
    intro t ht
    rw [mem_walkStep] at ht ⊢
    obtain ⟨s, hs, e⟩ := ht
    exact ⟨s, h s hs, e⟩

end Sys2Proof
end

