-- ==== Sys2Proof/Laws/Ops.lean ====
section
/-! SUPPORT. One spec lemma per shared operation: everything it can do. The provers cite these and unfold none of the
operations. -/

namespace Sys2Proof.Machine.Ops

/-! ## The frame of a command -/

/-- A command in FAULTED mode (R227). -/
theorem runCommand_faulted (body : State → State) (s : State) (h : s.mode = .faulted) :
    runCommand body s = { respond s.faultCause [] s with cmdIdx := s.cmdIdx + 1 } := by
  simp [runCommand, h]

/-- A command in RUN. -/
theorem runCommand_run (body : State → State) (s : State) (h : s.mode = .run) :
    runCommand body s = { body s with cmdIdx := (body s).cmdIdx + 1 } := by
  simp [runCommand, h]

/-- COUNT 0 in RUN (R224). -/
theorem runCounted_zero (body : State → State) (s : State) (h : s.mode = .run) :
    runCounted 0 body s = { raiseFault .invalidArgument s with cmdIdx := s.cmdIdx + 1 } := by
  simp [runCounted, runCommand_run _ _ h, raiseFault]

theorem runCounted_pos (n : Nat) (body : State → State) (s : State) (h : s.mode = .run) (hn : 1 ≤ n) :
    runCounted n body s = { body s with cmdIdx := (body s).cmdIdx + 1 } := by
  have h0 : n ≠ 0 := by omega
  simp [runCounted, runCommand_run _ _ h, h0]

theorem runCounted_faulted (n : Nat) (body : State → State) (s : State) (h : s.mode = .faulted) :
    runCounted n body s = { respond s.faultCause [] s with cmdIdx := s.cmdIdx + 1 } := by
  simp [runCounted, runCommand_faulted _ _ h]

/-- Taking a fault in RUN (R226). -/
theorem raiseFault_run (code : Status) (s : State) (h : s.mode = .run) :
    raiseFault code s =
      { s with mode := .faulted, faultCause := code, responses := s.responses ++ [⟨code, []⟩] } := by
  simp [raiseFault, enterFaulted, respond, h]

/-! ## Emission -/

@[simp] theorem emitAll_nil (s : State) : emitAll [] s = s := by simp [emitAll]

/-- Emitting two lists one after the other is emitting their concatenation (R113). -/
theorem emitAll_append (ps qs : List Prim) (s : State) : emitAll (ps ++ qs) s = emitAll qs (emitAll ps s) := by
  simp [emitAll, walk_append]

/-! ## Routing and clocking -/

@[simp] theorem route_none (bits : List Bool) (s : State) : route .none bits s = s := rfl

@[simp] theorem route_sync (bits : List Bool) (s : State) :
    route .sync bits s = { s with syncCap := s.syncCap ++ bits } := rfl

/-- Routing keeps every entry's id, length and kind. -/
theorem map_route_rrq {α : Type} (f : Entry → α) (hf : ∀ bits e, f (Entry.receive bits e) = f e) (own : Owner)
    (bits : List Bool) (s : State) : (route own bits s).rrq.map f = s.rrq.map f := by
  cases own with
  | none => rfl
  | sync => rfl
  | entry k =>
    simp only [route, List.map_map]
    apply List.map_congr_left
    intro e _
    by_cases h : e.id = k <;> simp [h, hf]

@[simp] theorem clockAll_nil (s : State) : clockAll [] s = s := rfl

@[simp] theorem clockAll_cons (p : Prim) (ps : List Prim) (s : State) :
    clockAll (p :: ps) s = clockAll ps (clock p s) := rfl

theorem clockAll_append (ps qs : List Prim) (s : State) : clockAll (ps ++ qs) s = clockAll qs (clockAll ps s) :=
  List.foldl_append

/-- What a delivery leaves alone: everything but `trace`, `rrq` and `sync_cap` (R59). -/
theorem clockAll_frame (ps : List Prim) (s : State) :
    clockAll ps s =
      { s with trace := (clockAll ps s).trace, rrq := (clockAll ps s).rrq, syncCap := (clockAll ps s).syncCap } := by
  induction ps generalizing s with
  | nil => rfl
  | cons p ps ih =>
    have h : clock p s =
        { s with trace := (clock p s).trace, rrq := (clock p s).rrq, syncCap := (clock p s).syncCap } := by
      rcases p with ⟨k, l, t, d, o⟩
      cases o <;> rfl
    rw [clockAll_cons, ih (clock p s)]
    rw [h]

/-- The edges of a delivery appear in order at the end of the trace (R59, R60). -/
theorem clockAll_trace (ps : List Prim) (s : State) :
    (clockAll ps s).trace = s.trace ++ sampledNow (edgesOf ps) s := by
  induction ps generalizing s with
  | nil => simp [sampledNow]
  | cons p ps ih =>
    rw [clockAll_cons, ih]
    simp [sampledNow, sampleEdges_append]

/-- A delivery keeps every entry's id, length and kind. -/
theorem map_clockAll_rrq {α : Type} (f : Entry → α) (hf : ∀ bits e, f (Entry.receive bits e) = f e) (ps : List Prim)
    (s : State) : (clockAll ps s).rrq.map f = s.rrq.map f := by
  induction ps generalizing s with
  | nil => rfl
  | cons p ps ih =>
    rw [clockAll_cons, ih]
    exact map_route_rrq f hf _ _ _

/-! ## Delivery -/

@[simp] theorem lose_id (e : Entry) : (Entry.lose e).id = e.id := rfl
@[simp] theorem lose_n (e : Entry) : (Entry.lose e).n = e.n := rfl
@[simp] theorem lose_kind (e : Entry) : (Entry.lose e).kind = e.kind := rfl
@[simp] theorem lose_cap (e : Entry) : (Entry.lose e).cap = e.cap := rfl
@[simp] theorem lose_undelivered (e : Entry) : (Entry.lose e).undelivered = 0 := rfl

/-- A failed delivery keeps every entry's id, length, kind and captured bits. -/
theorem map_failDelivery_rrq {α : Type} (f : Entry → α) (hf : ∀ e, f (Entry.lose e) = f e) (ps : List Prim) (m : Nat)
    (s : State) : (failDelivery ps m s).rrq.map f = s.rrq.map f := by
  simp [hf]

/-- A forced delivery with nothing buffered is none (R59). -/
theorem forceDelivery_empty (after : State → State) (s : State) (h : s.opb = []) :
    forceDelivery after s = after s := by
  simp [forceDelivery, h]

/-- A forced delivery that does not fail (R58, R59). -/
theorem forceDelivery_ok (after : State → State) (s : State) (h : s.env.transportOk = true) :
    forceDelivery after s = after (clockAll s.opb { s with opb := [] }) := by
  unfold forceDelivery
  split
  · next e =>
    have hs : { s with opb := [] } = s := by rw [← e]
    rw [hs, e, clockAll_nil]
  · next p ps e => simp [nextFailure, drawFailure, h, e]

/-- A forced delivery that fails (R231). -/
theorem forceDelivery_fails (after : State → State) (s : State) (m : Nat) (h : s.env.transportOk = false)
    (hf : s.env.failure = some m) (hne : s.opb ≠ []) :
    forceDelivery after s = respond .transportFailure [] (failDelivery s.opb m (drawFailure s)) := by
  unfold forceDelivery
  split
  · next e => exact absurd e hne
  · next p ps e => simp [nextFailure, h, hf, e]

/-- Everything a forced delivery can do. -/
theorem forceDelivery_cases (after : State → State) (s : State) :
    (s.opb = [] ∧ forceDelivery after s = after s) ∨
    (s.opb ≠ [] ∧ nextFailure s = none ∧
      forceDelivery after s = after (clockAll s.opb { drawFailure s with opb := [] })) ∨
    (∃ m, s.opb ≠ [] ∧ nextFailure s = some m ∧
      forceDelivery after s = respond .transportFailure [] (failDelivery s.opb m (drawFailure s))) := by
  unfold forceDelivery
  split
  · next e => exact .inl ⟨e, rfl⟩
  · next p ps e =>
    split
    · next h => exact .inr (.inl ⟨by simp [e], h, by rw [e]⟩)
    · next m h => exact .inr (.inr ⟨m, by simp [e], h, by rw [e]⟩)

/-! ## The queue -/

/-- A refused queue command (42_queue.md R181). -/
theorem enqueue_full (n : Nat) (kind : EntryKind) (prims : Owner → List Prim) (s : State)
    (h : s.params.rrqDepth ≤ s.rrq.length) : enqueue n kind prims s = respond .queueFull [] s := by
  simp [enqueue, h]

/-- An accepted queue command (42_queue.md R182). -/
theorem enqueue_accepted (n : Nat) (kind : EntryKind) (prims : Owner → List Prim) (s : State)
    (h : s.rrq.length < s.params.rrqDepth) :
    enqueue n kind prims s =
      respond .ok [] (emitAll (prims (.entry s.nextId))
        { checkShift s with
          rrq := s.rrq ++ [⟨s.nextId, n, kind, [], (prims (.entry s.nextId)).length⟩], nextId := s.nextId + 1 }) := by
  have h' : ¬ s.params.rrqDepth ≤ s.rrq.length := by omega
  simp [enqueue, h']

/-- Popping the head (42_queue.md R190). -/
theorem retire_cons (n : Nat) (s : State) (e : Entry) (rest : List Entry) (h : s.rrq = e :: rest) :
    retire n s = { s with rrq := rest, responses := s.responses ++ [⟨.ok, e.cap.take n⟩] } := by
  simp [retire, h, respond]

/-! ## The end of a run -/

/-- Where R64 puts the end of a run. -/
theorem atRunEnd_iff (s : State) : s.atRunEnd = true ↔ s.host ≠ .issuing ∧ s.input = [] ∧ s.opb = [] := by
  simp [State.atRunEnd, and_assoc]

/-- Recording the end of a run (42_queue.md R194). -/
theorem endRun_eq (s : State) :
    endRun s = { s with
      runEnded := true
      ofaults := if s.rrq = [] then s.ofaults else s.ofaults ++ [.unretrieved s.rrq.length] } := by
  unfold endRun
  split <;> simp [*]

/-- It is recorded where R64 puts it, and once. -/
theorem recordEnd_eq (s : State) :
    recordEnd s = if s.atRunEnd = true ∧ s.runEnded = false then endRun s else s := by
  simp [recordEnd]

/-- What is recorded stays recorded as it is. -/
theorem recordEnd_of_ended (s : State) (h : s.runEnded = true) : recordEnd s = s := by simp [recordEnd, h]

/-- Recording changes the record of the run alone. -/
theorem recordEnd_frame (s : State) :
    recordEnd s = { s with runEnded := (recordEnd s).runEnded, ofaults := (recordEnd s).ofaults } := by
  rw [recordEnd_eq]
  split
  · rw [endRun_eq]
  · rfl

/-- Holding draws a turn and records the end of the run where it has come (10_state.md R28, 20_memory.md R64). -/
theorem hold_eq (s : State) : hold s = recordEnd (drawTurn s) := rfl

/-- Teardown (70_reset_and_hazards.md R253). -/
theorem teardown_eq (s : State) :
    teardown s = { s with
      opb := [], rrq := [], released := true
      runEnded := (recordEnd s).runEnded, ofaults := (recordEnd s).ofaults } := by
  unfold teardown
  rw [recordEnd_frame s]

/-! ## Turns -/

/-- Drawing a turn changes the turn and its counter alone. -/
theorem drawTurn_env (s : State) :
    (drawTurn s).env = { s.env with turn := (drawTurn s).env.turn, turnDraws := (drawTurn s).env.turnDraws } := by
  unfold drawTurn; split <;> rfl

@[simp] theorem drawTurn_transportOk (s : State) : (drawTurn s).env.transportOk = s.env.transportOk := by
  rw [drawTurn_env]

@[simp] theorem drawTurn_oracle (s : State) : (drawTurn s).env.oracle = s.env.oracle := by rw [drawTurn_env]

@[simp] theorem drawTurn_failure (s : State) : (drawTurn s).env.failure = s.env.failure := by rw [drawTurn_env]

/-- Drawing a delivery's outcome changes the outcome and its counter alone. -/
theorem drawFailure_env (s : State) :
    (drawFailure s).env =
      { s.env with failure := (drawFailure s).env.failure, failDraws := (drawFailure s).env.failDraws } := by
  unfold drawFailure; split <;> rfl

/-- Drawing a delivery's outcome leaves the oracle alone. -/
@[simp] theorem drawFailure_oracle (s : State) : (drawFailure s).env.oracle = s.env.oracle := by
  unfold drawFailure; split <;> rfl

@[simp] theorem drawFailure_transportOk (s : State) : (drawFailure s).env.transportOk = s.env.transportOk := by
  unfold drawFailure; split <;> rfl

/-- Under TRANSPORT_OK nothing is drawn. -/
theorem drawFailure_ok (s : State) (h : s.env.transportOk = true) : drawFailure s = s := by
  simp [drawFailure, h]

end Sys2Proof.Machine.Ops
end

