-- ==== Sys2Proof/Laws/PerInstr.lean ====
section
/-! SUPPORT. Statements about every instruction as syntax, one lemma per constructor. -/

namespace Sys2Proof.Laws.EncodedLength

/-- A well-formed command has the 4 bytes of its word and at most the payload of the largest COUNT (30_encoding.md
R76); a primitive's record carries a KIND code that stands for it (R86). -/
def Statement (i : Instr) : Prop :=
  ∀ c : Params, i.wellFormed c = true →
    match i.toPrim with
    | none => 4 ≤ i.bytes.length ∧ i.bytes.length ≤ 4 + byteCount Config.countMax
    | some p => i.bytes = [] ∧ PrimKind.ofCode p.kind.code = some p.kind ∧ Instr.ofPrim p = i

theorem payload_bound {n : Nat} {data : List Byte} (h : payloadFits n data = true) :
    data.length ≤ byteCount Config.countMax := by
  simp only [payloadFits, countFits, Bool.and_eq_true, decide_eq_true_eq] at h
  rw [h.2]
  unfold byteCount
  omega

theorem changeMode (l : Nat) (t : Bool) (payload : List Byte) : Statement (.changeMode l t payload) := by
  intro c h
  have := payload_bound h
  simp [Instr.toPrim, Instr.bytes, wordBytes]
  omega

theorem readData (n : Nat) : Statement (.readData n) := by
  intro c _
  simp [Instr.toPrim, Instr.bytes, wordBytes]

theorem writeData (n : Nat) (p : Bool) (data : List Byte) : Statement (.writeData n p data) := by
  intro c h
  have := payload_bound h
  simp [Instr.toPrim, Instr.bytes, wordBytes]
  omega

theorem readWriteData (n : Nat) (p : Bool) (data : List Byte) : Statement (.readWriteData n p data) := by
  intro c h
  have := payload_bound h
  simp [Instr.toPrim, Instr.bytes, wordBytes]
  omega

theorem flush : Statement .flush := by
  intro c _
  simp [Instr.toPrim, Instr.bytes, wordBytes]

theorem queueRead (n : Nat) : Statement (.queueRead n) := by
  intro c _
  simp [Instr.toPrim, Instr.bytes, wordBytes]

theorem queueReadWrite (n : Nat) (p : Bool) (data : List Byte) : Statement (.queueReadWrite n p data) := by
  intro c h
  have := payload_bound h
  simp [Instr.toPrim, Instr.bytes, wordBytes]
  omega

theorem finishRead (n : Nat) : Statement (.finishRead n) := by
  intro c _
  simp [Instr.toPrim, Instr.bytes, wordBytes]

theorem primTmsOut (b : PrimBody) : Statement (.primTmsOut b) := fun _ _ => ⟨rfl, rfl, rfl⟩

theorem primTmsIo (b : PrimBody) : Statement (.primTmsIo b) := fun _ _ => ⟨rfl, rfl, rfl⟩

theorem primBytesOut (b : PrimBody) : Statement (.primBytesOut b) := fun _ _ => ⟨rfl, rfl, rfl⟩

theorem primBytesIn (b : PrimBody) : Statement (.primBytesIn b) := fun _ _ => ⟨rfl, rfl, rfl⟩

theorem primBytesIo (b : PrimBody) : Statement (.primBytesIo b) := fun _ _ => ⟨rfl, rfl, rfl⟩

theorem primBitsOut (b : PrimBody) : Statement (.primBitsOut b) := fun _ _ => ⟨rfl, rfl, rfl⟩

theorem primBitsIn (b : PrimBody) : Statement (.primBitsIn b) := fun _ _ => ⟨rfl, rfl, rfl⟩

theorem primBitsIo (b : PrimBody) : Statement (.primBitsIo b) := fun _ _ => ⟨rfl, rfl, rfl⟩

end Sys2Proof.Laws.EncodedLength
end

