-- ==== Sys2Proof/Tests/Slice0.lean ====
section
/-! SUPPORT. The model's own tests: ill-formed terms refused, words written out from the spec decoded, small steps with
results from 95_test_vectors.md, and a witness for the hypotheses of every statement. -/

namespace Sys2Proof.Tests
open Sys2Proof Sys2Proof.Machine

/-! ## Small states -/

/-- The environment of the vectors: the lazy schedule and a named oracle (95_test_vectors.md, conventions). -/
def env (o : TdoOracle) : Env := ⟨true, none, 0, o, 0xFF, .lazy, .sequencer, 0⟩

/-- Reset with the vectors' configuration, `RRQ_DEPTH = 2`, and a known `tap`. -/
def start (tap : List TapState) (o : TdoOracle) : State :=
  { State.resetWith ⟨7, 65536, 2, 0⟩ (env o) true with tap := tap }

/-- The next state of an answer, if it gives one. -/
def nextOf : Result → Option State
  | .next t => some t
  | .fault _ => none
  | .refused _ => none

/-- The state after an instruction. -/
def after (i : Instr) (s : State) : State := (nextOf (exec i s)).getD s

/-- Responses, then the trace as (tms, tdi, tdo), then `tap`. -/
def seen (s : State) : List (Byte × List Byte) × List (Bool × Bool × Option Bool) × List TapState :=
  (s.responses.map fun r => (r.status.code, pack r.bits), s.trace.map fun e => (e.tms, e.tdi, e.tdo), s.tap)

def shDR : State := start [.shiftDR] .loopback
def shIR : State := start [.shiftIR] .loopback
/-- One queued read of 8 bits, not delivered. -/
def queued : State := after (.queueRead 8) shDR
/-- The same, complete. -/
def complete : State := after .flush queued
/-- A full queue. -/
def full : State := after (.queueRead 3) queued
/-- FAULTED with 0x12. -/
def faulted : State := after (.finishRead 1) shDR
/-- A failing transport: the next delivery fails after 3 edges. -/
def failing (s : State) : State := { s with env := { s.env with transportOk := false, failure := some 3 } }
/-- The Transport is to deliver one primitive. -/
def transporting (s : State) : State := { s with env := { s.env with turn := .transport 0 } }

/-! ## Ill-formed terms are refused -/

def limits : Params := ⟨7, 4, 2, 0⟩

theorem test_wf_count : (Instr.readData (Config.countMax + 1)).wellFormed limits = false := by decide
theorem test_wf_count_finish : (Instr.finishRead (Config.countMax + 1)).wellFormed limits = false := by decide
theorem test_wf_count_queue : (Instr.queueRead (Config.countMax + 1)).wellFormed limits = false := by decide
theorem test_wf_payload_short : (Instr.writeData 9 false [0xFF]).wellFormed limits = false := by decide
theorem test_wf_payload_long : (Instr.changeMode 8 false [0xFF, 0]).wellFormed limits = false := by decide
theorem test_wf_payload_rw : (Instr.readWriteData 1 true []).wellFormed limits = false := by decide
theorem test_wf_payload_queue : (Instr.queueReadWrite 0 true [0]).wellFormed limits = false := by decide
theorem test_wf_tms_len_zero : (Instr.primTmsOut ⟨0, false, [], .none⟩).wellFormed limits = false := by decide
theorem test_wf_tms_len_over : (Instr.primTmsOut ⟨8, false, [0], .none⟩).wellFormed limits = false := by decide
theorem test_wf_tms_unused_bits : (Instr.primTmsOut ⟨3, false, [0x0F], .none⟩).wellFormed limits = false := by decide
theorem test_wf_tms_owner : (Instr.primTmsOut ⟨3, false, [0x07], .sync⟩).wellFormed limits = false := by decide
theorem test_wf_tms_io_owner : (Instr.primTmsIo ⟨1, false, [0x01], .none⟩).wellFormed limits = false := by decide
theorem test_wf_bytes_len : (Instr.primBytesOut ⟨5, false, [1, 2, 3, 4, 5], .none⟩).wellFormed limits = false := by
  decide
theorem test_wf_bytes_data : (Instr.primBytesIo ⟨2, false, [1], .sync⟩).wellFormed limits = false := by decide
theorem test_wf_bytes_tdi : (Instr.primBytesOut ⟨1, true, [1], .none⟩).wellFormed limits = false := by decide
theorem test_wf_bytes_in_data : (Instr.primBytesIn ⟨1, true, [1], .sync⟩).wellFormed limits = false := by decide
theorem test_wf_bytes_in_tdi : (Instr.primBytesIn ⟨1, false, [], .sync⟩).wellFormed limits = false := by decide
theorem test_wf_bits_len : (Instr.primBitsOut ⟨8, false, [0xFF], .none⟩).wellFormed limits = false := by decide
theorem test_wf_bits_unused : (Instr.primBitsIo ⟨3, false, [0x08], .sync⟩).wellFormed limits = false := by decide
theorem test_wf_bits_in_tdi : (Instr.primBitsIn ⟨3, false, [], .sync⟩).wellFormed limits = false := by decide
theorem test_wf_accepts :
    (Instr.changeMode 9 true [0xFF, 1]).wellFormed limits = true ∧
    (Instr.readData Config.countMax).wellFormed limits = true ∧
    (Instr.primTmsIo ⟨2, true, [0x01], .entry 3⟩).wellFormed limits = true ∧
    (Instr.primBytesIo ⟨2, false, [1, 2], .sync⟩).wellFormed limits = true ∧
    (Instr.primBitsIo ⟨3, false, [0x07], .sync⟩).wellFormed limits = true := by decide

/-! ## Words written out from 30_encoding.md R70 and R72 -/

/-- OPC 0001, P 0, T 1, RSV 00, COUNT 3. -/
theorem test_decode_change_mode :
    decode [0b00000011, 0, 0, 0b00010100, 0x06] = .command (.changeMode 3 true [0x06]) [] := by decide
/-- OPC 0010, COUNT 0x01020C: the three count bytes least significant first. -/
theorem test_decode_read_data : decode [0x0C, 0x02, 0x01, 0b00100000] = .command (.readData 0x01020C) [] := by decide
/-- OPC 0011, P 1. -/
theorem test_decode_write_data :
    decode [8, 0, 0, 0b00111000, 0xAB, 0xCD] = .command (.writeData 8 true [0xAB]) [0xCD] := by decide
/-- OPC 0100, P 0. -/
theorem test_decode_read_write_data :
    decode [12, 0, 0, 0b01000000, 0x34, 0x12] = .command (.readWriteData 12 false [0x34, 0x12]) [] := by decide
/-- OPC 0101. -/
theorem test_decode_flush : decode [0, 0, 0, 0b01010000] = .command .flush [] := by decide
/-- OPC 0110. -/
theorem test_decode_queue_read : decode [8, 0, 0, 0b01100000] = .command (.queueRead 8) [] := by decide
/-- OPC 0111, P 1. -/
theorem test_decode_queue_read_write :
    decode [1, 0, 0, 0b01111000, 0xFF] = .command (.queueReadWrite 1 true [0xFF]) [] := by decide
/-- OPC 1000. -/
theorem test_decode_finish_read : decode [16, 0, 0, 0b10000000] = .command (.finishRead 16) [] := by decide
/-- COUNT 0 has no payload (R224). -/
theorem test_decode_count_zero : decode [0, 0, 0, 0x30, 0xAA] = .command (.writeData 0 false []) [0xAA] := by decide
/-- 95_test_vectors.md L2-E-1, L2-E-2. -/
theorem test_decode_reserved_opcode :
    decode [0, 0, 0, 0] = .illegal .reservedOpcode [] ∧ decode [5, 0, 0, 0x90] = .illegal .reservedOpcode [] := by decide
/-- L2-CM-15, L2-CM-14, L2-WR-10, L2-F-2. -/
theorem test_decode_illegal_fields :
    decode [1, 0, 0, 0x11] = .illegal .reservedBits [] ∧ decode [3, 0, 0, 0x18] = .illegal .pauseUnused [] ∧
    decode [8, 0, 0, 0x34] = .illegal .tdiUnused [] ∧ decode [1, 0, 0, 0x50] = .illegal .flushCount [] := by decide
theorem test_decode_short : decode [9, 0, 0, 0x30, 0xFF] = .incomplete ∧ decode [9, 0, 0] = .incomplete := by decide
/-- KIND codes of R86 as table words. -/
theorem test_decode_kinds :
    [1, 2, 3, 4, 5, 6, 7, 8].map (decodeTableWord 8) =
      [some (.primTmsOut tableRecord), some (.primTmsIo tableRecord), some (.primBytesOut tableRecord),
       some (.primBytesIn tableRecord), some (.primBytesIo tableRecord), some (.primBitsOut tableRecord),
       some (.primBitsIn tableRecord), some (.primBitsIo tableRecord)] ∧
    decodeTableWord 8 0 = none ∧ decodeTableWord 8 9 = none := by decide
theorem test_table_words :
    [0x10000000, 0x20000000, 0x30000000, 0x40000000].map (decodeTableWord 32) =
      [some (.changeMode 0 false []), some (.readData 0), some (.writeData 0 false []),
       some (.readWriteData 0 false [])] ∧
    [0x50000000, 0x60000000, 0x70000000, 0x80000000, 0x90000000].map (decodeTableWord 32) =
      [some .flush, some (.queueRead 0), some (.queueReadWrite 0 false []), some (.finishRead 0), none] := by decide
theorem test_fetch_word_command :
    nextOf (step (State.reset.withFetchWord 32 0x10000000)) =
      nextOf (exec (.changeMode 0 false []) (Ops.fetched [] (State.reset.withFetchWord 32 0x10000000))) := rfl
theorem test_fetch_word_primitive : (nextOf (step (State.reset.withFetchWord 8 7))).isSome = true := rfl
/-- R83: the textual calls. -/
theorem test_call_text : (HostCall.writeData [0x34, 0x12] 4 false).text = "write_data([52,18], 4, false)" := by decide

/-! ## Steps, with results from 95_test_vectors.md -/

/-- L2-CM-6: eight TMS bits in chunks of 7 and 1. -/
theorem test_change_mode_chunks :
    (after (.changeMode 8 false [0x5F]) (start TapState.all .loopback)).opb =
      [⟨.tmsOut, 7, false, [0x5F], .none⟩, ⟨.tmsOut, 1, false, [0x00], .none⟩] ∧
    (after (.changeMode 8 false [0x5F]) (start TapState.all .loopback)).tap = [.captureDR] := by decide
/-- L2-CM-3. -/
theorem test_change_mode_four_ones :
    (after (.changeMode 4 false [0x0F]) (start TapState.all .loopback)).tap = [.testLogicReset, .selectIR] := by decide
/-- L2-RD-8: STREAM([A5, 3C]). -/
theorem test_read_data_stream :
    (after (.readData 12) (start [.shiftDR] (.stream [0xA5, 0x3C]))).responses.map (fun r => (r.status.code, pack r.bits)) =
      [(0x00, [0xA5, 0x0C])] := by decide
/-- L2-RD-12: outside Shift. -/
theorem test_read_data_outside_shift :
    (after (.readData 8) (start TapState.all (.constant false))).ofaults = [.notInShift 0] ∧
    (after (.readData 8) (start TapState.all (.constant false))).tap =
      [.runTestIdle, .shiftDR, .pauseDR, .shiftIR, .pauseIR] := by decide
/-- L2-WR-4 and L2-WR-11: the primitives, none delivered, `tap` ahead of them. -/
theorem test_write_data_pause :
    (after (.writeData 8 true [0xAB]) shIR).opb =
      [⟨.bitsOut, 7, false, [0x2B], .none⟩, ⟨.tmsOut, 2, true, [0x01], .none⟩] ∧
    (after (.writeData 8 true [0xAB]) shIR).trace = [] ∧
    (after (.writeData 8 true [0xAB]) shIR).tap = [.pauseIR] := by decide
/-- L2-WR-5: no BITS_OUT when one bit is left. -/
theorem test_write_data_nine :
    (after (.writeData 9 false [0xFF, 0x01]) shDR).opb =
      [⟨.bytesOut, 1, false, [0xFF], .none⟩, ⟨.tmsOut, 1, true, [0x01], .none⟩] := by decide
/-- L2-RW-1. -/
theorem test_read_write_loop :
    seen (after (.readWriteData 12 false [0x34, 0x12]) shDR) =
      ([(0x00, [0x34, 0x02])],
       [(false, false, some false), (false, false, some false), (false, true, some true), (false, false, some false),
        (false, true, some true), (false, true, some true), (false, false, some false), (false, false, some false),
        (false, false, some false), (false, true, some true), (false, false, some false), (true, false, some false)],
       [.exit1DR]) := by decide
/-- L2-RW-4: the bit of the pause edge is dropped. -/
theorem test_read_write_drops_pause_bit :
    seen (after (.readWriteData 1 true [0x01]) (start [.shiftDR] (.stream [0x02]))) =
      ([(0x00, [0x00])], [(true, true, some false), (false, true, some true)], [.pauseDR]) := by decide
/-- L2-F-1. -/
theorem test_flush_empty :
    (after .flush shDR).responses = [⟨.ok, []⟩] ∧ (after .flush shDR).cmdIdx = 1 ∧ (after .flush shDR).trace = [] := by
  decide
/-- L2-Q-1: FLUSH completes the entry and frees no capacity. -/
theorem test_flush_completes :
    complete.rrq.map (fun e => (e.n, e.cap.length, e.undelivered)) = [(8, 8, 0)] ∧ complete.opb = [] := by decide
/-- R185's example. -/
theorem test_queue_read : queued.rrq = [⟨0, 8, .read, [], 1⟩] ∧ queued.nextId = 1 := by decide
/-- L2-Q-9: a full queue refuses without the caller-contract check. -/
theorem test_queue_full :
    (after (.queueRead 8) { full with tap := TapState.all }).ofaults = [] ∧
    (after (.queueRead 8) { full with tap := TapState.all }).responses.getLast? = some ⟨.queueFull, []⟩ := by decide
/-- R186's example. -/
theorem test_queue_read_write :
    (after (.queueReadWrite 12 false [0x34, 0x12]) shDR).rrq = [⟨0, 12, .readWrite, [], 3⟩] := by decide
/-- L2-Q-7: `cap` has 9 bits, the result the first 8. -/
theorem test_queue_read_write_pause :
    (after .flush (after (.queueReadWrite 8 true [0xAB]) shDR)).rrq.map (fun e => e.cap.length) = [9] ∧
    ((after (.finishRead 8) (after (.queueReadWrite 8 true [0xAB]) shDR)).responses.map fun r => pack r.bits) =
      [[], [0xAB]] := by decide
/-- L2-Q-8: STREAM([5A]), a synchronous read between. -/
theorem test_finish_read_after_sync :
    ((after (.finishRead 4) (after (.readData 4) (after (.queueRead 4) (start [.shiftDR] (.stream [0x5A]))))).responses.map
      fun r => pack r.bits) = [[], [0x05], [0x0A]] := by decide
/-- L2-Q-2 and L2-Q-6. -/
theorem test_finish_read_faults :
    faulted.faultCause.code = 0x12 ∧
    (after (.finishRead 4) (after (.queueReadWrite 12 false [0x34, 0x12]) shDR)).faultCause.code = 0x13 := by decide
/-- R125: TMS_OUT of TMS bits 1, 1, 0 with TDI 1 held. -/
theorem test_prim_tms_out :
    (after (.primTmsOut ⟨3, true, [0x03], .none⟩) shDR).trace =
      [⟨true, true, none⟩, ⟨true, true, none⟩, ⟨false, true, none⟩] := by decide
/-- R126 on ENTRY(0). -/
theorem test_prim_tms_io :
    (after (.primTmsIo ⟨2, true, [0x01], .entry 0⟩) queued).rrq = [⟨0, 8, .read, [true, true], 0⟩] := by decide
/-- R160. -/
theorem test_prim_bytes_out :
    (after (.primBytesOut ⟨1, false, [0x01], .none⟩) shDR).trace.map (fun e => (e.tms, e.tdi, e.tdo)) =
      (false, true, none) :: List.replicate 7 (false, false, none) := by decide
/-- R161 (TDI 1 on every edge). -/
theorem test_prim_bytes_in :
    (after (.primBytesIn ⟨1, true, [], .sync⟩) (start [.shiftDR] (.stream [0x34]))).syncCap = unpack [0x34] 8 ∧
    (after (.primBytesIn ⟨1, true, [], .sync⟩) shDR).trace.all (fun e => e.tdi) = true := by decide
/-- R162. -/
theorem test_prim_bytes_io :
    (after (.primBytesIo ⟨2, false, [0x34, 0x12], .sync⟩) shDR).syncCap = unpack [0x34, 0x12] 16 := by decide
/-- R163. -/
theorem test_prim_bits_out :
    (after (.primBitsOut ⟨2, false, [0x02], .none⟩) shDR).trace = [⟨false, false, none⟩, ⟨false, true, none⟩] := by decide
/-- R164 with the low bits of the raw byte set (93 I15). -/
theorem test_prim_bits_in :
    (after (.primBitsIn ⟨3, true, [], .sync⟩) (start [.shiftDR] (.stream [0x05]))).syncCap = [true, false, true] := by
  decide
/-- R165. -/
theorem test_prim_bits_io :
    (after (.primBitsIo ⟨3, false, [0x02], .sync⟩) shDR).trace =
      [⟨false, false, some false⟩, ⟨false, true, some true⟩, ⟨false, false, some false⟩] := by decide
/-- L2-RAW-1 to L2-RAW-4. -/
theorem test_raw_capture :
    pack (convertRaw .bitsIn 4 [0xF0]) = [0x0F] ∧ pack (convertRaw .bitsIn 3 [0xA7]) = [0x05] ∧
    pack (convertRaw .tmsIo 2 [0x40]) = [0x01] ∧ pack (convertRaw .bytesIn 2 [0x34, 0x12]) = [0x34, 0x12] := by decide
/-- L2-E-4: three edges get through, then the session is FAULTED with 0x14. -/
theorem test_transport_failure :
    (after (.readData 8) (failing (after (.writeData 8 true [0xAB]) shIR))).trace.length = 3 ∧
    (after (.readData 8) (failing (after (.writeData 8 true [0xAB]) shIR))).faultCause.code = 0x14 ∧
    (after (.readData 8) (failing (after (.writeData 8 true [0xAB]) shIR))).tap = TapState.all := by decide
/-- R25 after R231: the entry keeps no primitive in `opb`, and no bit was routed to it. -/
theorem test_transport_failure_entries :
    (after .flush (failing queued)).rrq = [⟨0, 8, .read, [], 0⟩] ∧ (after .flush (failing queued)).opb = [] := by decide
/-- L2-E-3: no adapter bound. -/
theorem test_no_adapter :
    (after .flush (State.resetWith limits (env .loopback) false)).responses.map (fun r => r.status.code) = [0x15] := by
  decide
/-- R80 and R84: the bytes of a response. -/
theorem test_response_bytes :
    (⟨.ok, unpack [0xAB] 8⟩ : Response).bytes = [0x00, 0x08, 0x00, 0x00, 0xAB] ∧
    (⟨.queueFull, []⟩ : Response).bytes = [0x01, 0, 0, 0] := by decide

/-! ## Witnesses: the hypotheses of each statement can be met together -/

theorem test_witness_ResetMeetsInvariant : (⟨1, 1, 1, 0⟩ : Params).valid := by decide
theorem test_inv_shDR : shDR.Inv := by decide
theorem test_inv_queued : queued.Inv := by decide
theorem test_inv_complete : complete.Inv := by decide
theorem test_inv_full : full.Inv := by decide
theorem test_inv_faulted : faulted.Inv := by decide
theorem test_witness_StepKeepsInvariant : queued.Inv ∧ (nextOf (step queued)).isSome = true :=
  ⟨test_inv_queued, by decide⟩
theorem test_witness_StepKeepsTapTracking :
    queued.released = false ∧ queued.host ≠ .releasing ∧
    (after (.changeMode 5 true [0x1F]) (start TapState.all .loopback)).TapTracks ∧
    (nextOf (step queued)).isSome = true := by decide
theorem test_witness_EncodedCommandsDecodeToThemselves :
    (Instr.readData Config.countMax).wellFormed limits = true ∧ (Instr.readData 0).wellFormed limits = true ∧
    (Instr.writeData 1 true [0xFF]).wellFormed limits = true ∧ (Instr.changeMode 0 true []).wellFormed limits = true ∧
    Instr.flush.wellFormed limits = true ∧ Instr.flush.toPrim = none := by decide
theorem test_witness_EncodingExamplesDecode : (unpack [0xAB] 8).length = 8 := by decide
theorem test_witness_PrimitiveCodesDecode :
    (9 ≤ (0x9 : BitVec 4).toNat) ∧ (9 ≤ (0xF : BitVec 4).toNat) ∧
    (Instr.primBitsIo tableRecord).toPrim = some ⟨.bitsIo, tableRecord⟩ := by decide
theorem test_witness_PackAndUnpackAgree : ([0xAB] : List Byte).length = (3 + 7) / 8 := by decide
theorem test_witness_ResponsesReadBack :
    (unpack [0xAB] 8).length ≤ Config.countMax ∧ (∀ c : Status, c.code ≠ (0x00000002 : Word).extractLsb' 0 8) := by
  refine ⟨by decide, ?_⟩
  intro c
  cases c <;> decide
theorem test_witness_WriteCountIsBijective :
    writeCount [0x34, 0x12] 1 = 9 ∧ writeCount [0x34, 0x12] 8 = 16 ∧ ([0x34, 0x12] : List Byte).length = byteCount 9 := by
  decide
theorem test_witness_HostCallsDecodeToTheirCommand :
    (HostCall.queueRead 8).bind = some [8, 0, 0, 0x60] ∧
    Config.countMax < (HostCall.readData (Config.countMax + 1)).count := by decide
/-- The command stream holds a whole FLUSH. -/
def flushing (s : State) : State := { s with input := [0, 0, 0, 0x50, 0xAA] }
theorem test_witness_StepRunsDecodedCommand :
    (flushing queued).SequencerMoves ∧ decode (flushing queued).input = .command .flush [0xAA] := by decide
theorem test_witness_StepRunsPrimitiveAtHead :
    (transporting queued).released = false ∧ (transporting queued).host ≠ .releasing ∧
    (transporting queued).env.turn = .transport 0 ∧
    (transporting queued).opb = [⟨.bytesIn, 1, true, [], .entry 0⟩] ∧ (transporting queued).env.transportOk = true := by
  decide
/-- The command stream holds an illegal word. -/
def erring (s : State) : State := { s with input := [0, 0, 0, 0x90, 0xAA] }
theorem test_witness_StepTakesIllegalWord :
    (erring queued).SequencerMoves ∧ queued.mode = .run ∧
    decode (erring queued).input = .illegal .reservedOpcode [0xAA] := by decide
theorem test_witness_StepHoldsOnShortStream :
    ({ queued with input := [9, 0, 0, 0x30, 0xFF], host := .finished } : State).SequencerMoves ∧
    ({ queued with input := [9, 0, 0, 0x30, 0xFF] } : State).SequencerMoves ∧ queued.host = .issuing ∧
    decode [9, 0, 0, 0x30, 0xFF] = .incomplete ∧ payloadLength 0x30000009 = 2 := by decide
theorem test_witness_StepDeliversPrefixFreely :
    (transporting full).released = false ∧ (transporting full).host ≠ .releasing ∧
    (transporting full).env.turn = .transport 0 ∧ (transporting full).opb ≠ [] ∧
    (transporting full).env.transportOk = true ∧ (transporting full).BufferOk := by decide
theorem test_witness_FailedFreeDeliveryFaults :
    (failing (transporting full)).released = false ∧ (failing (transporting full)).host ≠ .releasing ∧
    (failing (transporting full)).env.turn = .transport 0 ∧ (failing (transporting full)).opb ≠ [] ∧
    (failing (transporting full)).env.transportOk = false ∧ (failing (transporting full)).env.failure = some 3 := by
  decide
theorem test_witness_StepRecordsUnretrieved :
    complete.hostFinish.released = false ∧ complete.hostFinish.host = .finished ∧ complete.hostFinish.input = [] ∧
    complete.hostFinish.opb = [] ∧ complete.hostFinish.runEnded = false ∧
    (nextOf (step complete.hostFinish)).map (fun t => t.ofaults) = some [.unretrieved 1] := by decide
/-- R64 and R194 of a Host that releases: its run has ended with an entry left. -/
theorem test_release_unretrieved :
    (nextOf (step complete.hostRelease)).map (fun t => (t.ofaults, t.rrq)) = some ([.unretrieved 1], []) := by decide
/-- R64 (b): with an edge still in `opb` the run has not ended. -/
theorem test_release_undelivered :
    (nextOf (step queued.hostRelease)).map (fun t => (t.ofaults, t.trace)) = some ([], []) := by decide
theorem test_witness_StepTearsDown :
    queued.hostRelease.released = false ∧ queued.hostRelease.host = .releasing ∧ queued.hostRelease.opb ≠ [] ∧
    complete.hostRelease.released = false ∧ complete.hostRelease.host = .releasing ∧ complete.hostRelease.opb = [] ∧
    complete.hostRelease.input = [] ∧ complete.hostRelease.rrq ≠ [] ∧ complete.hostRelease.runEnded = false := by decide
/-- The command stream holds a FINISH_READ of 8 bits. -/
def finishing (s : State) : State := { s with input := [8, 0, 0, 0x80] }
theorem test_witness_StepKeepsQueueOrder :
    queued.Inv ∧ (finishing queued).released = false ∧ (finishing queued).host ≠ .releasing ∧
    queued.rrq = [⟨0, 8, .read, [], 1⟩] ∧
    (nextOf (step (finishing queued))).map (fun t => (t.rrq, t.responses)) =
      some ([], [⟨.ok, []⟩, ⟨.ok, List.replicate 8 true⟩]) :=
  ⟨test_inv_queued, by decide⟩
/-- With TRANSPORT_OK false, a transport whose next delivery still goes through. -/
def lucky (s : State) : State := { s with env := { s.env with transportOk := false, failure := none } }
theorem test_witness_lucky_delivery :
    (lucky (transporting full)).released = false ∧ (lucky (transporting full)).host ≠ .releasing ∧
    (lucky (transporting full)).env.turn = .transport 0 ∧ (lucky (transporting full)).opb ≠ [] ∧
    (lucky (transporting full)).env.failure = none ∧ (lucky (transporting full)).BufferOk ∧
    (nextOf (step (lucky (transporting full)))).isSome = true := by decide
theorem test_witness_ObservationNeverChangesBehaviour :
    queued.released = false ∧ { queued with released := true }.released = true ∧
    (nextOf (step queued)).isSome = true := by decide
theorem test_witness_HistoryOnlyGrows :
    (nextOf (step (failing (transporting queued)))).isSome = true ∧ (nextOf (step complete.hostRelease)).isSome = true := by
  decide
theorem test_witness_EdgesIssuedInOrder :
    queued.env.transportOk = true ∧ queued.released = false ∧ queued.host ≠ .releasing ∧
    (nextOf (step (flushing queued))).isSome = true := by decide
theorem test_witness_FaultedModeAnswersFirstCause :
    faulted.mode = .faulted ∧ Instr.flush.toPrim = none ∧ (erring faulted).SequencerMoves ∧
    decode (erring faulted).input = .illegal .reservedOpcode [0xAA] ∧ (nextOf (step faulted)).isSome = true := by decide
theorem test_witness_CountZeroIsInvalidArgument : shDR.mode = .run ∧ countField 0x30000000 = 0 := by decide
theorem test_witness_FinishReadMismatchFaults :
    shDR.mode = .run ∧ shDR.rrq = [] ∧ queued.mode = .run ∧ queued.rrq = [⟨0, 8, .read, [], 1⟩] ∧
    (8 : Nat) ≠ 16 := by decide
theorem test_witness_FullQueueRefuses : full.mode = .run ∧ full.params.rrqDepth ≤ full.rrq.length := by decide
theorem test_witness_TransportFailureLosesTheRest :
    (failing queued).mode = .run ∧ (failing queued).env.transportOk = false ∧ (failing queued).env.failure = some 3 ∧
    ([0xAB] : List Byte).length = byteCount 8 ∧ (failing queued).opb ≠ [] ∧
    (failing queued).rrq = [⟨0, 8, .read, [], 1⟩] := by decide
theorem test_witness_FiveOnesReachTestLogicReset :
    (start TapState.all .loopback).mode = .run ∧ (start TapState.all .loopback).tap = TapState.all := by decide
theorem test_witness_WriteFormsExitShift :
    shDR.mode = .run ∧ shDR.env.transportOk = true ∧ 1 ≤ shDR.params.bytesMax ∧ ([0xAB] : List Byte).length = byteCount 1 ∧
    shDR.rrq.length < shDR.params.rrqDepth ∧ shDR.tap = [.shiftDR] ∧ shIR.tap = [.shiftIR] ∧
    (start [.shiftDR, .shiftIR] .loopback).tap = [.shiftDR, .shiftIR] := by decide
theorem test_witness_UnusedWriteBitsIgnored :
    ([0xFD] : List Byte).length = byteCount 3 ∧ ([0x05] : List Byte).length = byteCount 3 ∧
    ∀ i < 3, dbit [0xFD] i = dbit [0x05] i := by decide
theorem test_witness_DataEdgesKeepShift :
    PrimKind.bitsIn ≠ .tmsOut ∧ PrimKind.bitsIn ≠ .tmsIo ∧
    [TapState.shiftDR, .shiftIR] = TapState.all.filter (fun t => decide (t ∈ [TapState.shiftDR, .shiftIR])) := by decide
theorem test_witness_ReadDataReturnsCapturedBits :
    queued.Inv ∧ queued.mode = .run ∧ queued.env.transportOk = true :=
  ⟨test_inv_queued, by decide⟩
theorem test_witness_LoopbackReturnsWrittenBits :
    shDR.Inv ∧ shDR.mode = .run ∧ shDR.env.transportOk = true ∧ shDR.env.oracle = .loopback ∧
    ([0x34, 0x12] : List Byte).length = byteCount 12 ∧ shDR.rrq.length < shDR.params.rrqDepth ∧ shDR.rrq = [] :=
  ⟨test_inv_shDR, by decide⟩
theorem test_witness_FinishReadPopsCompleteHead :
    complete.mode = .run ∧ complete.rrq = [⟨0, 8, .read, List.replicate 8 true, 0⟩] := by decide
theorem test_witness_FinishReadForcesDelivery :
    queued.Inv ∧ queued.mode = .run ∧ queued.env.transportOk = true ∧ queued.rrq = [⟨0, 8, .read, [], 1⟩] :=
  ⟨test_inv_queued, by decide⟩
theorem test_witness_FlushDeliversEverything :
    queued.Inv ∧ queued.mode = .run ∧ queued.env.transportOk = true ∧ shDR.mode = .run ∧ shDR.opb = [] :=
  ⟨test_inv_queued, by decide⟩
theorem test_witness_TmsPrimitivesClockTheirEdges :
    (Instr.primTmsOut ⟨7, true, [0x5F], .none⟩).wellFormed limits = true ∧
    (Instr.primTmsIo ⟨2, true, [0x01], .sync⟩).wellFormed limits = true := by decide
theorem test_witness_DataPrimitivesClockTheirEdges :
    (Instr.primBytesOut ⟨1, false, [0xFF], .none⟩).wellFormed limits = true ∧
    (Instr.primBytesIn ⟨4, true, [], .sync⟩).wellFormed limits = true ∧
    (Instr.primBytesIo ⟨1, false, [0xFF], .entry 0⟩).wellFormed limits = true ∧
    (Instr.primBitsOut ⟨7, false, [0x7F], .none⟩).wellFormed limits = true ∧
    (Instr.primBitsIn ⟨1, true, [], .entry 0⟩).wellFormed limits = true ∧
    (Instr.primBitsIo ⟨7, false, [0x7F], .sync⟩).wellFormed limits = true ∧
    (unpack [0xFF] 8).length = 8 * 1 := by decide
theorem test_witness_PrimitiveEdgesStandInOrder :
    (8 * 1 + 7 < 8 * (⟨2, true, [], .sync⟩ : PrimBody).len) ∧ (unpack [0xFF, 0x01] 16).length = 8 * 2 ∧
    (primEdges ⟨.bytesOut, ⟨2, false, [0x00, 0x80], .none⟩⟩)[8 * 1 + 7]? = some ⟨false, true, false⟩ := by decide
theorem test_witness_RawCaptureConverts :
    (unpack [0xFF, 0x01] 16).length = 8 * 2 ∧ (unpack [0x01] 7).length = 7 ∧ (7 : Nat) ≤ 8 := by decide
theorem test_witness_DeliverySchedulesAgree :
    full.Inv ∧ full.env.transportOk = true ∧ (Instr.finishRead 8).toPrim = none :=
  ⟨test_inv_full, by decide⟩

end Sys2Proof.Tests
end

section
/-! SUPPORT. When a stream is incomplete (10_state.md R28, 30_encoding.md R76). -/

namespace Sys2Proof

theorem ofBits_of_legal {w : Word} (h : illegalReason w = none) :
    ∃ op, Opcode.ofBits (opcField w) = some op := by
  cases ho : Opcode.ofBits (opcField w) with
  | none => simp [illegalReason, ho] at h
  | some op => exact ⟨op, rfl⟩

theorem payloadLength_legal {w : Word} {op : Opcode} (hl : illegalReason w = none)
    (ho : Opcode.ofBits (opcField w) = some op) : payloadLength w = op.payloadBytes (countField w) := by
  simp [payloadLength, hl, ho]

theorem payloadLength_illegal {w : Word} {why : Illegal} (h : illegalReason w = some why) : payloadLength w = 0 := by
  simp [payloadLength, h]

theorem decode_of_length_lt_four {bs : List Byte} (h : bs.length < 4) : decode bs = .incomplete := by
  unfold decode
  split
  · simp only [List.length_cons] at h
    omega
  · rfl

/-- Once the word is known, its payload alone can be missing; an illegal word implies none (R76). -/
theorem decodeWord_eq_incomplete_iff (w : Word) (rest : List Byte) :
    decodeWord w rest = .incomplete ↔ rest.length < payloadLength w := by
  cases hl : illegalReason w with
  | some why => simp [decodeWord_illegal hl, payloadLength_illegal hl]
  | none =>
    obtain ⟨op, ho⟩ := ofBits_of_legal hl
    rw [payloadLength_legal hl ho]
    simp [decodeWord, hl, ho]

end Sys2Proof
end

section
/-! SUPPORT. The Sequencer's turn of a step, and the hold on an incomplete stream (10_state.md R28). -/

namespace Sys2Proof.Machine

namespace Ops

/-- Drawing a turn changes nothing of the state but the turn and its counter. -/
theorem drawTurn_frame (s : State) :
    drawTurn s =
      { s with env := { s.env with turn := (drawTurn s).env.turn, turnDraws := (drawTurn s).env.turnDraws } } := by
  unfold drawTurn; split <;> rfl

/-- Nothing is recorded before R64's end of the run. -/
theorem recordEnd_of_not_atRunEnd {s : State} (h : ¬ s.atRunEnd = true) : recordEnd s = s := by
  simp [recordEnd, h]

/-- With the Host still issuing, or with bytes left on the stream, the run has not ended and holding only draws a
turn. -/
theorem hold_of_not_ended {s : State} (h : s.host = .issuing ∨ s.input ≠ []) : hold s = drawTurn s := by
  rw [hold_eq]
  apply recordEnd_of_not_atRunEnd
  rw [atRunEnd_iff, drawTurn_host, drawTurn_input]
  rintro ⟨hhost, hinput, -⟩
  exact h.elim hhost (· hinput)

theorem sequencerTurn_incomplete (run : Instr → State → Result) {s : State} (h : decode s.input = .incomplete) :
    sequencerTurn run s = .next (hold s) := by
  simp [sequencerTurn, h]

/-- On the Sequencer's turn of a live session the cycle is that turn (00_scope.md R6). -/
theorem cycle_sequencer (run : Instr → State → Result) {s : State} (h : s.SequencerMoves) :
    cycle run s = sequencerTurn run s := by
  obtain ⟨hlive, hhost, hturn⟩ := h
  cases hh : s.host with
  | releasing => exact absurd hh hhost
  | issuing | finished =>
    rcases hturn with ht | ho
    · simp [cycle, hlive, hh, ht]
    · cases ht : s.env.turn <;> simp [cycle, hlive, hh, ht, ho]

end Ops

theorem step_sequencer {s : State} (h : s.SequencerMoves) : step s = Ops.sequencerTurn exec s :=
  Ops.cycle_sequencer exec h

end Sys2Proof.Machine
end

section
/-! The statements about reset and about the hold (10_state.md R35, R28). -/

namespace Sys2Proof.Machine

/-- Settles O1: the fields by the definition of the reset, R110's list of states for `tap`. -/
theorem resetGivesEveryFieldItsValue : Obligations.ResetGivesEveryFieldItsValue := by
  intro c e bound
  have htap : ∀ x : TapState, x ∈ (State.resetWith c e bound).tap := TapState.mem_all
  have hcode : (State.resetWith c e bound).faultCause.code = if bound then 0x00 else 0x15 := by
    cases bound <;> rfl
  exact ⟨rfl, hcode, rfl, rfl, rfl, rfl, rfl, rfl, rfl, htap, rfl, rfl, rfl⟩

/-- Settles O19: an incomplete stream is one that is short of its word or its payload, and on it the Sequencer's turn
is a hold that records no end of the run. -/
theorem stepHoldsOnShortStream : Obligations.StepHoldsOnShortStream := by
  refine ⟨fun bs => decode_of_length_lt_four, fun w rest => ?_, fun s hmoves hopen hdec => ?_⟩
  · rw [decode_wordBytes, decodeWord_eq_incomplete_iff]
  · have hstep : step s = .next (Ops.drawTurn s) := by
      rw [step_sequencer hmoves, Ops.sequencerTurn_incomplete exec hdec, Ops.hold_of_not_ended hopen]
    exact ⟨Ops.drawTurn s, hstep, Ops.drawTurn_frame s⟩

end Sys2Proof.Machine
end

section
/-! SUPPORT. Packing and unpacking undo each other (20_memory.md R51, R52). -/

namespace Sys2Proof

/-- A bit of an unpacked string: the buffer's own bit below `n`, and none beyond (R52). -/
theorem getD_unpack (buf : List Byte) (n i : Nat) :
    (unpack buf n).getD i false = (decide (i < n) && bufBit buf i) := by
  rw [List.getD_eq_getElem?_getD, getElem?_unpack]
  by_cases h : i < n <;> simp [h]

theorem unpack_pack (s : List Bool) : unpack (pack s) s.length = s := by
  apply List.ext_getElem?
  intro i
  rw [getElem?_unpack, bufBit_pack]
  by_cases h : i < s.length <;> simp [h]

/-- Packing what was unpacked keeps the buffer's bits below `n` and clears the others. -/
theorem bufBit_pack_unpack (buf : List Byte) (n i : Nat) :
    bufBit (pack (unpack buf n)) i = (decide (i < n) && bufBit buf i) := by
  rw [bufBit_pack, getD_unpack]

end Sys2Proof
end

section
/-! The statement about Pack and Unpack (20_memory.md R51, R52). -/

namespace Sys2Proof

/-- Settles O11: each clause reads one bit of the layout, by `bufBit_pack` and `getElem?_unpack`. -/
theorem packAndUnpackAgree : Obligations.PackAndUnpackAgree := by
  refine ⟨fun s => ⟨length_pack s, fun i => ?_⟩, pack_nil, fun buf n => ⟨length_unpack buf n, fun i hi => ?_⟩,
    unpack_pack, fun buf n hlen => ⟨?_, bufBit_pack_unpack buf n⟩⟩
  · change bufBit (pack s) i = _
    rw [bufBit_pack]
    split
    · rfl
    · next hi => exact List.getD_eq_default s false (Nat.le_of_not_lt hi)
  · rw [getElem?_unpack, if_pos hi, bufBit]
  · rw [length_pack, length_unpack, byteCount, hlen]

end Sys2Proof
end

section
/-! SUPPORT. The count of a write form against the length of its data and the bits of its last byte (30_encoding.md
R74, R75). -/

namespace Sys2Proof

/-- `ceil(COUNT/8)` is the number of bytes that COUNT was made from. -/
theorem byteCount_of_lastByte {len bits : Nat} (hlen : 1 ≤ len) (hlo : 1 ≤ bits) (hhi : bits ≤ 8) :
    byteCount (8 * (len - 1) + bits) = len := by
  unfold byteCount; omega

namespace Machine

/-- The bits in the last byte are those that COUNT was made from. -/
theorem lastBits_of_lastByte {len bits : Nat} (hlen : 1 ≤ len) (hlo : 1 ≤ bits) (hhi : bits ≤ 8) :
    lastBits (8 * (len - 1) + bits) = bits := by
  rw [lastBits, byteCount_of_lastByte hlen hlo hhi, Nat.add_sub_cancel_left]

/-- The count of the arguments R83 (d) calls valid. -/
theorem writeCount_of_valid {data : List Byte} {bits : Nat} (hdata : data ≠ []) (hlo : 1 ≤ bits) (hhi : bits ≤ 8) :
    writeCount data bits = 8 * (data.length - 1) + bits := by
  rw [writeCount, if_neg]
  simp only [List.isEmpty_iff, Bool.or_eq_true, decide_eq_true_eq, hdata, false_or]
  omega

/-- Any data of `ceil(n/8)` bytes, with the bits that `n` leaves for the last one, counts `n`. -/
theorem writeCount_lastBits {n : Nat} (hn : 1 ≤ n) {data : List Byte} (hlen : data.length = byteCount n) :
    writeCount data (lastBits n) = n := by
  have hdata : data ≠ [] := List.ne_nil_of_length_pos (hlen ▸ byteCount_pos hn)
  obtain ⟨hlo, hhi⟩ := lastBits_bounds hn
  rw [writeCount_of_valid hdata hlo hhi, hlen, byteCount_lastBits hn]

end Machine
end Sys2Proof
end

section
/-! SUPPORT. A response that carries 8 bits, as bytes of the response stream (30_encoding.md R80). -/

namespace Sys2Proof.Machine

/-- Eight captured bits stand in one byte after the word (20_memory.md R51). -/
theorem response_bytes_of_eight_bits {r : Response} (h : r.bits.length = 8) :
    ∃ d : Byte, r.bytes = wordBytes r.word ++ [d] := by
  have hone : (pack r.bits).length = 1 := by rw [length_pack, h]; rfl
  obtain ⟨d, hd⟩ := List.length_eq_one_iff.mp hone
  exact ⟨d, by rw [Response.bytes, hd]⟩

theorem response_word_of_ok_eight_bits {r : Response} (hok : r.status = .ok) (h : r.bits.length = 8) :
    r.word = 0x00000800 := by
  rw [Response.word, hok, h]; rfl

end Sys2Proof.Machine
end

section
/-! The statements about the count of a write form and about the encoding examples (30_encoding.md R74, R84). -/

namespace Sys2Proof.Machine

/-- Settles O14: `ceil(COUNT/8)` is `byteCount` and what it leaves for the last byte is `lastBits`, R75's inverse of
the count, in each direction. -/
theorem writeCountIsBijective : Obligations.WriteCountIsBijective := by
  refine ⟨fun data bits hdata hlo hhi => ?_, fun n hn => ?_, fun n => ⟨rfl, rfl, rfl⟩⟩
  · have hlen : 1 ≤ data.length := List.length_pos_of_ne_nil hdata
    rw [writeCount_of_valid hdata hlo hhi]
    exact ⟨rfl, Nat.le_add_left_of_le hlo, byteCount_of_lastByte hlen hlo hhi, lastBits_of_lastByte hlen hlo hhi⟩
  · obtain ⟨hlo, hhi⟩ := lastBits_bounds hn
    exact ⟨byteCount_pos hn, hlo, hhi, fun data hlen => writeCount_lastBits hn hlen⟩

/-- Settles O9: each example call and its bytes are closed and computed both ways; a response of 8 bits has its word
by `response_word_of_ok_eight_bits` and one byte after it, whatever the bits are. -/
theorem encodingExamplesDecode : Obligations.EncodingExamplesDecode := by
  refine ⟨by decide, by decide, by decide, by decide, by decide, by decide, by decide, by decide, by decide, by decide,
    by decide, by decide, fun r hok h8 => ?_⟩
  have hword := response_word_of_ok_eight_bits hok h8
  obtain ⟨d, hbytes⟩ := response_bytes_of_eight_bits h8
  exact ⟨d, hword, by rw [hbytes, hword]; rfl⟩

end Sys2Proof.Machine
end

section
/-! SUPPORT. Which states a walk reaches (40_tap_traversal.md R112). -/

namespace Sys2Proof

/-- A state is reached along a TMS string when some state of the set leads to it, edge by edge. -/
theorem mem_walk (tap : List TapState) (ms : List Bool) (t : TapState) :
    t ∈ walk tap ms ↔ ∃ s ∈ tap, ms.foldl TapState.next s = t := by
  induction ms generalizing tap with
  | nil => simp
  | cons m ms ih =>
    rw [walk_cons, ih]
    constructor
    · rintro ⟨u, hu, hreach⟩
      obtain ⟨s, hs, rfl⟩ := (mem_walkStep tap m u).mp hu
      exact ⟨s, hs, hreach⟩
    · rintro ⟨s, hs, hreach⟩
      exact ⟨s.next m, (mem_walkStep tap m _).mpr ⟨s, hs, rfl⟩, hreach⟩

end Sys2Proof
end

section
/-! SUPPORT. The chunks of a TMS string and the edges of TMS_OUT primitives made of them (40_tap_traversal.md R120 to
R122, R125). -/

namespace Sys2Proof.Machine

@[simp] theorem chunks_nil (most : Nat) : chunks [] most = [] := by simp [chunks, splitSizes]

theorem flatten_chunks (tms : List Bool) (most : Nat) : (chunks tms most).flatten = tms :=
  flatten_splitSizes _ tms (sum_byteChunks tms.length most)

theorem map_length_chunks (tms : List Bool) (most : Nat) :
    (chunks tms most).map List.length = byteChunks tms.length most :=
  map_length_splitSizes _ tms (sum_byteChunks tms.length most)

/-- A chunk is not empty and within the limit. -/
theorem length_of_mem_chunks {tms c : List Bool} {most : Nat} (hm : 1 ≤ most) (hc : c ∈ chunks tms most) :
    1 ≤ c.length ∧ c.length ≤ most :=
  mem_byteChunks hm (mem_splitSizes_length (sum_byteChunks tms.length most) hc)

/-- There are `ceil(m / most)` counts: the whole ones, and one more for a remainder. -/
theorem length_byteChunks (m : Nat) {most : Nat} (hm : 1 ≤ most) :
    (byteChunks m most).length = (m + most - 1) / most := by
  have hmod : m % most < most := Nat.mod_lt m hm
  have hdecomp : most * (m / most) + m % most = m := Nat.div_add_mod m most
  unfold byteChunks
  split
  · next hz =>
    have hsum : m + most - 1 = most * (m / most) + (most - 1) := by omega
    have hlast : (most - 1) / most = 0 := Nat.div_eq_of_lt (by omega)
    rw [hsum, Nat.mul_add_div hm, hlast]
    simp
  · next hz =>
    have hsum : m + most - 1 = most * (m / most) + (m % most - 1 + most) := by omega
    have hlast : (m % most - 1 + most) / most = 1 := by
      rw [Nat.add_div_right _ hm, Nat.div_eq_of_lt (by omega)]
    rw [hsum, Nat.mul_add_div hm, hlast]
    simp

theorem length_chunks (tms : List Bool) {most : Nat} (hm : 1 ≤ most) :
    (chunks tms most).length = (tms.length + most - 1) / most := by
  rw [chunks, length_splitSizes, length_byteChunks _ hm]

@[simp] theorem map_tms_holdEdges (tms : List Bool) (t : Bool) : (holdEdges tms t).map (·.tms) = tms := by
  simp [holdEdges, Function.comp_def]

theorem holdEdges_flatten (pieces : List (List Bool)) (t : Bool) :
    pieces.flatMap (holdEdges · t) = holdEdges pieces.flatten t := by
  simp [holdEdges, List.flatMap_def, List.map_flatten]

/-- TMS_OUT clocks the TMS string in its DATA with TDI held (R125). -/
theorem primEdges_tmsOut (b : PrimBody) : primEdges ⟨.tmsOut, b⟩ = holdEdges (unpack b.data b.len) b.tdi := by
  simp [primEdges, edgesTmsOut, holdEdges, unpack]

/-- The chunks leave no mark in the edges, whatever the limit (R122). -/
theorem edgesOf_changeModePrims (most : Nat) (tms : List Bool) (t : Bool) :
    edgesOf (changeModePrims most tms t) = holdEdges tms t := by
  have hprim : ∀ c : List Bool, primEdges ⟨.tmsOut, c.length, t, pack c, .none⟩ = holdEdges c t := fun c => by
    rw [primEdges_tmsOut, unpack_pack]
  calc edgesOf (changeModePrims most tms t)
      = (chunks tms most).flatMap (holdEdges · t) := by
        simp [edgesOf, changeModePrims, List.flatMap_map, hprim]
    _ = holdEdges tms t := by rw [holdEdges_flatten, flatten_chunks]

/-- Each primitive of CHANGE_MODE carries the bits of one chunk. -/
theorem len_of_mem_changeModePrims {most : Nat} {tms : List Bool} {t : Bool} {p : Prim} (hm : 1 ≤ most)
    (hp : p ∈ changeModePrims most tms t) : 1 ≤ p.body.len ∧ p.body.len ≤ most := by
  obtain ⟨c, hc, rfl⟩ := List.mem_map.mp hp
  exact length_of_mem_chunks hm hc

end Sys2Proof.Machine
end

section
/-! SUPPORT. CHANGE_MODE in RUN (40_tap_traversal.md R113, R120). -/

namespace Sys2Proof.Machine

/-- Emitting the primitives of CHANGE_MODE walks the TAP along the whole TMS string, whatever the chunks. -/
theorem emitAll_changeModePrims (most : Nat) (tms : List Bool) (t : Bool) (s : State) :
    Ops.emitAll (changeModePrims most tms t) s =
      { s with opb := s.opb ++ changeModePrims most tms t, tap := walk s.tap tms } := by
  have htms : (changeModePrims most tms t).flatMap tmsOf = tms := by
    rw [flatMap_tmsOf, edgesOf_changeModePrims, map_tms_holdEdges]
  rw [Ops.emitAll, htms]

theorem exec_changeMode_run {s : State} (h : s.mode = .run) (l : Nat) (t : Bool) (payload : List Byte) :
    exec (.changeMode l t payload) s = .next { s with
      opb := s.opb ++ changeModePrims s.params.tmsMax (unpack payload l) t
      tap := walk s.tap (unpack payload l)
      responses := s.responses ++ [⟨.ok, []⟩], cmdIdx := s.cmdIdx + 1 } := by
  change execChangeMode l t payload s = _
  rw [execChangeMode, Ops.runCommand_run _ _ h, emitAll_changeModePrims]
  rfl

end Sys2Proof.Machine
end

section
/-! SUPPORT. Each edge of a primitive by its index (40_tap_traversal.md R125, 41_shift.md R160 to R165). -/

namespace Sys2Proof

/-- Bit `j` of byte `i` is bit `8i + j` of the buffer (20_memory.md R50). -/
theorem bufBit_mul_add (buf : List Byte) (i : Nat) {j : Nat} (hj : j < 8) :
    bufBit buf (8 * i + j) = (buf.getD i 0).getLsbD j := by
  rw [bufBit, Nat.mul_add_div (by decide), Nat.mul_add_mod, Nat.div_eq_of_lt hj, Nat.mod_eq_of_lt hj, Nat.add_zero]

namespace Machine

theorem getElem?_map_range {α : Type} (f : Nat → α) {n i : Nat} (h : i < n) :
    ((List.range n).map f)[i]? = some (f i) := by
  rw [List.getElem?_map, List.getElem?_range h, Option.map_some]

/-- Edges made of the bits of `n` bytes in order: edge `8i + j` is made of bit `j` of byte `i`. -/
theorem getElem?_byteEdges (edge : Bool → Edge) (data : List Byte) {n i j : Nat} (hi : i < n) (hj : j < 8) :
    ((List.range (8 * n)).map fun k => edge (bufBit data k))[8 * i + j]? =
      some (edge ((data.getD i 0).getLsbD j)) := by
  rw [getElem?_map_range _ (by omega), bufBit_mul_add data i hj]

theorem tmsOf_tmsOut (b : PrimBody) : tmsOf ⟨.tmsOut, b⟩ = unpack b.data b.len := by
  rw [tmsOf, primEdges_tmsOut, map_tms_holdEdges]

/-- Bit `8i + j` of the captured ones stands at byte `i` bit `j` of the raw return (41_shift.md R161). -/
theorem getLsbD_adapterRaw_bytesIn (len : Nat) (low : Byte) (bits : List Bool) (i : Nat) {j : Nat} (hj : j < 8) :
    ((adapterRaw .bytesIn len low bits).getD i 0).getLsbD j = bits.getD (8 * i + j) false := by
  rw [← bufBit_mul_add _ i hj]
  exact bufBit_pack bits _

end Machine
end Sys2Proof
end

section
/-! The statements about the TAP walk, the chunks of CHANGE_MODE and the edges of a primitive (40_tap_traversal.md R112
to R115, R121, R122 and R125, 41_shift.md R160 to R165). -/

namespace Sys2Proof.Machine

/-- Settles O33: the set of successors is `walkStep`'s, and membership is by induction on the edges, `mem_walk`. -/
theorem tapWalkIsImage : Obligations.TapWalkIsImage :=
  ⟨walk_nil, fun S m ms => ⟨walkStep S m, mem_walkStep S m, walk_cons S m ms⟩, mem_walk⟩

/-- Settles O37: the sizes are those of `byteChunks`, the pieces join again, and so do their edges. -/
theorem chunkingIsTransparent : Obligations.ChunkingIsTransparent :=
  ⟨chunks_nil, fun tms most t hm =>
    ⟨flatten_chunks tms most, map_length_chunks tms most, length_chunks tms hm, edgesOf_changeModePrims most tms t,
      fun _ => len_of_mem_changeModePrims hm⟩⟩

/-- Settles O34: the walks from all 16 states are computed; CHANGE_MODE walks the bits of its payload, five ones and
a zero. -/
theorem fiveOnesReachTestLogicReset : Obligations.FiveOnesReachTestLogicReset := by
  have hfive : walk TapState.all [true, true, true, true, true] = [.testLogicReset] := by decide
  refine ⟨hfive, by decide, by decide, fun s x hrun hunknown => ⟨_, exec_changeMode_run hrun 6 x [0x1F], ?_⟩⟩
  have hbits : unpack [0x1F] 6 = [true, true, true, true, true] ++ [false] := by decide
  calc walk s.tap (unpack [0x1F] 6)
      = walk [.testLogicReset] [false] := by rw [hunknown, hbits, walk_append, hfive]
    _ = [.runTestIdle] := by decide

/-- Settles O35: each path is closed and short, and its walk is computed. -/
theorem usefulPathsReachTheirStates : Obligations.UsefulPathsReachTheirStates := by
  unfold Obligations.UsefulPathsReachTheirStates
  decide

/-- Settles O58: the lengths by `length_primEdges`, each edge at its index by the form of its kind's edges. -/
theorem primitiveEdgesStandInOrder : Obligations.PrimitiveEdgesStandInOrder := by
  refine fun b => ⟨⟨length_primEdges _, tmsOf_tmsOut b, fun j hj => ?tmsOut⟩,
    ⟨length_primEdges _, fun i hi j hj => ?bytesOut⟩,
    ⟨length_primEdges _, fun i hi j hj =>
      ⟨?bytesIn, fun low bits _ => getLsbD_adapterRaw_bytesIn b.len low bits i hj⟩⟩,
    ⟨length_primEdges _, fun i hi j hj => ?bytesIo⟩,
    ⟨length_primEdges _, fun j hj => ?bitsOut⟩, ⟨length_primEdges _, fun j hj => ?bitsIn⟩,
    ⟨length_primEdges _, fun j hj => ?bitsIo⟩⟩
  case tmsOut | bitsOut | bitsIo => exact getElem?_map_range _ hj
  case bytesOut => exact getElem?_byteEdges (⟨false, ·, false⟩) b.data hi hj
  case bytesIo => exact getElem?_byteEdges (⟨false, ·, true⟩) b.data hi hj
  case bytesIn => exact List.getElem?_replicate_of_lt (show 8 * i + j < 8 * b.len by omega)
  case bitsIn => exact List.getElem?_replicate_of_lt hj

end Sys2Proof.Machine
end

section
/-! SUPPORT. The edges of the data primitives and of the exit primitives, and which of them are captured
(41_shift.md R151, R160 to R166). -/

namespace Sys2Proof.Machine

/-- Edges with TMS 0, one for each TDI bit (R160, R162, R163, R165). -/
def dataEdges (bits : List Bool) (capture : Bool) : List Edge := bits.map fun b => ⟨false, b, capture⟩

/-- Edges of a TMS sequence with TDI held (40_tap_traversal.md R125, R126). -/
def tmsEdges (tms : List Bool) (tdi capture : Bool) : List Edge := tms.map fun m => ⟨m, tdi, capture⟩

theorem dataEdges_append (a b : List Bool) (capture : Bool) :
    dataEdges (a ++ b) capture = dataEdges a capture ++ dataEdges b capture := List.map_append

theorem primEdges_bytesOut (b : PrimBody) :
    primEdges ⟨.bytesOut, b⟩ = dataEdges (unpack b.data (8 * b.len)) false := by
  simp [primEdges, edgesBytesOut, dataEdges, unpack]

theorem primEdges_bytesIo (b : PrimBody) :
    primEdges ⟨.bytesIo, b⟩ = dataEdges (unpack b.data (8 * b.len)) true := by
  simp [primEdges, edgesBytesIo, dataEdges, unpack]

theorem primEdges_tmsIo (b : PrimBody) : primEdges ⟨.tmsIo, b⟩ = tmsEdges (unpack b.data b.len) b.tdi true := by
  simp [primEdges, edgesTmsIo, tmsEdges, unpack]

/-- Every edge of a data primitive has TMS 0 (R166). -/
theorem tms_of_mem_primEdges {p : Prim} (hout : p.kind ≠ .tmsOut) (hio : p.kind ≠ .tmsIo) {e : Edge}
    (he : e ∈ primEdges p) : e.tms = false := by
  obtain ⟨kind, b⟩ := p
  cases kind with
  | tmsOut => exact absurd rfl hout
  | tmsIo => exact absurd rfl hio
  | bytesOut | bytesIo | bitsOut | bitsIo => obtain ⟨i, -, rfl⟩ := List.mem_map.mp he; rfl
  | bytesIn | bitsIn => rw [List.eq_of_mem_replicate he]

/-- Every edge of a read-only primitive has TDI 1 (R142, R166). -/
theorem tdi_of_mem_primEdges {p : Prim} (h : p.kind = .bytesIn ∨ p.kind = .bitsIn) {e : Edge}
    (he : e ∈ primEdges p) : e.tdi = true := by
  obtain ⟨kind, b⟩ := p
  obtain rfl | rfl := h <;> rw [List.eq_of_mem_replicate he]

theorem tmsOf_eq_replicate {p : Prim} (hout : p.kind ≠ .tmsOut) (hio : p.kind ≠ .tmsIo) :
    tmsOf p = List.replicate (primEdges p).length false := by
  rw [tmsOf, List.map_eq_replicate_iff]
  exact fun e he => tms_of_mem_primEdges hout hio he

/-- The kinds whose edges are all captured; the other kinds capture none (R125, R126, R160 to R165). -/
def capturing : PrimKind → Bool
  | .tmsIo | .bytesIn | .bytesIo | .bitsIn | .bitsIo => true
  | .tmsOut | .bytesOut | .bitsOut => false

theorem capture_of_mem_primEdges {p : Prim} {e : Edge} (he : e ∈ primEdges p) : e.capture = capturing p.kind := by
  obtain ⟨kind, b⟩ := p
  cases kind with
  | tmsOut | tmsIo | bytesOut | bytesIo | bitsOut | bitsIo => obtain ⟨i, -, rfl⟩ := List.mem_map.mp he; rfl
  | bytesIn | bitsIn => rw [List.eq_of_mem_replicate he]; rfl

end Sys2Proof.Machine
end

section
/-! SUPPORT. A TAP in Shift stays there while TMS is low (41_shift.md R166). -/

namespace Sys2Proof

/-- With TMS low a set of Shift states is its own image. -/
theorem walkStep_false_of_shift {S : List TapState} (hcanon : S = TapState.all.filter fun t => decide (t ∈ S))
    (hshift : ∀ x ∈ S, x = .shiftDR ∨ x = .shiftIR) : walkStep S false = S := by
  have hfix : ∀ x ∈ S, x.next false = x := fun x hx => by obtain rfl | rfl := hshift x hx <;> rfl
  have hmem : ∀ t, t ∈ walkStep S false ↔ t ∈ S := fun t => by
    rw [mem_walkStep]
    constructor
    · rintro ⟨x, hx, rfl⟩
      rwa [hfix x hx]
    · exact fun ht => ⟨t, ht, hfix t ht⟩
  rw [walkStep_canonical]
  simp only [hmem]
  exact hcanon.symm

theorem walk_replicate_false_of_shift {S : List TapState}
    (hcanon : S = TapState.all.filter fun t => decide (t ∈ S))
    (hshift : ∀ x ∈ S, x = .shiftDR ∨ x = .shiftIR) (k : Nat) : walk S (List.replicate k false) = S := by
  induction k with
  | zero => rfl
  | succ k ih => rw [List.replicate_succ, walk_cons, walkStep_false_of_shift hcanon hshift, ih]

end Sys2Proof
end

section
/-! SUPPORT. A raw capture converts to the captured bits (30_encoding.md R87, 41_shift.md R167). -/

namespace Sys2Proof.Machine

/-- The kinds whose capture is one raw byte with its bits at the top (R87). -/
abbrev capturesSubByte (kind : PrimKind) : Prop := kind = .bitsIn ∨ kind = .bitsIo ∨ kind = .tmsIo

theorem convertRaw_bytes {kind : PrimKind} (hkind : kind = .bytesIn ∨ kind = .bytesIo) (len : Nat)
    (raw : List Byte) : convertRaw kind len raw = unpack raw (8 * len) := by
  obtain rfl | rfl := hkind <;> rfl

theorem convertRaw_subByte {kind : PrimKind} (hkind : capturesSubByte kind) (len : Nat) (raw : List Byte) :
    convertRaw kind len raw = unpack [raw.getD 0 0 >>> (8 - len)] len := by
  obtain rfl | rfl | rfl := hkind <;> rfl

theorem adapterRaw_subByte {kind : PrimKind} (hkind : capturesSubByte kind) (len : Nat) (low : Byte)
    (bits : List Bool) :
    adapterRaw kind len low bits =
      [byteOf fun j => if j < 8 - len then low.getLsbD j else bits.getD (j - (8 - len)) false] := by
  obtain rfl | rfl | rfl := hkind <;> rfl

theorem convertRaw_adapterRaw_bytes {kind : PrimKind} (hkind : kind = .bytesIn ∨ kind = .bytesIo) {len : Nat}
    (low : Byte) {bits : List Bool} (hbits : bits.length = 8 * len) :
    convertRaw kind len (adapterRaw kind len low bits) = bits := by
  have hraw : adapterRaw kind len low bits = pack bits := by obtain rfl | rfl := hkind <;> rfl
  rw [convertRaw_bytes hkind, hraw, ← hbits, unpack_pack]

/-- Bit `j` of the captured ones stands at bit `8 - len + j` of the raw byte, above the unused low bits (R87). -/
theorem getLsbD_adapterRaw_subByte {kind : PrimKind} (hkind : capturesSubByte kind) {len : Nat} (hlen : len ≤ 8)
    (low : Byte) (bits : List Bool) {j : Nat} (hj : j < len) :
    ((adapterRaw kind len low bits).getD 0 0).getLsbD (8 - len + j) = bits.getD j false := by
  rw [adapterRaw_subByte hkind, List.getD_cons_zero, getLsbD_byteOf _ _ (by omega), if_neg (by omega),
    Nat.add_sub_cancel_left]

theorem convertRaw_adapterRaw_subByte {kind : PrimKind} (hkind : capturesSubByte kind) {len : Nat} (hlen : len ≤ 8)
    (low : Byte) {bits : List Bool} (hbits : bits.length = len) :
    convertRaw kind len (adapterRaw kind len low bits) = bits := by
  rw [convertRaw_subByte hkind]
  apply List.ext_getElem?
  intro j
  rw [getElem?_unpack]
  split
  · next hj =>
    rw [bufBit_cons_zero _ _ _ (by omega), BitVec.getLsbD_ushiftRight,
      getLsbD_adapterRaw_subByte hkind hlen low bits hj, List.getD_eq_getElem?_getD,
      List.getElem?_eq_getElem (by omega), Option.getD_some]
  · next hj => rw [List.getElem?_eq_none (by omega)]

/-- A primitive whose raw capture has room for its bits: one byte for a sub-byte capture (R87; log 13). -/
def rawFits (p : Prim) : Prop := capturesSubByte p.kind → p.body.len ≤ 8

/-- What reaches the owner of a primitive is the TDO bits of its captured edges, in edge order (R167). -/
theorem capturedBits_eq_tdoBits {p : Prim} (hfits : rawFits p) (low : Byte) (o : TdoOracle) (pos : Nat) :
    capturedBits low p (sampleEdges o pos (primEdges p)) = tdoBits (sampleEdges o pos (primEdges p)) := by
  have hnone : capturing p.kind = false → tdoBits (sampleEdges o pos (primEdges p)) = [] := fun h =>
    tdoBits_of_uncaptured o pos _ fun e he => by rw [capture_of_mem_primEdges he, h]
  have hall : capturing p.kind = true →
      (tdoBits (sampleEdges o pos (primEdges p))).length = (primEdges p).length := fun h =>
    length_tdoBits_of_captured o pos _ fun e he => by rw [capture_of_mem_primEdges he, h]
  rw [length_primEdges] at hall
  obtain ⟨kind, b⟩ := p
  unfold capturedBits
  cases kind with
  | tmsOut | bytesOut | bitsOut => rw [hnone rfl]; rfl
  | bytesIn | bytesIo => exact convertRaw_adapterRaw_bytes (by simp) low (hall rfl)
  | tmsIo | bitsIn | bitsIo =>
    exact convertRaw_adapterRaw_subByte (by simp [capturesSubByte]) (hfits (by simp [capturesSubByte])) low (hall rfl)

end Sys2Proof.Machine
end

section
/-! The statements about byte chunks, the edges of data primitives and raw captures (41_shift.md R142, R146, R166,
R167). -/

namespace Sys2Proof.Machine

/-- Settles O39: the counts by definition, their sum and bounds and the split along them by the laws of `byteChunks`
and `splitSizes`. -/
theorem byteChunksCoverTheirCount : Obligations.ByteChunksCoverTheirCount := by
  refine ⟨byteChunks_zero, fun m most hmost => ⟨rfl, sum_byteChunks m most, fun k hk => mem_byteChunks hmost hk,
    fun data hlen => ?_⟩⟩
  have hsum : (byteChunks m most).sum = data.length := by rw [sum_byteChunks, hlen]
  exact ⟨flatten_splitSizes _ data hsum, map_length_splitSizes _ data hsum⟩

/-- Settles O43: TMS is 0 on every edge, kind by kind, and under TMS 0 both Shift states lead to themselves. -/
theorem dataEdgesKeepShift : Obligations.DataEdgesKeepShift := by
  refine fun p hout hio => ⟨tmsOf_eq_replicate hout hio, fun S hcanon hshift => ?_,
    fun hread e he => tdi_of_mem_primEdges hread he⟩
  rw [tmsOf_eq_replicate hout hio, walk_replicate_false_of_shift hcanon hshift]

/-- Settles O55: whole bytes by Pack and Unpack, a sub-byte capture bit by bit above the unused low bits. -/
theorem rawCaptureConverts : Obligations.RawCaptureConverts := fun _ len low raw bits =>
  ⟨fun hkind => ⟨convertRaw_bytes hkind len raw, fun hbits => convertRaw_adapterRaw_bytes hkind low hbits⟩,
    fun hkind => ⟨convertRaw_subByte hkind len raw, fun hlen hbits =>
      ⟨fun _ hj => getLsbD_adapterRaw_subByte hkind hlen low bits hj,
        convertRaw_adapterRaw_subByte hkind hlen low hbits⟩⟩⟩

end Sys2Proof.Machine
end

section
/-! SUPPORT. Buffers cut in two, and two buffers that agree on their first bits (20_memory.md R50, R52). -/

namespace Sys2Proof

theorem bufBit_append_left {a : List Byte} (b : List Byte) {i : Nat} (h : i < 8 * a.length) :
    bufBit (a ++ b) i = bufBit a i := by
  rw [bufBit, List.getD_append _ _ _ _ (by omega), bufBit]

theorem bufBit_append_right (a b : List Byte) (i : Nat) : bufBit (a ++ b) (8 * a.length + i) = bufBit b i := by
  rw [bufBit, Nat.mul_add_div (by decide), Nat.mul_add_mod, List.getD_append_right _ _ _ _ (by omega),
    Nat.add_sub_cancel_left, bufBit]

theorem unpack_add (buf : List Byte) (m n : Nat) :
    unpack buf (m + n) = unpack buf m ++ (List.range n).map fun i => bufBit buf (m + i) := by
  simp [unpack, List.range_add, Function.comp_def]

theorem unpack_append (a b : List Byte) (n : Nat) :
    unpack (a ++ b) (8 * a.length + n) = unpack a (8 * a.length) ++ unpack b n := by
  rw [unpack_add, unpack_congr fun i hi => bufBit_append_left b hi]
  simp only [bufBit_append_right, unpack]

/-- The bits of consecutive pieces are the bits of the whole. -/
theorem flatMap_unpack (pieces : List (List Byte)) :
    pieces.flatMap (fun c => unpack c (8 * c.length)) = unpack pieces.flatten (8 * pieces.flatten.length) := by
  induction pieces with
  | nil => rfl
  | cons c cs ih =>
    rw [List.flatMap_cons, ih, List.flatten_cons, List.length_append, Nat.mul_add, unpack_append]

/-- A byte is what its bits are, so buffers of `m` whole bytes are equal when their bits are. -/
theorem take_eq_of_bufBit_eq {a b : List Byte} {m : Nat} (ha : m ≤ a.length) (hb : m ≤ b.length)
    (h : ∀ i < 8 * m, bufBit a i = bufBit b i) : a.take m = b.take m := by
  apply List.ext_getElem (by simp [ha, hb])
  intro k hk _
  have hkm : k < m := by simp at hk; omega
  rw [List.getElem_take, List.getElem_take]
  apply BitVec.eq_of_getLsbD_eq
  intro j hj
  have hbit := h (8 * k + j) (by omega)
  rw [bufBit_mul_add a k hj, bufBit_mul_add b k hj] at hbit
  simpa [List.getD_eq_getElem?_getD, List.getElem?_eq_getElem (show k < a.length by omega),
    List.getElem?_eq_getElem (show k < b.length by omega)] using hbit

end Sys2Proof
end

section
/-! SUPPORT. The edges of a read and of a write form, whatever the byte chunking (41_shift.md R147, R151, R153). -/

namespace Sys2Proof.Machine

theorem edgesOf_bytesInPieces (ks : List Nat) (own : Owner) :
    edgesOf (ks.map fun m => ⟨.bytesIn, m, true, [], own⟩) = readEdges (8 * ks.sum) := by
  induction ks with
  | nil => rfl
  | cons k ks ih =>
    rw [List.map_cons, edgesOf_cons, ih, List.sum_cons, Nat.mul_add]
    exact List.replicate_append_replicate

theorem edgesOf_readPrims (most n : Nat) (own : Owner) : edgesOf (readPrims most n own) = readEdges n := by
  have hbits : edgesOf (if n % 8 = 0 then [] else [⟨.bitsIn, n % 8, true, [], own⟩]) = readEdges (n % 8) := by
    split
    · next hz => rw [hz]; rfl
    · exact List.append_nil _
  calc edgesOf (readPrims most n own)
      = readEdges (8 * (n / 8)) ++ readEdges (n % 8) := by
        rw [readPrims, edgesOf_append, hbits, edgesOf_bytesInPieces, sum_byteChunks]
    _ = readEdges n := by rw [readEdges, readEdges, List.replicate_append_replicate, Nat.div_add_mod, readEdges]

/-- The whole bytes of a write form, captured or not. -/
theorem primEdges_writeBytes (io : Bool) (b : PrimBody) :
    primEdges ⟨(writeKinds io).1, b⟩ = dataEdges (unpack b.data (8 * b.len)) io := by
  cases io
  · exact primEdges_bytesOut b
  · exact primEdges_bytesIo b

/-- The bits of the last byte, captured or not. -/
theorem primEdges_writeBits (io : Bool) (b : PrimBody) :
    primEdges ⟨(writeKinds io).2.1, b⟩ =
      (List.range b.len).map fun j => ⟨false, (b.data.getD 0 0).getLsbD j, io⟩ := by
  cases io <;> rfl

/-- The exit of a write form, captured or not. -/
theorem primEdges_writeExit (io : Bool) (b : PrimBody) :
    primEdges ⟨(writeKinds io).2.2, b⟩ = tmsEdges (unpack b.data b.len) b.tdi io := by
  cases io
  · exact primEdges_tmsOut b
  · exact primEdges_tmsIo b

/-- Masking a byte to its low `k` bits keeps those bits (R151). -/
theorem getLsbD_and_mask (d : Byte) {k j : Nat} (hj : j < k) :
    (d &&& BitVec.ofNat 8 (2 ^ k - 1)).getLsbD j = d.getLsbD j := by
  by_cases h8 : j < 8
  · simp [BitVec.getLsbD_ofNat, Nat.testBit_two_pow_sub_one, hj, h8]
  · rw [BitVec.getLsbD_of_ge _ _ (by omega), BitVec.getLsbD_of_ge _ _ (by omega)]

/-- The data edges of a write form but the last, which has the TMS bit that leaves Shift, then the pause edge (R153). -/
theorem writeEdges_eq (data : List Byte) {n : Nat} (hn : 1 ≤ n) (p io : Bool) :
    writeEdges data n p io =
      dataEdges (unpack data (n - 1)) io ++ tmsEdges (exitTms p) (dbit data (n - 1)) io := by
  obtain ⟨k, rfl⟩ : ∃ k, n = k + 1 := ⟨n - 1, by omega⟩
  have hlow : (List.range k).map (fun i => (⟨decide (i + 1 = k + 1), dbit data i, io⟩ : Edge)) =
      dataEdges (unpack data k) io := by
    simp only [dataEdges, unpack, List.map_map]
    refine List.map_congr_left fun i hi => ?_
    have hne : i ≠ k := (List.mem_range.mp hi).ne
    simp [hne, dbit]
  rw [writeEdges, List.range_succ, List.map_append, hlow]
  cases p <;> simp [tmsEdges, exitTms]

/-- Bit `i` of the last byte of a write form's data (30_encoding.md R75). -/
theorem dbit_lastByte (data : List Byte) (n : Nat) {i : Nat} (hi : i < 8) :
    dbit data (8 * (byteCount n - 1) + i) = (data.getD (byteCount n - 1) 0).getLsbD i :=
  bufBit_mul_add data _ hi

/-- The data bits of a write form but the last: the whole bytes before the last one, then its low bits. -/
theorem unpack_pred (data : List Byte) {n : Nat} (hn : 1 ≤ n) (hlen : data.length = byteCount n) :
    unpack data (n - 1) =
      unpack (data.take (byteCount n - 1)) (8 * (byteCount n - 1)) ++
        (List.range (lastBits n - 1)).map (data.getD (byteCount n - 1) 0).getLsbD := by
  obtain ⟨hlo, hhi⟩ := lastBits_bounds hn
  have hsplit : n - 1 = 8 * (byteCount n - 1) + (lastBits n - 1) := by have := byteCount_lastBits hn; omega
  have hwhole : unpack data (8 * (byteCount n - 1)) = unpack (data.take (byteCount n - 1)) (8 * (byteCount n - 1)) :=
    unpack_congr fun i hi => by
      conv_lhs => rw [← List.take_append_drop (byteCount n - 1) data]
      exact bufBit_append_left _ (by rw [List.length_take]; omega)
  rw [hsplit, unpack_add, hwhole]
  congr 1
  exact List.map_congr_left fun i hi => dbit_lastByte data n (by have := List.mem_range.mp hi; omega)

/-- The byte primitives of a write form, however its bytes are split. -/
theorem edgesOf_bytePieces (io : Bool) (pieces : List (List Byte)) (o : Owner) :
    edgesOf (pieces.map fun c => ⟨(writeKinds io).1, c.length, false, c, o⟩) =
      dataEdges (unpack pieces.flatten (8 * pieces.flatten.length)) io := by
  rw [← flatMap_unpack, edgesOf, List.flatMap_map, dataEdges, List.map_flatMap]
  exact List.flatMap_congr fun c _ => primEdges_writeBytes io _

theorem edgesOf_writePrims (most : Nat) {n : Nat} (hn : 1 ≤ n) {data : List Byte} (hlen : data.length = byteCount n)
    (p io : Bool) (own : Owner) : edgesOf (writePrims most data n p io own) = writeEdges data n p io := by
  obtain ⟨hlo, hhi⟩ := lastBits_bounds hn
  have hwhole : (data.take (byteCount n - 1)).length = byteCount n - 1 := by rw [List.length_take]; omega
  have hpieces : (splitSizes (byteChunks (byteCount n - 1) most) (data.take (byteCount n - 1))).flatten =
      data.take (byteCount n - 1) := flatten_splitSizes _ _ (by rw [sum_byteChunks, hwhole])
  have hlast : dbit data (n - 1) = (data.getD (byteCount n - 1) 0).getLsbD (lastBits n - 1) := by
    rw [← dbit_lastByte data n (by omega)]
    congr 1
    have := byteCount_lastBits hn
    omega
  rw [writeEdges_eq data hn, unpack_pred data hn hlen, dataEdges_append, hlast, writePrims, edgesOf_append,
    edgesOf_append, edgesOf_bytePieces, hpieces, hwhole]
  congr 1
  · congr 1
    split
    · next hz => rw [hz]; rfl
    · rw [edgesOf_cons, edgesOf_nil, List.append_nil, primEdges_writeBits, dataEdges, List.map_map]
      refine List.map_congr_left fun j hj => ?_
      rw [List.getD_cons_zero, getLsbD_and_mask _ (List.mem_range.mp hj)]
      rfl
  · rw [edgesOf_cons, edgesOf_nil, List.append_nil, primEdges_writeExit, unpack_pack]

end Sys2Proof.Machine
end

section
/-! SUPPORT. The edges of a write form by their index, and their TMS and TDI bits (41_shift.md R152, R153). -/

namespace Sys2Proof.Machine

@[simp] theorem length_writeEdges (data : List Byte) (n : Nat) (p io : Bool) :
    (writeEdges data n p io).length = if p then n + 1 else n := by
  cases p <;> simp [writeEdges]

/-- Edge `i` of the first `n`: the data bit, with TMS 1 on the last one. -/
theorem getElem?_writeEdges (data : List Byte) {n i : Nat} (p io : Bool) (h : i < n) :
    (writeEdges data n p io)[i]? = some ⟨decide (i + 1 = n), dbit data i, io⟩ := by
  rw [writeEdges, List.getElem?_append_left (by simpa using h), getElem?_map_range _ h]

/-- The pause edge holds the last data bit. -/
theorem getElem?_writeEdges_pause (data : List Byte) (n : Nat) (io : Bool) :
    (writeEdges data n true io)[n]? = some ⟨false, dbit data (n - 1), io⟩ := by
  simp [writeEdges]

theorem map_tms_writeEdges (data : List Byte) {n : Nat} (hn : 1 ≤ n) (p io : Bool) :
    (writeEdges data n p io).map (·.tms) = List.replicate (n - 1) false ++ exitTms p := by
  rw [writeEdges_eq data hn]
  simp [dataEdges, tmsEdges, Function.comp_def]

theorem take_map_tdi_writeEdges (data : List Byte) (n : Nat) (p io : Bool) :
    ((writeEdges data n p io).take n).map (·.tdi) = (List.range n).map (dbit data) := by
  rw [writeEdges, List.take_left' (by simp), List.map_map]
  rfl

end Sys2Proof.Machine
end

section
/-! SUPPORT. The primitives of a write form read nothing of its data beyond the count (41_shift.md R148). -/

namespace Sys2Proof.Machine

/-- Two bytes that agree below bit `k` are equal once masked to those bits. -/
theorem and_mask_congr {d e : Byte} {k : Nat} (h : ∀ j < k, d.getLsbD j = e.getLsbD j) :
    d &&& BitVec.ofNat 8 (2 ^ k - 1) = e &&& BitVec.ofNat 8 (2 ^ k - 1) := by
  apply BitVec.eq_of_getLsbD_eq
  intro j hj
  by_cases hk : j < k
  · rw [getLsbD_and_mask d hk, getLsbD_and_mask e hk, h j hk]
  · simp [BitVec.getLsbD_ofNat, Nat.testBit_two_pow_sub_one, hk]

theorem writePrims_congr (most : Nat) {n : Nat} (hn : 1 ≤ n) {a b : List Byte} (ha : a.length = byteCount n)
    (hb : b.length = byteCount n) (h : ∀ i < n, dbit a i = dbit b i) :
    writePrims most a n = writePrims most b n := by
  obtain ⟨hlo, hhi⟩ := lastBits_bounds hn
  have hcount := byteCount_lastBits hn
  have hwhole : a.take (byteCount n - 1) = b.take (byteCount n - 1) :=
    take_eq_of_bufBit_eq (by omega) (by omega) fun i hi => h i (by omega)
  have hlast : ∀ j < lastBits n,
      (a.getD (byteCount n - 1) 0).getLsbD j = (b.getD (byteCount n - 1) 0).getLsbD j := fun j hj => by
    rw [← dbit_lastByte a n (by omega), ← dbit_lastByte b n (by omega)]
    exact h _ (by omega)
  have hexit := hlast (lastBits n - 1) (by omega)
  have hmasked := and_mask_congr (k := lastBits n - 1) fun j hj => hlast j (by omega)
  funext p io own
  simp only [writePrims, hwhole, hexit, hmasked]

end Sys2Proof.Machine
end

section
/-! The statements about the edges of a shift and about unused payload bits (41_shift.md R148, R153). -/

namespace Sys2Proof.Machine

/-- Settles O40: chunking is gone in `edgesOf_readPrims` and `edgesOf_writePrims`; the edges stand by their index. -/
theorem shiftEdgesInOnePlace : Obligations.ShiftEdgesInOnePlace := by
  refine fun most n own p data _ hn hlen => ⟨edgesOf_readPrims most n own, fun io => ?_⟩
  rw [edgesOf_writePrims most hn hlen]
  refine ⟨length_writeEdges data n p io, fun i hi => ?data, ?exit, ?pause⟩
  case data =>
    rw [getElem?_writeEdges data p io (by omega), decide_eq_false (by omega)]
  case exit =>
    rw [getElem?_writeEdges data p io (by omega), decide_eq_true (by omega)]
  case pause =>
    rintro rfl
    exact getElem?_writeEdges_pause data n io

/-- Settles O42: the three commands use their data in `writePrims` alone. -/
theorem unusedWriteBitsIgnored : Obligations.UnusedWriteBitsIgnored := by
  intro s n p a b hn ha hb hbits
  have hprims : ∀ most, writePrims most a n = writePrims most b n := fun most => writePrims_congr most hn ha hb hbits
  simp only [exec, execWriteData, execReadWriteData, execQueueReadWrite, hprims, and_self]

end Sys2Proof.Machine
end

section
/-! SUPPORT. What a delivery gives each owner (20_memory.md R59): the TDO bits of the captured edges of its own
primitives, in order. -/

namespace Sys2Proof.Machine

/-- The TDO bits that the primitives of one owner capture when `ps` is delivered from a trace position. -/
def bitsOwnedBy (o : TdoOracle) (own : Owner) : Nat → List Prim → List Bool
  | _, [] => []
  | pos, p :: ps =>
    (if p.body.own = own then tdoBits (sampleEdges o pos (primEdges p)) else []) ++
      bitsOwnedBy o own (pos + (primEdges p).length) ps

theorem bitsOwnedBy_entry (o : TdoOracle) (k pos : Nat) (ps : List Prim) :
    bitsOwnedBy o (.entry k) pos ps = ownedBits o k pos ps := by
  induction ps generalizing pos with
  | nil => rfl
  | cons p ps ih => rw [bitsOwnedBy, ownedBits, ih]

theorem bitsOwnedBy_append (o : TdoOracle) (own : Owner) (pos : Nat) (ps qs : List Prim) :
    bitsOwnedBy o own pos (ps ++ qs) =
      bitsOwnedBy o own pos ps ++ bitsOwnedBy o own (pos + (edgesOf ps).length) qs := by
  induction ps generalizing pos with
  | nil => rfl
  | cons p ps ih =>
    rw [List.cons_append, bitsOwnedBy, bitsOwnedBy, ih, edgesOf_cons, List.length_append, Nat.add_assoc,
      List.append_assoc]

/-- An owner of none of the primitives gets nothing. -/
theorem bitsOwnedBy_of_not_owned (o : TdoOracle) {own : Owner} (pos : Nat) {ps : List Prim}
    (h : ∀ p ∈ ps, p.body.own ≠ own) : bitsOwnedBy o own pos ps = [] := by
  induction ps generalizing pos with
  | nil => rfl
  | cons p ps ih =>
    rw [bitsOwnedBy, if_neg (h p List.mem_cons_self), ih _ fun q hq => h q (List.mem_cons_of_mem p hq),
      List.nil_append]

/-- The owner of all of the primitives gets every captured bit. -/
theorem bitsOwnedBy_of_owned (o : TdoOracle) {own : Owner} (pos : Nat) {ps : List Prim}
    (h : ∀ p ∈ ps, p.body.own = own) : bitsOwnedBy o own pos ps = tdoBits (sampleEdges o pos (edgesOf ps)) := by
  induction ps generalizing pos with
  | nil => rfl
  | cons p ps ih =>
    rw [bitsOwnedBy, if_pos (h p List.mem_cons_self), ih _ fun q hq => h q (List.mem_cons_of_mem p hq), edgesOf_cons,
      sampleEdges_append, tdoBits_append]

/-- An entry once `ps` has been delivered from a trace position. -/
def Entry.afterDelivery (o : TdoOracle) (pos : Nat) (ps : List Prim) (e : Entry) : Entry :=
  { e with cap := e.cap ++ ownedBits o e.id pos ps, undelivered := e.undelivered - (ownedBy e.id ps).length }

theorem afterDelivery_nil (o : TdoOracle) (pos : Nat) (e : Entry) : e.afterDelivery o pos [] = e := by
  simp [Entry.afterDelivery, ownedBits, ownedBy]

theorem afterDelivery_cons (o : TdoOracle) (pos : Nat) (p : Prim) (ps : List Prim) (e : Entry) :
    e.afterDelivery o pos (p :: ps) =
      (e.afterDelivery o pos [p]).afterDelivery o (pos + (primEdges p).length) ps := by
  have hcount : (ownedBy e.id (p :: ps)).length = (ownedBy e.id [p]).length + (ownedBy e.id ps).length := by
    rw [ownedBy, ← List.singleton_append, List.filter_append, List.length_append]
    rfl
  simp only [Entry.afterDelivery, ownedBits, hcount, List.append_nil, List.append_assoc, Nat.sub_add_eq]

theorem afterDelivery_singleton (o : TdoOracle) (pos : Nat) (p : Prim) (e : Entry) :
    e.afterDelivery o pos [p] =
      if p.body.own = .entry e.id then Ops.Entry.receive (tdoBits (sampleEdges o pos (primEdges p))) e else e := by
  split
  · next h => simp [Entry.afterDelivery, Ops.Entry.receive, ownedBits, ownedBy, h]
  · next h => simp [Entry.afterDelivery, ownedBits, ownedBy, h]

namespace Ops

variable {p : Prim} {ps : List Prim}

theorem clock_rrq (h : rawFits p) (s : State) :
    (clock p s).rrq = s.rrq.map (Entry.afterDelivery s.env.oracle s.trace.length [p]) := by
  have hbits := capturedBits_eq_tdoBits h s.env.rawLow s.env.oracle s.trace.length
  rw [clock, sampledNow, hbits]
  cases hown : p.body.own with
  | none | sync => simp [route, afterDelivery_singleton, hown, List.map_id'']
  | entry k =>
    refine List.map_congr_left fun e _ => ?_
    simp [afterDelivery_singleton, hown, eq_comm]

theorem clock_syncCap (h : rawFits p) (s : State) :
    (clock p s).syncCap = s.syncCap ++ bitsOwnedBy s.env.oracle .sync s.trace.length [p] := by
  have hbits := capturedBits_eq_tdoBits h s.env.rawLow s.env.oracle s.trace.length
  rw [clock, sampledNow, hbits]
  cases hown : p.body.own with
  | none | entry k => simp [route, bitsOwnedBy, hown]
  | sync => simp [bitsOwnedBy, hown]

/-- Every entry gets the bits of its own primitives, in order. -/
theorem clockAll_rrq (h : ∀ p ∈ ps, rawFits p) (s : State) :
    (clockAll ps s).rrq = s.rrq.map (Entry.afterDelivery s.env.oracle s.trace.length ps) := by
  induction ps generalizing s with
  | nil => exact (List.map_id'' (afterDelivery_nil _ _) _).symm
  | cons p ps ih =>
    rw [clockAll_cons, ih (fun q hq => h q (List.mem_cons_of_mem p hq)), clock_rrq (h p List.mem_cons_self),
      List.map_map]
    refine List.map_congr_left fun e _ => ?_
    simp [afterDelivery_cons _ _ p ps, sampledNow]

/-- The synchronous read gets the bits of its own primitives, in order. -/
theorem clockAll_syncCap (h : ∀ p ∈ ps, rawFits p) (s : State) :
    (clockAll ps s).syncCap = s.syncCap ++ bitsOwnedBy s.env.oracle .sync s.trace.length ps := by
  induction ps generalizing s with
  | nil => exact (List.append_nil _).symm
  | cons p ps ih =>
    rw [clockAll_cons, ih (fun q hq => h q (List.mem_cons_of_mem p hq)), clock_syncCap (h p List.mem_cons_self)]
    simp [bitsOwnedBy, sampledNow]

end Ops
end Sys2Proof.Machine
end

section
/-! SUPPORT. The primitives whose raw capture has room for its bits: those in `opb` of a state that meets the
invariant, and those of a write form (30_encoding.md R86, 41_shift.md R151). -/

namespace Sys2Proof.Machine

theorem rawFits_of_sound {c : Params} {p : Prim} (h : Prim.sound c p = true) : rawFits p := by
  obtain ⟨kind, b⟩ := p
  simp only [Prim.sound, Bool.and_eq_true, decide_eq_true_eq] at h
  obtain ⟨hwf, hexit⟩ := h
  intro hkind
  cases kind with
  | tmsIo => exact Nat.le_trans (hexit rfl) (by decide)
  | bitsIn | bitsIo =>
    simp only [Instr.ofPrim, Instr.wellFormed, lenWithin, Bool.and_eq_true, decide_eq_true_eq] at hwf
    dsimp only
    omega
  | tmsOut | bytesOut | bytesIn | bytesIo | bitsOut => simp [capturesSubByte] at hkind

theorem rawFits_of_mem_writePrims {most n : Nat} (hn : 1 ≤ n) {data : List Byte} {pause io : Bool} {own : Owner}
    {p : Prim} (h : p ∈ writePrims most data n pause io own) : rawFits p := by
  obtain ⟨hlo, hhi⟩ := lastBits_bounds hn
  unfold writePrims at h
  simp only [List.mem_append] at h
  rcases h with (h | h) | h
  · obtain ⟨c, -, rfl⟩ := List.mem_map.mp h
    have hbytes : ¬ capturesSubByte (writeKinds io).1 := by cases io <;> decide
    exact fun hkind => absurd hkind hbytes
  · split at h
    · exact absurd h List.not_mem_nil
    · obtain rfl := List.mem_singleton.mp h
      have hbits : lastBits n - 1 ≤ 8 := by omega
      exact fun _ => hbits
  · obtain rfl := List.mem_singleton.mp h
    have hexit : (exitTms pause).length ≤ 8 := by cases pause <;> decide
    exact fun _ => hexit

end Sys2Proof.Machine
end

section
/-! SUPPORT. The commands that shift, in RUN: what they emit, and the state once a forced delivery has delivered it
(41_shift.md R155 to R157, 42_queue.md R182, R190). -/

namespace Sys2Proof.Machine

namespace Ops

theorem checkShift_eq (s : State) : checkShift s = { s with ofaults := s.checkedOfaults } := by
  unfold checkShift State.checkedOfaults
  split <;> rfl

/-- Emitting the primitives of a write form walks the TAP along its edges, whatever the byte chunking. -/
theorem emitAll_writePrims (most : Nat) {n : Nat} (hn : 1 ≤ n) {data : List Byte} (hlen : data.length = byteCount n)
    (p io : Bool) (own : Owner) (s : State) :
    emitAll (writePrims most data n p io own) s =
      { s with
        opb := s.opb ++ writePrims most data n p io own
        tap := walk s.tap ((writeEdges data n p io).map (·.tms)) } := by
  rw [emitAll, flatMap_tmsOf, edgesOf_writePrims most hn hlen]

end Ops

/-- A synchronous read with its primitives emitted and the whole of `opb` delivered (R155, R157). -/
def syncDelivered (ps : List Prim) (s : State) : State :=
  Ops.clockAll (s.opb ++ ps)
    { s with opb := [], tap := walk s.tap ((edgesOf ps).map (·.tms)), ofaults := s.checkedOfaults, syncCap := [] }

theorem syncDelivered_frame (ps : List Prim) (s : State) :
    syncDelivered ps s = { s with
      opb := [], tap := walk s.tap ((edgesOf ps).map (·.tms)), ofaults := s.checkedOfaults
      trace := s.trace ++ sampleEdges s.env.oracle s.trace.length (edgesOf s.opb ++ edgesOf ps)
      rrq := (syncDelivered ps s).rrq, syncCap := (syncDelivered ps s).syncCap } := by
  conv_lhs => rw [syncDelivered, Ops.clockAll_frame, Ops.clockAll_trace, edgesOf_append]
  rfl

/-- With no earlier primitive owned by a synchronous read, it captures the bits of its own edges alone. -/
theorem syncDelivered_syncCap {ps : List Prim} {s : State} (hopb : ∀ p ∈ s.opb, rawFits p ∧ p.body.own ≠ .sync)
    (hps : ∀ p ∈ ps, rawFits p ∧ p.body.own = .sync) :
    (syncDelivered ps s).syncCap =
      tdoBits (sampleEdges s.env.oracle (s.trace.length + (edgesOf s.opb).length) (edgesOf ps)) := by
  have hfits : ∀ p ∈ s.opb ++ ps, rawFits p := fun p hp =>
    (List.mem_append.mp hp).elim (fun h => (hopb p h).1) (fun h => (hps p h).1)
  rw [syncDelivered, Ops.clockAll_syncCap hfits, bitsOwnedBy_append,
    bitsOwnedBy_of_not_owned _ _ fun p hp => (hopb p hp).2, bitsOwnedBy_of_owned _ _ fun p hp => (hps p hp).2]
  rfl

theorem exec_writeData_run {s : State} (hrun : s.mode = .run) {n : Nat} (hn : 1 ≤ n) {data : List Byte}
    (hlen : data.length = byteCount n) (p : Bool) :
    exec (.writeData n p data) s = .next { s with
      opb := s.opb ++ writePrims s.params.bytesMax data n p false .none
      tap := walk s.tap ((writeEdges data n p false).map (·.tms)), ofaults := s.checkedOfaults
      responses := s.responses ++ [⟨.ok, []⟩], cmdIdx := s.cmdIdx + 1 } := by
  change execWriteData n p data s = _
  rw [execWriteData, Ops.runCounted_pos _ _ _ hrun hn, Ops.emitAll_writePrims _ hn hlen, Ops.checkShift_eq]
  rfl

theorem exec_readWriteData_ok {s : State} (hrun : s.mode = .run) (hok : s.env.transportOk = true) {n : Nat}
    (hn : 1 ≤ n) {data : List Byte} (p : Bool) :
    let d := syncDelivered (writePrims s.params.bytesMax data n p true .sync) s
    exec (.readWriteData n p data) s = .next { d with
      responses := s.responses ++ [⟨.ok, d.syncCap.take n⟩], cmdIdx := s.cmdIdx + 1 } := by
  intro d
  change execReadWriteData n p data s = _
  rw [execReadWriteData, Ops.runCounted_pos _ _ _ hrun hn, Ops.forceDelivery_ok _ _ (by simpa using hok),
    Ops.checkShift_eq, Ops.emitAll, flatMap_tmsOf]
  change Host.Outcome.next { Ops.respond .ok (d.syncCap.take n) d with cmdIdx := d.cmdIdx + 1 } = _
  have hresponses : d.responses = s.responses := by rw [show d = _ from syncDelivered_frame _ s]
  have hidx : d.cmdIdx = s.cmdIdx := by rw [show d = _ from syncDelivered_frame _ s]
  rw [Ops.respond, hresponses, hidx]

theorem exec_queueReadWrite_accepted {s : State} (hrun : s.mode = .run) (hroom : s.rrq.length < s.params.rrqDepth)
    {n : Nat} (hn : 1 ≤ n) {data : List Byte} (hlen : data.length = byteCount n) (p : Bool) :
    let ps := writePrims s.params.bytesMax data n p true (.entry s.nextId)
    exec (.queueReadWrite n p data) s = .next { s with
      opb := s.opb ++ ps, rrq := s.rrq ++ [⟨s.nextId, n, .readWrite, [], ps.length⟩], nextId := s.nextId + 1
      tap := walk s.tap ((writeEdges data n p true).map (·.tms)), ofaults := s.checkedOfaults
      responses := s.responses ++ [⟨.ok, []⟩], cmdIdx := s.cmdIdx + 1 } := by
  intro ps
  change execQueueReadWrite n p data s = _
  rw [execQueueReadWrite, Ops.runCounted_pos _ _ _ hrun hn, Ops.enqueue_accepted _ _ _ _ hroom,
    Ops.emitAll_writePrims _ hn hlen, Ops.checkShift_eq]
  rfl

/-- FINISH_READ on an incomplete head delivers the whole of `opb`, then answers the bits the head has by then. -/
theorem exec_finishRead_undelivered {s : State} (hrun : s.mode = .run) (hok : s.env.transportOk = true)
    (hfits : ∀ p ∈ s.opb, rawFits p) {e : Entry} {rest : List Entry} (hrrq : s.rrq = e :: rest) (hn : 1 ≤ e.n)
    (hund : 0 < e.undelivered) :
    ∃ u, exec (.finishRead e.n) s = .next u ∧
      u.responses = s.responses ++
        [⟨.ok, (e.cap ++ ownedBits s.env.oracle e.id s.trace.length s.opb).take e.n⟩] := by
  change ∃ u, execFinishRead e.n s = .next u ∧ _
  have hdelivered : (Ops.clockAll s.opb { s with opb := [] }).rrq =
      (e :: rest).map (Entry.afterDelivery s.env.oracle s.trace.length s.opb) := by
    rw [Ops.clockAll_rrq hfits, ← hrrq]
  rw [execFinishRead, Ops.runCounted_pos _ _ _ hrun hn]
  simp only [hrrq, ne_eq, not_true_eq_false, if_false, hund, if_true]
  rw [Ops.forceDelivery_ok _ _ hok, Ops.retire_cons _ _ _ _ hdelivered]
  exact ⟨_, rfl, by rw [Ops.clockAll_frame]; rfl⟩

end Sys2Proof.Machine
end

section
/-! The statement about the exit of the three write forms (41_shift.md R152). -/

namespace Sys2Proof.Machine

/-- A trace record is of the edge that was sampled (10_state.md R30). -/
@[simp] theorem map_edge_sampleEdges (o : TdoOracle) (pos : Nat) (es : List Edge) :
    (sampleEdges o pos es).map TraceEdge.edge = es := by
  induction es generalizing pos with
  | nil => rfl
  | cons e es ih =>
    have hedge : (e.sampled o pos).edge = e := by
      obtain ⟨tms, tdi, capture⟩ := e
      cases capture <;> rfl
    rw [sampleEdges, List.map_cons, hedge, ih]

/-- An accepted write form issues its edges and walks the TAP along them. -/
theorem exec_writeForm_ok {s : State} (hrun : s.mode = .run) (hok : s.env.transportOk = true)
    (hroom : s.rrq.length < s.params.rrqDepth) {n : Nat} (hn : 1 ≤ n) {data : List Byte}
    (hlen : data.length = byteCount n) {p : Bool} {i : Instr}
    (hi : i ∈ [Instr.writeData n p data, .readWriteData n p data, .queueReadWrite n p data]) :
    ∃ t io, exec i s = .next t ∧ commandEdges s i = writeEdges data n p io ∧
      t.tap = walk s.tap ((writeEdges data n p io).map (·.tms)) ∧ t.issued = s.issued ++ writeEdges data n p io := by
  simp only [List.mem_cons, List.not_mem_nil, or_false] at hi
  obtain rfl | rfl | rfl := hi
  · refine ⟨_, false, exec_writeData_run hrun hn hlen p, if_pos ⟨hrun, hn⟩, rfl, ?_⟩
    simp [State.issued, edgesOf_writePrims _ hn hlen]
  · refine ⟨_, true, exec_readWriteData_ok hrun hok hn p, if_pos ⟨hrun, hn⟩, ?_, ?_⟩
    · rw [syncDelivered_frame, edgesOf_writePrims _ hn hlen]
    · rw [syncDelivered_frame, edgesOf_writePrims _ hn hlen]
      simp [State.issued]
  · refine ⟨_, true, exec_queueReadWrite_accepted hrun hroom hn hlen p, if_pos ⟨hrun, hn, hroom⟩, rfl, ?_⟩
    simp [State.issued, edgesOf_writePrims _ hn hlen]

/-- From Shift states the data edges of a write form but the last move nothing, so its exit bits alone do. -/
theorem walk_writeEdges_of_shift {S : List TapState} (hcanon : S = TapState.all.filter fun t => decide (t ∈ S))
    (hshift : ∀ x ∈ S, x = .shiftDR ∨ x = .shiftIR) (data : List Byte) {n : Nat} (hn : 1 ≤ n) (p io : Bool) :
    walk S ((writeEdges data n p io).map (·.tms)) = walk S (exitTms p) := by
  rw [map_tms_writeEdges data hn, walk_append, walk_replicate_false_of_shift hcanon hshift]

/-- Settles O41: the edges issued by `exec_writeForm_ok`; of the walk along them only the exit bits are left, and the
walk along those is closed. -/
theorem writeFormsExitShift : Obligations.WriteFormsExitShift := by
  intro s n p data i hrun hok _ hn hlen hroom hi
  obtain ⟨t, io, hexec, hedges, htap, hissued⟩ := exec_writeForm_ok hrun hok hroom hn hlen hi
  have hexit : ∀ S : List TapState, S = (TapState.all.filter fun x => decide (x ∈ S)) →
      (∀ x ∈ S, x = .shiftDR ∨ x = .shiftIR) → s.tap = S → t.tap = walk S (exitTms p) := by
    intro S hcanon hshift hS
    rw [htap, hS, walk_writeEdges_of_shift hcanon hshift data hn]
  refine ⟨t, hexec, fun hS => ?dr, fun hS => ?ir, fun hS => ?both, ?tdi, ?issued⟩
  case dr | ir | both =>
    rw [hexit _ (by decide) (by decide) hS]
    cases p <;> decide
  case tdi => rw [hedges, take_map_tdi_writeEdges]
  case issued => rw [hissued, hedges]

end Sys2Proof.Machine
end

section
/-! The statement about a loopback (41_shift.md R168). -/

namespace Sys2Proof.Machine

/-- A loopback captures the TDI bits. -/
theorem tdoBits_loopback (pos : Nat) {es : List Edge} (h : ∀ e ∈ es, e.capture = true) :
    tdoBits (sampleEdges .loopback pos es) = es.map (·.tdi) := by
  induction es generalizing pos with
  | nil => rfl
  | cons e es ih =>
    have he : e.sampled .loopback pos = ⟨e.tms, e.tdi, some e.tdi⟩ := by
      rw [Edge.sampled, h e List.mem_cons_self]
      rfl
    rw [sampleEdges, he, List.map_cons, ← ih _ fun x hx => h x (List.mem_cons_of_mem e hx)]
    rfl

theorem capture_of_mem_writeEdges {data : List Byte} {n : Nat} {p io : Bool} {e : Edge}
    (he : e ∈ writeEdges data n p io) : e.capture = io := by
  obtain he | he := List.mem_append.mp he
  · obtain ⟨i, -, rfl⟩ := List.mem_map.mp he
    rfl
  · cases p
    · exact absurd he List.not_mem_nil
    · rw [List.mem_singleton.mp he]

/-- The first `n` bits that the primitives of a capturing write form give their owner under a loopback. -/
theorem take_tdoBits_writePrims_loopback (most pos : Nat) {n : Nat} (hn : 1 ≤ n) {data : List Byte}
    (hlen : data.length = byteCount n) (p : Bool) (own : Owner) :
    (tdoBits (sampleEdges .loopback pos (edgesOf (writePrims most data n p true own)))).take n =
      (List.range n).map (dbit data) := by
  rw [edgesOf_writePrims most hn hlen, tdoBits_loopback pos fun e => capture_of_mem_writeEdges, ← List.map_take,
    take_map_tdi_writeEdges]

section
variable {s : State}

theorem rawFits_of_mem_opb (hbuf : s.BufferOk) : ∀ x ∈ s.opb, rawFits x :=
  fun x hx => rawFits_of_sound (hbuf x hx).1

theorem own_ne_sync_of_mem_opb (hbuf : s.BufferOk) : ∀ x ∈ s.opb, x.body.own ≠ .sync := by
  intro x hx hsync
  have hknown := (hbuf x hx).2
  rw [hsync] at hknown
  exact Bool.false_ne_true hknown

/-- No primitive is owned by the entry that a queue command would create. -/
theorem own_ne_nextId_of_mem_opb (hbuf : s.BufferOk) (hqueue : s.QueueOk) :
    ∀ x ∈ s.opb, x.body.own ≠ .entry s.nextId := by
  intro x hx hown
  have hknown := (hbuf x hx).2
  rw [hown] at hknown
  obtain ⟨e, he, hid⟩ := List.mem_map.mp (of_decide_eq_true hknown)
  obtain ⟨-, -, hentries⟩ := hqueue
  exact absurd hid (hentries e he).1.ne

/-- The bits a new entry is to get: those of its own primitives, none of the ones before. -/
theorem ownedBits_nextId (hbuf : s.BufferOk) (hqueue : s.QueueOk) (o : TdoOracle) (pos most n : Nat)
    (data : List Byte) (p : Bool) :
    ownedBits o s.nextId pos (s.opb ++ writePrims most data n p true (.entry s.nextId)) =
      tdoBits (sampleEdges o (pos + (edgesOf s.opb).length)
        (edgesOf (writePrims most data n p true (.entry s.nextId)))) := by
  rw [← bitsOwnedBy_entry, bitsOwnedBy_append, bitsOwnedBy_of_not_owned _ _ (own_ne_nextId_of_mem_opb hbuf hqueue),
    List.nil_append]
  exact bitsOwnedBy_of_owned o _ fun _ hx => own_writePrims hx

/-- The newest entry of the queue once `opb` has been delivered. -/
theorem getLast?_completed {older : List Entry} {e : Entry} (h : s.rrq = older ++ [e]) :
    s.completed.getLast? =
      some { e with cap := e.cap ++ ownedBits s.env.oracle e.id s.trace.length s.opb, undelivered := 0 } := by
  rw [State.completed, h, List.map_append]
  exact List.getLast?_concat

end

/-- From an empty queue FINISH_READ answers the bits of the entry that the write form before it has queued. -/
theorem exec_queueReadWrite_finishRead {s : State} (hrun : s.mode = .run) (hok : s.env.transportOk = true)
    (hfits : ∀ x ∈ s.opb, rawFits x) (hempty : s.rrq = []) (hdepth : 1 ≤ s.params.rrqDepth) {n : Nat} (hn : 1 ≤ n)
    {data : List Byte} (hlen : data.length = byteCount n) (p : Bool) :
    let ps := writePrims s.params.bytesMax data n p true (.entry s.nextId)
    ∃ t u, exec (.queueReadWrite n p data) s = .next t ∧ exec (.finishRead n) t = .next u ∧
      u.responses = s.responses ++
        [⟨.ok, []⟩, ⟨.ok, (ownedBits s.env.oracle s.nextId s.trace.length (s.opb ++ ps)).take n⟩] := by
  intro ps
  have hroom : s.rrq.length < s.params.rrqDepth := by rw [hempty]; exact hdepth
  obtain ⟨t, hexec, ht⟩ : ∃ t, exec (.queueReadWrite n p data) s = .next t ∧ t = _ :=
    ⟨_, exec_queueReadWrite_accepted hrun hroom hn hlen p, rfl⟩
  have htfits : ∀ x ∈ t.opb, rawFits x := fun x hx => by
    rw [ht] at hx
    exact (List.mem_append.mp hx).elim (hfits x) (rawFits_of_mem_writePrims hn)
  have htrrq : t.rrq = [⟨s.nextId, n, .readWrite, [], ps.length⟩] := by rw [ht, hempty, List.nil_append]
  have hundelivered : 0 < ps.length := by
    rw [length_writePrims _ _ _ _ _ _ hn]
    exact Nat.succ_pos _
  obtain ⟨u, hfinish, hanswer⟩ :=
    exec_finishRead_undelivered (by rw [ht]; exact hrun) (by rw [ht]; exact hok) htfits htrrq hn hundelivered
  exact ⟨t, u, hexec, hfinish, by rw [hanswer, ht, List.append_assoc]; rfl⟩

/-- Settles O47: the owner gets the bits of the write form's own edges, and a loopback makes them the data bits. -/
theorem loopbackReturnsWrittenBits : Obligations.LoopbackReturnsWrittenBits := by
  intro s n p data hinv hrun hok hloop hn _ hlen
  obtain ⟨⟨-, -, hdepth⟩, -, -, -, hbuf, hqueue, -, -⟩ := hinv
  have hfits := rawFits_of_mem_opb hbuf
  have hentry : (ownedBits s.env.oracle s.nextId s.trace.length
      (s.opb ++ writePrims s.params.bytesMax data n p true (.entry s.nextId))).take n =
        (List.range n).map (dbit data) := by
    rw [ownedBits_nextId hbuf hqueue, hloop, take_tdoBits_writePrims_loopback _ _ hn hlen]
  refine ⟨⟨_, exec_readWriteData_ok hrun hok hn p, ?sync⟩,
    fun hroom => ⟨_, _, exec_queueReadWrite_accepted hrun hroom hn hlen p, getLast?_completed rfl, hentry⟩,
    fun hempty => ?finish⟩
  case sync =>
    have hcap := syncDelivered_syncCap (s := s) (ps := writePrims s.params.bytesMax data n p true .sync)
      (fun x hx => ⟨hfits x hx, own_ne_sync_of_mem_opb hbuf x hx⟩)
      fun x hx => ⟨rawFits_of_mem_writePrims hn hx, own_writePrims hx⟩
    rw [hcap, hloop, take_tdoBits_writePrims_loopback _ _ hn hlen]
  case finish =>
    obtain ⟨t, u, hqueued, hfinish, hanswer⟩ :=
      exec_queueReadWrite_finishRead hrun hok hfits hempty hdepth hn hlen p
    exact ⟨t, u, hqueued, hfinish, by rw [hanswer, hentry]⟩

end Sys2Proof.Machine
end

section
/-! SUPPORT. The queue commands and FINISH_READ in RUN, by what the queue admits (42_queue.md R181, R182, R191). -/

namespace Sys2Proof.Machine

@[simp] theorem map_tms_readEdges (n : Nat) : (readEdges n).map (·.tms) = List.replicate n false :=
  List.map_replicate

namespace Ops

/-- Emitting the primitives of a read walks the TAP along its edges, TMS 0 on each, whatever the byte chunking. -/
theorem emitAll_readPrims (most n : Nat) (own : Owner) (s : State) :
    emitAll (readPrims most n own) s =
      { s with opb := s.opb ++ readPrims most n own, tap := walk s.tap (List.replicate n false) } := by
  rw [emitAll, flatMap_tmsOf, edgesOf_readPrims, map_tms_readEdges]

/-- A queue command on a full queue is counted and answers QUEUE_FULL, whatever its kind and its primitives (R181). -/
theorem runCounted_enqueue_full {s : State} (hrun : s.mode = .run) (hfull : s.params.rrqDepth ≤ s.rrq.length)
    {n : Nat} (hn : 1 ≤ n) (kind : EntryKind) (prims : State → Owner → List Prim) :
    runCounted n (fun s => enqueue n kind (prims s) s) s =
      { s with responses := s.responses ++ [⟨.queueFull, []⟩], cmdIdx := s.cmdIdx + 1 } := by
  rw [runCounted_pos _ _ _ hrun hn, enqueue_full _ _ _ _ hfull]
  rfl

/-- A counted command whose body raises a fault takes it, and changes nothing else but the count (60_exceptions.md
R226). -/
theorem runCounted_fault {s : State} (hrun : s.mode = .run) {n : Nat} (hn : 1 ≤ n) {body : State → State}
    {code : Status} (hbody : body s = raiseFault code s) :
    runCounted n body s = { s with
      mode := .faulted, faultCause := code, responses := s.responses ++ [⟨code, []⟩], cmdIdx := s.cmdIdx + 1 } := by
  rw [runCounted_pos _ _ _ hrun hn, hbody, raiseFault_run _ _ hrun]

end Ops

theorem exec_queueRead_accepted {s : State} (hrun : s.mode = .run) (hroom : s.rrq.length < s.params.rrqDepth)
    {n : Nat} (hn : 1 ≤ n) :
    let ps := readPrims s.params.bytesMax n (.entry s.nextId)
    exec (.queueRead n) s = .next { s with
      opb := s.opb ++ ps, rrq := s.rrq ++ [⟨s.nextId, n, .read, [], ps.length⟩], nextId := s.nextId + 1
      tap := walk s.tap (List.replicate n false), ofaults := s.checkedOfaults
      responses := s.responses ++ [⟨.ok, []⟩], cmdIdx := s.cmdIdx + 1 } := by
  intro ps
  change execQueueRead n s = _
  rw [execQueueRead, Ops.runCounted_pos _ _ _ hrun hn, Ops.enqueue_accepted _ _ _ _ hroom, Ops.emitAll_readPrims,
    Ops.checkShift_eq]
  rfl

end Sys2Proof.Machine
end

section
/-! The statements about admission to the queue and about the faults of FINISH_READ (42_queue.md R181, R182, R191). -/

namespace Sys2Proof.Machine

/-- Settles O48: the primitives are `ReadPrims` and `WritePrims` owned by the new entry, whose edges, owners and
counts are lemmas of their own. -/
theorem queueCommandsCreateEntries : Obligations.QueueCommandsCreateEntries := by
  intro s n p data hrun _ hn hlen hroom
  refine ⟨⟨readPrims s.params.bytesMax n (.entry s.nextId), edgesOf_readPrims _ n _, fun _ => own_readPrims,
      length_readPrims _ n _, ?read⟩,
    ⟨writePrims s.params.bytesMax data n p true (.entry s.nextId), edgesOf_writePrims _ hn hlen p true _,
      fun _ => own_writePrims, length_writePrims _ data n p true _ hn, ?write⟩⟩
  case read => exact exec_queueRead_accepted hrun hroom hn
  case write => exact exec_queueReadWrite_accepted hrun hroom hn hlen p

/-- Settles O29: FINISH_READ raises its fault on each of the two queues, and `runCounted_fault` says what that does. -/
theorem finishReadMismatchFaults : Obligations.FinishReadMismatchFaults := by
  refine ⟨fun s n hrun hn hempty => ?empty, fun s n e rest hrun hn hhead hne => ?mismatch⟩
  case empty => exact congrArg _ (Ops.runCounted_fault hrun hn (by simp only [hempty]))
  case mismatch => exact congrArg _ (Ops.runCounted_fault hrun hn (by simp only [hhead, if_pos hne]))

/-- Settles O30: both queue commands are refused alike, before their primitives are looked at. -/
theorem fullQueueRefuses : Obligations.FullQueueRefuses := by
  intro s n p data hrun hn hfull
  exact ⟨congrArg _ (Ops.runCounted_enqueue_full hrun hfull hn .read fun s => readPrims s.params.bytesMax n),
    congrArg _ (Ops.runCounted_enqueue_full hrun hfull hn .readWrite fun s =>
      writePrims s.params.bytesMax data n p true), rfl⟩

end Sys2Proof.Machine
end

section
/-! SUPPORT. What a decoded command is made of, and the bytes it takes off the stream (30_encoding.md R73, R76). -/

namespace Sys2Proof

/-- A decoded command is a legal word with its whole payload. -/
theorem decodeWord_eq_command {w : Word} {bs rest : List Byte} {i : Instr} (h : decodeWord w bs = .command i rest) :
    ∃ op payload, i = Instr.ofCommand op (countField w) (pField w) (tField w) payload ∧ bs = payload ++ rest ∧
      payload.length = payloadLength w := by
  cases hl : illegalReason w with
  | some why => simp [decodeWord_illegal hl] at h
  | none =>
    obtain ⟨op, ho⟩ := ofBits_of_legal hl
    have hwhole : payloadLength w ≤ bs.length := by
      rw [← Nat.not_lt, ← decodeWord_eq_incomplete_iff, h]
      exact Decoded.noConfusion
    have htake : (bs.take (payloadLength w)).length = payloadLength w := List.length_take_of_le hwhole
    rw [← List.take_append_drop (payloadLength w) bs,
      decodeWord_legal hl ho (htake.trans (payloadLength_legal hl ho))] at h
    cases h
    exact ⟨op, _, rfl, (List.take_append_drop _ bs).symm, htake⟩

/-- A decoded command begins with the four bytes of its word. -/
theorem decode_eq_command {bs rest : List Byte} {i : Instr} (h : decode bs = .command i rest) :
    ∃ b0 b1 b2 b3 tail, bs = b0 :: b1 :: b2 :: b3 :: tail ∧
      decodeWord (bytesWord b0 b1 b2 b3) tail = .command i rest := by
  unfold decode at h
  split at h
  · exact ⟨_, _, _, _, _, rfl, h⟩
  · exact Decoded.noConfusion h

@[simp] theorem toPrim_ofCommand (op : Opcode) (n : Nat) (p t : Bool) (payload : List Byte) :
    (Instr.ofCommand op n p t payload).toPrim = none := by cases op <;> rfl

/-- The command stream carries no primitives. -/
theorem toPrim_of_decode_eq_command {bs rest : List Byte} {i : Instr} (h : decode bs = .command i rest) :
    i.toPrim = none := by
  obtain ⟨_, _, _, _, _, -, hword⟩ := decode_eq_command h
  obtain ⟨op, payload, rfl, -, -⟩ := decodeWord_eq_command hword
  exact toPrim_ofCommand op _ _ _ payload

/-- A command is taken off the stream with its word and the payload its word implies (R76). -/
theorem length_of_decode_eq_command {bs rest : List Byte} {i : Instr} (h : decode bs = .command i rest) :
    bs.length =
      4 + payloadLength (bytesWord (bs.getD 0 0) (bs.getD 1 0) (bs.getD 2 0) (bs.getD 3 0)) + rest.length := by
  obtain ⟨b0, b1, b2, b3, tail, rfl, hword⟩ := decode_eq_command h
  obtain ⟨op, payload, -, rfl, hlen⟩ := decodeWord_eq_command hword
  change (payload ++ rest).length + 4 = 4 + payloadLength (bytesWord b0 b1 b2 b3) + rest.length
  rw [List.length_append, hlen]
  omega

/-- No opcode has a payload for COUNT 0 (R73). -/
@[simp] theorem payloadBytes_zero (op : Opcode) : op.payloadBytes 0 = 0 := by cases op <;> rfl

theorem payloadLength_of_count_zero {w : Word} (h : countField w = 0) : payloadLength w = 0 := by
  cases hl : illegalReason w with
  | some why => exact payloadLength_illegal hl
  | none =>
    obtain ⟨op, ho⟩ := ofBits_of_legal hl
    rw [payloadLength_legal hl ho, h, payloadBytes_zero]

end Sys2Proof
end

section
/-! SUPPORT. Everything a step can do (00_scope.md R5, R6, 20_memory.md R58, 60_exceptions.md R231). -/

namespace Sys2Proof.Machine

/-- A primitive instruction is its primitive clocked (20_memory.md R59). -/
theorem exec_ofPrim (p : Prim) (s : State) : exec (Instr.ofPrim p) s = .next (Ops.clock p s) := by
  obtain ⟨kind, b⟩ := p
  cases kind <;> rfl

namespace Ops

/-- Taking a command off the stream changes nothing of the state but the stream, the turn and its counter. -/
theorem fetched_frame (rest : List Byte) (s : State) :
    fetched rest s = { s with
      input := rest
      env := { s.env with
        turn := (fetched rest s).env.turn, turnDraws := (fetched rest s).env.turnDraws } } :=
  drawTurn_frame { s with input := rest }

theorem sequencerTurn_illegal (run : Instr → State → Result) {s : State} {why : Illegal} {rest : List Byte}
    (h : decode s.input = .illegal why rest) : sequencerTurn run s = .next (illegalCommand (fetched rest s)) := by
  simp [sequencerTurn, h]

theorem sequencerTurn_command (run : Instr → State → Result) {s : State} {i : Instr} {rest : List Byte}
    (h : decode s.input = .command i rest) : sequencerTurn run s = run i (fetched rest s) := by
  simp [sequencerTurn, h]

/-- Running primitives one after another is clocking them. -/
theorem runPrims_exec (ps : List Prim) (s : State) : runPrims exec ps s = .next (clockAll ps s) := by
  induction ps generalizing s with
  | nil => rfl
  | cons p ps ih => rw [runPrims, exec_ofPrim, clockAll_cons, ← ih]

theorem cycle_releasing (run : Instr → State → Result) {s : State} (hlive : s.released = false)
    (hhost : s.host = .releasing) : cycle run s = .next (teardown s) := by
  simp [cycle, hlive, hhost]

/-- On the Transport's turn of a live session with something to deliver the cycle is that turn. -/
theorem cycle_transport (run : Instr → State → Result) {s : State} {k : Nat} (hlive : s.released = false)
    (hhost : s.host ≠ .releasing) (hturn : s.env.turn = .transport k) (hopb : s.opb ≠ []) :
    cycle run s = transportTurn run k s := by
  obtain ⟨p, ps, hps⟩ := List.exists_cons_of_ne_nil hopb
  cases hh : s.host with
  | releasing => exact absurd hh hhost
  | issuing | finished => simp [cycle, hlive, hh, hturn, hps]

end Ops

/-- The ways a step from `s` reaches `t`. -/
inductive StepCase (s t : State) : Prop where
  | teardown (hhost : s.host = .releasing) (ht : t = Ops.teardown s)
  | hold (hmoves : s.SequencerMoves) (hdec : decode s.input = .incomplete) (ht : t = Ops.hold s)
  | illegal (hmoves : s.SequencerMoves) (why : Illegal) (rest : List Byte)
      (hdec : decode s.input = .illegal why rest) (ht : t = Ops.illegalCommand (Ops.fetched rest s))
  | command (hmoves : s.SequencerMoves) (i : Instr) (rest : List Byte) (hdec : decode s.input = .command i rest)
      (ht : exec i (Ops.fetched rest s) = .next t)
  | deliver (k : Nat) (hturn : s.env.turn = .transport k) (hopb : s.opb ≠ []) (hfail : Ops.nextFailure s = none)
      (ht : t = Ops.clockAll (s.opb.take (k + 1))
        { Ops.drawFailure (Ops.drawTurn s) with opb := s.opb.drop (k + 1) })
  | fail (k m : Nat) (hturn : s.env.turn = .transport k) (hopb : s.opb ≠ []) (hfail : Ops.nextFailure s = some m)
      (ht : t = Ops.failDelivery (s.opb.take (k + 1)) m (Ops.drawFailure (Ops.drawTurn s)))

/-- The Sequencer's part of `stepCase_of_step`. -/
theorem stepCase_of_sequencerTurn {s t : State} (hmoves : s.SequencerMoves)
    (h : Ops.sequencerTurn exec s = .next t) : StepCase s t := by
  cases hdec : decode s.input with
  | incomplete =>
    rw [Ops.sequencerTurn_incomplete exec hdec] at h
    exact .hold hmoves hdec (Host.Outcome.next.inj h).symm
  | illegal why rest =>
    rw [Ops.sequencerTurn_illegal exec hdec] at h
    exact .illegal hmoves why rest hdec (Host.Outcome.next.inj h).symm
  | command i rest => exact .command hmoves i rest hdec (Ops.sequencerTurn_command exec hdec ▸ h)

/-- The Transport's part of `stepCase_of_step`. -/
theorem stepCase_of_transportTurn {s t : State} {k : Nat} (hturn : s.env.turn = .transport k) (hopb : s.opb ≠ [])
    (h : Ops.transportTurn exec k s = .next t) : StepCase s t := by
  unfold Ops.transportTurn at h
  split at h
  · next hfail =>
    rw [Ops.runPrims_exec] at h
    exact .deliver k hturn hopb hfail (Host.Outcome.next.inj h).symm
  · next m hfail => exact .fail k m hturn hopb hfail (Host.Outcome.next.inj h).symm

theorem stepCase_of_step {s t : State} (h : step s = .next t) : StepCase s t := by
  unfold step at h
  by_cases hlive : s.released = false
  · by_cases hhost : s.host = .releasing
    · rw [Ops.cycle_releasing exec hlive hhost] at h
      exact .teardown hhost (Host.Outcome.next.inj h).symm
    · by_cases hmoves : s.env.turn = .sequencer ∨ s.opb = []
      · rw [Ops.cycle_sequencer exec ⟨hlive, hhost, hmoves⟩] at h
        exact stepCase_of_sequencerTurn ⟨hlive, hhost, hmoves⟩ h
      · obtain ⟨hturn, hopb⟩ := not_or.mp hmoves
        cases hk : s.env.turn with
        | sequencer => exact absurd hk hturn
        | transport k =>
          rw [Ops.cycle_transport exec hlive hhost hk hopb] at h
          exact stepCase_of_transportTurn hk hopb h
  · simp [Ops.cycle, hlive] at h

end Sys2Proof.Machine
end

section
/-! The statement about FAULTED mode (60_exceptions.md R227). -/

namespace Sys2Proof.Machine

/-- A command in FAULTED mode answers the first cause and counts (R227). -/
theorem exec_command_faulted {s : State} (hfaulted : s.mode = .faulted) {i : Instr} (hi : i.toPrim = none) :
    exec i s = .next { s with responses := s.responses ++ [⟨s.faultCause, []⟩], cmdIdx := s.cmdIdx + 1 } := by
  cases i with
  | changeMode | flush => exact congrArg _ (Ops.runCommand_faulted _ s hfaulted)
  | readData | writeData | readWriteData | queueRead | queueReadWrite | finishRead =>
    exact congrArg _ (Ops.runCounted_faulted _ _ s hfaulted)
  | primTmsOut | primTmsIo | primBytesOut | primBytesIn | primBytesIo | primBitsOut | primBitsIn | primBitsIo =>
    cases hi

/-- An illegal word in FAULTED mode does the same, and is taken off the stream alone. -/
theorem step_illegal_faulted {s : State} (hmoves : s.SequencerMoves) (hfaulted : s.mode = .faulted) {why : Illegal}
    {rest : List Byte} (hdec : decode s.input = .illegal why rest) :
    step s = .next { Ops.fetched rest s with
      responses := s.responses ++ [⟨s.faultCause, []⟩], cmdIdx := s.cmdIdx + 1 } := by
  rw [step_sequencer hmoves, Ops.sequencerTurn_illegal exec hdec, Ops.illegalCommand,
    Ops.runCommand_faulted _ _ (by simpa using hfaulted), Ops.respond]
  simp only [Ops.fetched_faultCause, Ops.fetched_responses, Ops.fetched_cmdIdx]

/-- FAULTED is sticky, and so is the cause. -/
theorem step_keeps_fault {s t : State} (hfaulted : s.mode = .faulted) (h : step s = .next t) :
    t.mode = .faulted ∧ t.faultCause = s.faultCause := by
  cases stepCase_of_step h with
  | teardown _ ht | hold _ _ ht => simp [ht, Ops.hold_eq, hfaulted]
  | illegal hmoves _ _ hdec =>
    rw [step_illegal_faulted hmoves hfaulted hdec] at h
    simp [← Host.Outcome.next.inj h, hfaulted]
  | command _ i rest hdec ht =>
    rw [exec_command_faulted (by simpa using hfaulted) (toPrim_of_decode_eq_command hdec)] at ht
    simp [← Host.Outcome.next.inj ht, hfaulted]
  | deliver k _ _ _ ht =>
    rw [ht, Ops.clockAll_frame]
    simp [hfaulted]
  | fail k m _ _ _ ht => simp [ht, hfaulted]

/-- Settles O27: one response for every command and illegal word, the length by R76, stickiness by the cases of a
step. -/
theorem faultedModeAnswersFirstCause : Obligations.FaultedModeAnswersFirstCause := by
  refine ⟨fun s i hfaulted hi => exec_command_faulted hfaulted hi,
    fun s why rest hmoves hfaulted hdec => ?illegal,
    fun s i rest => length_of_decode_eq_command, fun s t => step_keeps_fault⟩
  case illegal =>
    refine ⟨_, step_illegal_faulted hmoves hfaulted hdec, ?_⟩
    conv_lhs => rw [Ops.fetched_frame]

end Sys2Proof.Machine
end

section
/-! The statement about COUNT 0 (60_exceptions.md R224). -/

namespace Sys2Proof.Machine

/-- COUNT 0 in RUN takes its fault before the command is looked at, and changes nothing else but the count (R224,
R225). -/
theorem Ops.runCounted_zero_run {s : State} (hrun : s.mode = .run) (body : State → State) :
    runCounted 0 body s = { s with
      mode := .faulted, faultCause := .invalidArgument, responses := s.responses ++ [⟨.invalidArgument, []⟩]
      cmdIdx := s.cmdIdx + 1 } := by
  rw [runCounted_zero _ _ hrun, raiseFault_run _ _ hrun]

theorem exec_count_zero {s : State} (hrun : s.mode = .run) {p : Bool} {data : List Byte} {i : Instr}
    (hi : i ∈ [Instr.readData 0, .writeData 0 p data, .readWriteData 0 p data, .queueRead 0,
      .queueReadWrite 0 p data, .finishRead 0]) :
    exec i s = .next { s with
      mode := .faulted, faultCause := .invalidArgument, responses := s.responses ++ [⟨.invalidArgument, []⟩]
      cmdIdx := s.cmdIdx + 1 } := by
  simp only [List.mem_cons, List.not_mem_nil, or_false] at hi
  obtain rfl | rfl | rfl | rfl | rfl | rfl := hi <;> exact congrArg _ (Ops.runCounted_zero_run hrun _)

/-- The count of the arguments R83 (d) calls invalid. -/
theorem writeCount_of_invalid {data : List Byte} {bits : Nat} (h : data = [] ∨ bits < 1 ∨ 8 < bits) :
    writeCount data bits = 0 := by
  rw [writeCount, if_pos]
  simpa using h

/-- Settles O28: the six commands share `runCounted`, whose fault comes before their bodies; no payload is counted by
a COUNT of 0. -/
theorem countZeroIsInvalidArgument : Obligations.CountZeroIsInvalidArgument := by
  refine ⟨fun s p data i hrun hi => exec_count_zero hrun hi, fun w => payloadLength_of_count_zero,
    fun data bits hinvalid => ?binding⟩
  case binding =>
    have hcount := writeCount_of_invalid hinvalid
    exact ⟨hcount, if_pos hcount⟩

end Sys2Proof.Machine
end

section
/-! SUPPORT. The primitives that commands make are in R86's ranges (30_encoding.md R86, 40_tap_traversal.md R120,
41_shift.md R147, R151). -/

namespace Sys2Proof

/-- A buffer of `ceil(n/8)` bytes with no bit at or beyond `n` is packed. -/
theorem pack_unpack_of_clear {buf : List Byte} {n : Nat} (hlen : buf.length = byteCount n)
    (hclear : ∀ i, n ≤ i → bufBit buf i = false) : pack (unpack buf n) = buf := by
  have hlength : (pack (unpack buf n)).length = buf.length := by rw [length_pack, length_unpack, hlen]
  have hbits : ∀ i, bufBit (pack (unpack buf n)) i = bufBit buf i := fun i => by
    rw [bufBit_pack_unpack]
    by_cases hi : i < n
    · simp [hi]
    · rw [hclear i (by omega), Bool.and_false]
  have htake := take_eq_of_bufBit_eq hlength.ge (Nat.le_refl _) fun i _ => hbits i
  rwa [List.take_of_length_le hlength.le, List.take_length] at htake

namespace Machine

/-- A packed string is packed data. -/
theorem dataPacked_pack (s : List Bool) (t : Bool) (own : Owner) : dataPacked ⟨s.length, t, pack s, own⟩ = true := by
  simp [dataPacked, unpack_pack]

/-- A byte masked to its low `k` bits is packed data of `k` bits. -/
theorem dataPacked_mask (d : Byte) {k : Nat} (hlo : 1 ≤ k) (hhi : k ≤ 8) (t : Bool) (own : Owner) :
    dataPacked ⟨k, t, [d &&& BitVec.ofNat 8 (2 ^ k - 1)], own⟩ = true := by
  refine decide_eq_true (pack_unpack_of_clear ?_ fun i (hi : k ≤ i) => ?_).symm
  · simp only [List.length_singleton, byteCount]; omega
  · by_cases h8 : i < 8
    · rw [bufBit_cons_zero _ _ _ h8]
      simp [BitVec.getLsbD_ofNat, Nat.testBit_two_pow_sub_one, hi]
    · have hbyte : 1 ≤ i / 8 := by omega
      rw [bufBit, List.getD_eq_default _ _ (by simpa using hbyte)]
      simp

theorem sound_of_mem_changeModePrims {c : Params} (hc : c.valid) {tms : List Bool} {t : Bool} {p : Prim}
    (hp : p ∈ changeModePrims c.tmsMax tms t) : Prim.sound c p = true := by
  obtain ⟨htms, -, -⟩ := hc
  obtain ⟨hlo, hhi⟩ := len_of_mem_changeModePrims htms hp
  obtain ⟨bits, -, rfl⟩ := List.mem_map.mp hp
  have hlen : 1 ≤ bits.length ∧ bits.length ≤ max c.tmsMax 2 := ⟨hlo, Nat.le_trans hhi (Nat.le_max_left _ _)⟩
  simp [Prim.sound, Instr.ofPrim, Instr.wellFormed, lenWithin, hlen, dataPacked_pack, ownerIsNone]

theorem sound_of_mem_readPrims {c : Params} (hc : c.valid) {n : Nat} {own : Owner} (hown : own ≠ .none) {p : Prim}
    (hp : p ∈ readPrims c.bytesMax n own) : Prim.sound c p = true := by
  obtain ⟨-, hbytes, -⟩ := hc
  rw [readPrims, List.mem_append] at hp
  rcases hp with hp | hp
  · obtain ⟨m, hm, rfl⟩ := List.mem_map.mp hp
    have hlen := mem_byteChunks hbytes hm
    simp [Prim.sound, Instr.ofPrim, Instr.wellFormed, lenWithin, hlen, hown, ownerIsNone]
  · split at hp
    · exact absurd hp List.not_mem_nil
    · obtain rfl := List.mem_singleton.mp hp
      have hlen : 1 ≤ n % 8 ∧ n % 8 ≤ 7 := by omega
      simp [Prim.sound, Instr.ofPrim, Instr.wellFormed, lenWithin, hlen, hown, ownerIsNone]

/-- The byte, bit and exit primitives of a write form, captured for an owner or not (R151). -/
theorem sound_of_mem_writePrims {c : Params} (hc : c.valid) {n : Nat} (hn : 1 ≤ n) {data : List Byte}
    (hdata : data.length = byteCount n) {pause io : Bool} {own : Owner} (hown : io = true → own ≠ .none) {p : Prim}
    (hp : p ∈ writePrims c.bytesMax data n pause io own) : Prim.sound c p = true := by
  obtain ⟨-, hbytes, -⟩ := hc
  obtain ⟨hlo, hhi⟩ := lastBits_bounds hn
  have hwhole : (byteChunks (byteCount n - 1) c.bytesMax).sum = (data.take (byteCount n - 1)).length := by
    rw [sum_byteChunks, List.length_take]; omega
  rw [writePrims] at hp
  simp only [List.mem_append] at hp
  rcases hp with (hp | hp) | hp
  · obtain ⟨piece, hpiece, rfl⟩ := List.mem_map.mp hp
    have hlen := mem_byteChunks hbytes (mem_splitSizes_length hwhole hpiece)
    cases io <;>
      simp [Prim.sound, Instr.ofPrim, Instr.wellFormed, writeKinds, lenWithin, hlen, hown, ownerIsNone]
  · split at hp
    · exact absurd hp List.not_mem_nil
    · obtain rfl := List.mem_singleton.mp hp
      have hlen : 1 ≤ lastBits n - 1 ∧ lastBits n - 1 ≤ 7 := by omega
      cases io <;>
        simp [Prim.sound, Instr.ofPrim, Instr.wellFormed, writeKinds, lenWithin, hlen, hown, ownerIsNone,
          dataPacked_mask _ hlen.1 (by omega : lastBits n - 1 ≤ 8)]
  · obtain rfl := List.mem_singleton.mp hp
    have hlen : 1 ≤ (exitTms pause).length ∧ (exitTms pause).length ≤ 2 := by cases pause <;> decide
    generalize exitTms pause = exit at hlen
    cases io <;>
      simp [Prim.sound, Instr.ofPrim, Instr.wellFormed, writeKinds, lenWithin, hlen, hown, ownerIsNone,
        dataPacked_pack]

end Machine
end Sys2Proof
end

section
/-! SUPPORT. Everything a command can do (00_scope.md R5, 60_exceptions.md R226 to R231): it answers once, after it has
emitted, queued, delivered or removed what it has to. -/

namespace Sys2Proof.Machine

/-- A command is counted (10_state.md R21). -/
def State.counted (s : State) : State := { s with cmdIdx := s.cmdIdx + 1 }

/-- A command answers and is counted (30_encoding.md R80). -/
def State.answered (s : State) (c : Status) (bits : List Bool) : State := (Ops.respond c bits s).counted

section
variable (s : State) (c : Status) (bits : List Bool)

@[simp] theorem answered_params : (s.answered c bits).params = s.params := rfl
@[simp] theorem answered_env : (s.answered c bits).env = s.env := rfl
@[simp] theorem answered_mode : (s.answered c bits).mode = s.mode := rfl
@[simp] theorem answered_faultCause : (s.answered c bits).faultCause = s.faultCause := rfl
@[simp] theorem answered_opb : (s.answered c bits).opb = s.opb := rfl
@[simp] theorem answered_rrq : (s.answered c bits).rrq = s.rrq := rfl
@[simp] theorem answered_nextId : (s.answered c bits).nextId = s.nextId := rfl
@[simp] theorem answered_trace : (s.answered c bits).trace = s.trace := rfl
@[simp] theorem answered_tap : (s.answered c bits).tap = s.tap := rfl
@[simp] theorem answered_ofaults : (s.answered c bits).ofaults = s.ofaults := rfl
@[simp] theorem answered_released : (s.answered c bits).released = s.released := rfl
@[simp] theorem answered_responses : (s.answered c bits).responses = s.responses ++ [⟨c, bits⟩] := rfl
@[simp] theorem answered_cmdIdx : (s.answered c bits).cmdIdx = s.cmdIdx + 1 := rfl

end

/-- The whole of `opb` delivered, the outcome of the next delivery drawn (20_memory.md R59; log 3). -/
def State.deliverAll (s : State) (e : Env) : State := Ops.clockAll s.opb { s with opb := [], env := e }

/-- The caller contract checked and the primitives of a synchronous read emitted (41_shift.md R155, R157). -/
def State.syncStarted (s : State) (ps : List Prim) : State :=
  Ops.emitAll ps { s with ofaults := s.checkedOfaults, syncCap := [] }

/-- An entry and its primitives, the caller contract checked (42_queue.md R182). -/
def State.enqueued (s : State) (n : Nat) (kind : EntryKind) (ps : List Prim) : State :=
  Ops.emitAll ps { s with
    ofaults := s.checkedOfaults, rrq := s.rrq ++ [⟨s.nextId, n, kind, [], ps.length⟩], nextId := s.nextId + 1 }

/-- `ps` are the primitives of a command, all with one owner. -/
structure Issues (s : State) (i : Instr) (own : Owner) (ps : List Prim) : Prop where
  edges : commandEdges s i = edgesOf ps
  owned : ∀ p ∈ ps, p.body.own = own
  sound : s.ParamsOk → ∀ p ∈ ps, Prim.sound s.params p = true

/-- What a command can leave behind. -/
inductive CommandCase (s : State) (i : Instr) (t : State) : Prop where
  | answers (c : Status) (hedges : commandEdges s i = []) (ht : t = s.answered c [])
  | faults (code : Status) (hcode : code.isFault = true) (hedges : commandEdges s i = [])
      (ht : t = (Ops.enterFaulted code s).answered code [])
  | emits (ps : List Prim) (of : List ObsFault) (hps : Issues s i .none ps) (hof : s.ofaults <+: of)
      (ht : t = (Ops.emitAll ps { s with ofaults := of }).answered .ok [])
  | enqueues (n : Nat) (kind : EntryKind) (ps : List Prim) (hps : Issues s i (.entry s.nextId) ps)
      (hroom : s.rrq.length < s.params.rrqDepth) (hn : 1 ≤ n ∧ n ≤ Config.countMax)
      (hlen : (edgesOf ps).length = n ∨ kind = .readWrite ∧ (edgesOf ps).length = n + 1)
      (ht : t = (s.enqueued n kind ps).answered .ok [])
  | delivers (e : Env) (hdraw : s.env.DrawFrame e) (hedges : commandEdges s i = [])
      (ht : t = (s.deliverAll e).answered .ok [])
  | reads (ps : List Prim) (e : Env) (bits : List Bool) (hps : Issues s i .sync ps) (hdraw : s.env.DrawFrame e)
      (hbits : bits.length ≤ Config.countMax ∨
        bits = ((s.syncStarted ps).deliverAll e).syncCap ∧ (edgesOf ps).length ≤ Config.countMax)
      (ht : t = ((s.syncStarted ps).deliverAll e).answered .ok bits)
  | retires (hrun : s.mode = .run) (d : State) (head : Entry) (rest : List Entry) (hedges : commandEdges s i = [])
      (hd : (d = s ∧ head.undelivered = 0) ∨ ∃ e, s.env.DrawFrame e ∧ d = s.deliverAll e)
      (hhead : d.rrq = head :: rest)
      (ht : t = { d with rrq := rest }.answered .ok (head.cap.take head.n))
  | fails (m : State) (e : Env) (k : Nat) (hfail : s.env.transportOk = false) (hdraw : s.env.DrawFrame e)
      (hm : m = s ∨ ∃ ps, m = s.syncStarted ps)
      (ht : t = (Ops.failDelivery m.opb k { m with env := e }).answered .transportFailure [])

/-- Drawing a delivery's outcome changes that outcome and its counter alone, and nothing under TRANSPORT_OK. -/
theorem drawFrame_drawFailure (s : State) : s.env.DrawFrame (Ops.drawFailure s).env := by
  refine ⟨by rw [Ops.drawFailure_env], fun hok => ?_⟩
  rw [Ops.drawFailure_ok s hok]
  exact ⟨rfl, rfl⟩

theorem drawFrame_refl (e : Env) : e.DrawFrame e := ⟨rfl, fun _ => ⟨rfl, rfl⟩⟩

namespace Ops

theorem drawFailure_eq (s : State) : drawFailure s = { s with env := (drawFailure s).env } := by
  unfold drawFailure
  split <;> rfl

/-- A forced delivery delivers the whole of `opb` or fails. -/
theorem forceDelivery_outcome (after : State → State) (s : State) :
    (∃ e, s.env.DrawFrame e ∧ forceDelivery after s = after (s.deliverAll e)) ∨
    (∃ e k, s.env.DrawFrame e ∧ s.env.transportOk = false ∧
      forceDelivery after s = respond .transportFailure [] (failDelivery s.opb k { s with env := e })) := by
  rcases forceDelivery_cases after s with ⟨hempty, h⟩ | ⟨-, -, h⟩ | ⟨k, -, hfail, h⟩
  · refine .inl ⟨s.env, drawFrame_refl _, ?_⟩
    rw [h, State.deliverAll, hempty, clockAll_nil, ← hempty]
  · refine .inl ⟨_, drawFrame_drawFailure s, ?_⟩
    rw [h, drawFailure_eq]
    rfl
  · refine .inr ⟨_, k, drawFrame_drawFailure s, ?_, ?_⟩
    · cases hok : s.env.transportOk
      · rfl
      · simp [nextFailure, hok] at hfail
    · rw [h, drawFailure_eq]

end Ops

/-! ## Each command in RUN -/

section
variable {s : State} (hrun : s.mode = .run)
include hrun

theorem exec_changeMode_emits (l : Nat) (t : Bool) (payload : List Byte) :
    exec (.changeMode l t payload) s =
      .next ((Ops.emitAll (changeModePrims s.params.tmsMax (unpack payload l) t) s).answered .ok []) :=
  congrArg _ (Ops.runCommand_run _ _ hrun)

theorem exec_flush_forces : exec .flush s = .next (Ops.forceDelivery (Ops.respond .ok []) s).counted :=
  congrArg _ (Ops.runCommand_run _ _ hrun)

variable {n : Nat} (hn : 1 ≤ n)
include hn

theorem exec_readData_forces :
    exec (.readData n) s =
      .next (Ops.forceDelivery (fun d => Ops.respond .ok d.syncCap d)
        (s.syncStarted (readPrims s.params.bytesMax n .sync))).counted := by
  refine congrArg _ ((Ops.runCounted_pos _ _ _ hrun hn).trans ?_)
  rw [Ops.checkShift_eq]
  rfl

theorem exec_writeData_emits (p : Bool) (data : List Byte) :
    exec (.writeData n p data) s =
      .next ((Ops.emitAll (writePrims s.params.bytesMax data n p false .none)
        { s with ofaults := s.checkedOfaults }).answered .ok []) := by
  refine congrArg _ ((Ops.runCounted_pos _ _ _ hrun hn).trans ?_)
  rw [Ops.checkShift_eq]
  rfl

theorem exec_readWriteData_forces (p : Bool) (data : List Byte) :
    exec (.readWriteData n p data) s =
      .next (Ops.forceDelivery (fun d => Ops.respond .ok (d.syncCap.take n) d)
        (s.syncStarted (writePrims s.params.bytesMax data n p true .sync))).counted := by
  refine congrArg _ ((Ops.runCounted_pos _ _ _ hrun hn).trans ?_)
  rw [Ops.checkShift_eq]
  rfl

theorem exec_queueRead_enqueues :
    exec (.queueRead n) s =
      .next (Ops.enqueue n .read (readPrims s.params.bytesMax n) s).counted :=
  congrArg _ (Ops.runCounted_pos _ _ _ hrun hn)

theorem exec_queueReadWrite_enqueues (p : Bool) (data : List Byte) :
    exec (.queueReadWrite n p data) s =
      .next (Ops.enqueue n .readWrite (writePrims s.params.bytesMax data n p true) s).counted :=
  congrArg _ (Ops.runCounted_pos _ _ _ hrun hn)

theorem exec_finishRead_complete {head : Entry} {rest : List Entry} (hhead : s.rrq = head :: rest)
    (hlen : head.n = n) (hcomplete : head.undelivered = 0) :
    exec (.finishRead n) s = .next ({ s with rrq := rest }.answered .ok (head.cap.take n)) := by
  refine congrArg _ ((Ops.runCounted_pos _ _ _ hrun hn).trans ?_)
  simp only [hhead, hlen, hcomplete, ne_eq, not_true_eq_false, if_false, Nat.lt_irrefl]
  rw [Ops.retire_cons _ _ _ _ hhead]
  rfl

theorem exec_finishRead_forces {head : Entry} {rest : List Entry} (hhead : s.rrq = head :: rest)
    (hlen : head.n = n) (hincomplete : 0 < head.undelivered) :
    exec (.finishRead n) s = .next (Ops.forceDelivery (Ops.retire n) s).counted := by
  refine congrArg _ ((Ops.runCounted_pos _ _ _ hrun hn).trans ?_)
  simp only [hhead, hlen, hincomplete, ne_eq, not_true_eq_false, if_false, if_true]
  rfl

end

namespace Ops

theorem enqueue_enqueued {n : Nat} {kind : EntryKind} {prims : Owner → List Prim} {s : State}
    (hroom : s.rrq.length < s.params.rrqDepth) :
    enqueue n kind prims s = respond .ok [] (s.enqueued n kind (prims (.entry s.nextId))) := by
  rw [enqueue_accepted _ _ _ _ hroom, checkShift_eq]
  rfl

end Ops

/-! ## The cases -/

theorem payloadFits_iff {n : Nat} {data : List Byte} :
    payloadFits n data = true ↔ n ≤ Config.countMax ∧ data.length = byteCount n := by
  simp [payloadFits, countFits]

theorem answered_enterFaulted {s : State} (hrun : s.mode = .run) (code : Status) :
    (Ops.enterFaulted code s).answered code [] = { s with
      mode := .faulted, faultCause := code, responses := s.responses ++ [⟨code, []⟩], cmdIdx := s.cmdIdx + 1 } := by
  simp [Ops.enterFaulted, hrun, State.answered, State.counted, Ops.respond]

section
variable {s t : State} {i : Instr}

theorem CommandCase.of_faulted (hfaulted : s.mode = .faulted) (hi : i.toPrim = none) (h : exec i s = .next t) :
    CommandCase s i t := by
  rw [exec_command_faulted hfaulted hi] at h
  refine .answers s.faultCause ?_ (Host.Outcome.next.inj h).symm
  cases i <;> simp [commandEdges, hfaulted]

theorem CommandCase.of_fault (hrun : s.mode = .run) (hedges : commandEdges s i = []) {code : Status}
    (hcode : code.isFault = true)
    (hexec : exec i s = .next { s with
      mode := .faulted, faultCause := code, responses := s.responses ++ [⟨code, []⟩], cmdIdx := s.cmdIdx + 1 })
    (h : exec i s = .next t) : CommandCase s i t := by
  refine .faults code hcode hedges ?_
  rw [answered_enterFaulted hrun]
  exact Host.Outcome.next.inj (h.symm.trans hexec)

/-- A synchronous read, its primitives emitted, delivers all of `opb` and answers, or fails. -/
theorem CommandCase.of_sync {ps : List Prim} (hps : Issues s i .sync ps) (answer : State → List Bool)
    (hanswer : ∀ d, (answer d).length ≤ Config.countMax ∨
      answer d = d.syncCap ∧ (edgesOf ps).length ≤ Config.countMax)
    (hexec : exec i s =
      .next (Ops.forceDelivery (fun d => Ops.respond .ok (answer d) d) (s.syncStarted ps)).counted)
    (h : exec i s = .next t) : CommandCase s i t := by
  rw [hexec] at h
  obtain rfl := Host.Outcome.next.inj h
  rcases Ops.forceDelivery_outcome (fun d => Ops.respond .ok (answer d) d) (s.syncStarted ps) with
    ⟨e, hdraw, hd⟩ | ⟨e, k, hdraw, hfail, hd⟩
  · exact .reads ps e _ hps hdraw (hanswer _) (by rw [hd]; rfl)
  · exact .fails (s.syncStarted ps) e k hfail hdraw (.inr ⟨ps, rfl⟩) (by rw [hd]; rfl)

theorem CommandCase.of_flush (hrun : s.mode = .run) (h : exec .flush s = .next t) : CommandCase s .flush t := by
  rw [exec_flush_forces hrun] at h
  obtain rfl := Host.Outcome.next.inj h
  rcases Ops.forceDelivery_outcome (Ops.respond .ok []) s with ⟨e, hdraw, hd⟩ | ⟨e, k, hdraw, hfail, hd⟩
  · exact .delivers e hdraw rfl (by rw [hd]; rfl)
  · exact .fails s e k hfail hdraw (.inl rfl) (by rw [hd]; rfl)

/-- A queue command is refused or appends its entry (42_queue.md R181, R182). -/
theorem CommandCase.of_enqueue {n : Nat} (hn : 1 ≤ n ∧ n ≤ Config.countMax) {kind : EntryKind}
    {prims : Owner → List Prim}
    (hps : s.rrq.length < s.params.rrqDepth → Issues s i (.entry s.nextId) (prims (.entry s.nextId)))
    (hfull : s.params.rrqDepth ≤ s.rrq.length → commandEdges s i = [])
    (hlen : (edgesOf (prims (.entry s.nextId))).length = n ∨
      kind = .readWrite ∧ (edgesOf (prims (.entry s.nextId))).length = n + 1)
    (hexec : exec i s = .next (Ops.enqueue n kind prims s).counted) (h : exec i s = .next t) :
    CommandCase s i t := by
  rw [hexec] at h
  obtain rfl := Host.Outcome.next.inj h
  by_cases hroom : s.rrq.length < s.params.rrqDepth
  · exact .enqueues n kind _ (hps hroom) hroom hn hlen (by rw [Ops.enqueue_enqueued hroom]; rfl)
  · have hfull' := Nat.not_lt.mp hroom
    exact .answers .queueFull (hfull hfull') (by rw [Ops.enqueue_full _ _ _ _ hfull']; rfl)

theorem CommandCase.of_finishRead {n : Nat} (hrun : s.mode = .run) (hn : 1 ≤ n)
    (h : exec (.finishRead n) s = .next t) : CommandCase s (.finishRead n) t := by
  obtain ⟨hempty, hmismatch⟩ := finishReadMismatchFaults
  cases hrrq : s.rrq with
  | nil => exact .of_fault hrun rfl rfl (hempty s n hrun hn hrrq) h
  | cons head rest =>
    by_cases hlen : head.n = n
    · rcases Nat.eq_zero_or_pos head.undelivered with hcomplete | hincomplete
      · rw [exec_finishRead_complete hrun hn hrrq hlen hcomplete] at h
        exact .retires hrun s head rest rfl (.inl ⟨rfl, hcomplete⟩) hrrq
          (by rw [hlen]; exact (Host.Outcome.next.inj h).symm)
      · rw [exec_finishRead_forces hrun hn hrrq hlen hincomplete] at h
        obtain rfl := Host.Outcome.next.inj h
        rcases Ops.forceDelivery_outcome (Ops.retire n) s with ⟨e, hdraw, hd⟩ | ⟨e, k, hdraw, hfail, hd⟩
        · have hns : (s.deliverAll e).rrq.map (·.n) = n :: rest.map (·.n) := by
            rw [State.deliverAll, Ops.map_clockAll_rrq (·.n) (fun _ _ => rfl), ← hlen, ← List.map_cons, ← hrrq]
          obtain ⟨head', rest', hrrq', hlen', -⟩ := List.map_eq_cons_iff.mp hns
          exact .retires hrun _ head' rest' rfl (.inr ⟨e, hdraw, rfl⟩) hrrq'
            (by rw [hd, Ops.retire_cons _ _ _ _ hrrq', hlen']; rfl)
        · exact .fails s e k hfail hdraw (.inl rfl) (by rw [hd]; rfl)
    · exact .of_fault hrun rfl rfl (hmismatch s n head rest hrun hn hrrq hlen) h

end

theorem issues_readPrims {s : State} {i : Instr} {n : Nat} {own : Owner} (hown : own ≠ .none)
    (hedges : commandEdges s i = readEdges n) : Issues s i own (readPrims s.params.bytesMax n own) where
  edges := by rw [hedges, edgesOf_readPrims]
  owned _ := own_readPrims
  sound hparams _ := sound_of_mem_readPrims hparams hown

theorem issues_writePrims {s : State} {i : Instr} {n : Nat} (hn : 1 ≤ n) {data : List Byte}
    (hdata : data.length = byteCount n) {p io : Bool} {own : Owner} (hown : if io then own ≠ .none else own = .none)
    (hedges : commandEdges s i = writeEdges data n p io) :
    Issues s i own (writePrims s.params.bytesMax data n p io own) where
  edges := by rw [hedges, edgesOf_writePrims _ hn hdata]
  owned x hx := by
    rw [own_writePrims hx]
    cases io
    · exact hown.symm
    · rfl
  sound hparams _ := sound_of_mem_writePrims hparams hn hdata fun hio => by simpa [hio] using hown

theorem issues_changeModePrims {s : State} (hrun : s.mode = .run) (l : Nat) (t : Bool) (payload : List Byte) :
    Issues s (.changeMode l t payload) .none (changeModePrims s.params.tmsMax (unpack payload l) t) where
  edges := by rw [edgesOf_changeModePrims, commandEdges, if_pos hrun]
  owned x hx := by
    obtain ⟨c, -, rfl⟩ := List.mem_map.mp hx
    rfl
  sound hparams _ := sound_of_mem_changeModePrims hparams

theorem isPrefix_checkedOfaults (s : State) : s.ofaults <+: s.checkedOfaults := by
  unfold State.checkedOfaults
  split
  · exact List.prefix_rfl
  · exact List.prefix_append _ _

/-- Everything a well-formed command can do. -/
theorem commandCase_of_exec {s t : State} {i : Instr} (hi : i.toPrim = none)
    (hwf : i.wellFormed s.params = true) (h : exec i s = .next t) : CommandCase s i t := by
  cases hmode : s.mode with
  | faulted => exact .of_faulted hmode hi h
  | run =>
    have hzero : ∀ {p : Bool} {data : List Byte},
        i ∈ [Instr.readData 0, .writeData 0 p data, .readWriteData 0 p data, .queueRead 0, .queueReadWrite 0 p data,
          .finishRead 0] → commandEdges s i = [] → CommandCase s i t := fun hmem hedges =>
      .of_fault hmode hedges rfl (exec_count_zero hmode hmem) h
    cases i with
    | changeMode l b payload =>
      rw [exec_changeMode_emits hmode] at h
      exact .emits _ s.ofaults (issues_changeModePrims hmode l b payload) List.prefix_rfl
        (Host.Outcome.next.inj h).symm
    | flush => exact .of_flush hmode h
    | readData n =>
      have hmax : n ≤ Config.countMax := of_decide_eq_true hwf
      rcases Nat.eq_zero_or_pos n with rfl | hn
      · exact hzero (p := false) (data := []) (by simp) (by simp [commandEdges])
      · refine .of_sync (issues_readPrims (by simp) (if_pos ⟨hmode, hn⟩)) _ (fun d => .inr ⟨rfl, ?_⟩)
          (exec_readData_forces hmode hn) h
        simpa [edgesOf_readPrims, readEdges] using hmax
    | writeData n p data =>
      obtain ⟨hmax, hdata⟩ := payloadFits_iff.mp hwf
      rcases Nat.eq_zero_or_pos n with rfl | hn
      · exact hzero (p := p) (data := data) (by simp) (by simp [commandEdges])
      · rw [exec_writeData_emits hmode hn] at h
        exact .emits _ _ (issues_writePrims hn hdata (by simp) (if_pos ⟨hmode, hn⟩)) (isPrefix_checkedOfaults s)
          (Host.Outcome.next.inj h).symm
    | readWriteData n p data =>
      obtain ⟨hmax, hdata⟩ := payloadFits_iff.mp hwf
      rcases Nat.eq_zero_or_pos n with rfl | hn
      · exact hzero (p := p) (data := data) (by simp) (by simp [commandEdges])
      · exact .of_sync (issues_writePrims hn hdata (by simp) (if_pos ⟨hmode, hn⟩)) _
          (fun d => .inl ((List.length_take_le n _).trans hmax)) (exec_readWriteData_forces hmode hn p data) h
    | queueRead n =>
      have hmax : n ≤ Config.countMax := of_decide_eq_true hwf
      rcases Nat.eq_zero_or_pos n with rfl | hn
      · exact hzero (p := false) (data := []) (by simp) (by simp [commandEdges])
      · refine .of_enqueue ⟨hn, hmax⟩ (fun hroom => issues_readPrims (by simp) (if_pos ⟨hmode, hn, hroom⟩))
          (fun hfull => if_neg (by omega)) (.inl ?_) (exec_queueRead_enqueues hmode hn) h
        simp [edgesOf_readPrims, readEdges]
    | queueReadWrite n p data =>
      obtain ⟨hmax, hdata⟩ := payloadFits_iff.mp hwf
      rcases Nat.eq_zero_or_pos n with rfl | hn
      · exact hzero (p := p) (data := data) (by simp) (by simp [commandEdges])
      · refine .of_enqueue ⟨hn, hmax⟩
          (fun hroom => issues_writePrims hn hdata (by simp) (if_pos ⟨hmode, hn, hroom⟩))
          (fun hfull => if_neg (by omega)) ?_ (exec_queueReadWrite_enqueues hmode hn p data) h
        rw [edgesOf_writePrims _ hn hdata, length_writeEdges]
        cases p <;> simp
    | finishRead n =>
      rcases Nat.eq_zero_or_pos n with rfl | hn
      · exact hzero (p := false) (data := []) (by simp) rfl
      · exact .of_finishRead hmode hn h
    | primTmsOut | primTmsIo | primBytesOut | primBytesIn | primBytesIo | primBitsOut | primBitsIn | primBitsIo =>
      cases hi

end Sys2Proof.Machine
end

section
/-! SUPPORT. Legal command words and what they decode to, in both directions (30_encoding.md R70, R73, R76, R79). -/

namespace Sys2Proof

theorem illegalReason_eq_none_iff (w : Word) :
    illegalReason w = none ↔ ∃ op, Opcode.ofBits (opcField w) = some op ∧ rsvField w = 0 ∧
      (pField w = true → op.usesP = true) ∧ (tField w = true → op.usesT = true) ∧
      (op = .flush → countField w = 0) := by
  have hguard : ∀ (c : Prop) [Decidable c] (why : Illegal) (next : Option Illegal),
      (if c then some why else next) = none ↔ ¬ c ∧ next = none := fun c _ why next => by
    by_cases hc : c <;> simp [hc]
  cases ho : Opcode.ofBits (opcField w) with
  | none => simp [illegalReason, ho]
  | some op =>
    simp only [illegalReason, ho, hguard]
    simp

/-- A word without reserved bits is the command word of its fields (R70). -/
theorem commandWord_fields {w : Word} {op : Opcode} (ho : Opcode.ofBits (opcField w) = some op)
    (hr : rsvField w = 0) : commandWord op (pField w) (tField w) (countField w) = w := by
  rw [commandWord, bits_of_ofBits ho, ← hr, countField, BitVec.ofNat_toNat, BitVec.setWidth_eq]
  apply BitVec.eq_of_getLsbD_eq
  intro i hi
  unfold opcField pField tField rsvField
  simp only [BitVec.getLsbD_append, BitVec.getLsbD_extractLsb', BitVec.getLsbD_ofBool]
  interval_cases i <;> simp

theorem countField_le (w : Word) : countField w ≤ Config.countMax := Nat.le_sub_one_of_lt (BitVec.isLt _)

/-- The bytes of the command that a legal word and its payload make. -/
theorem bytes_ofCommand {op : Opcode} {n : Nat} {p t : Bool} {payload : List Byte}
    (hp : p = true → op.usesP = true) (ht : t = true → op.usesT = true) (hf : op = .flush → n = 0)
    (hlen : payload.length = op.payloadBytes n) :
    (Instr.ofCommand op n p t payload).bytes = wordBytes (commandWord op p t n) ++ payload := by
  cases op with
  | changeMode =>
    obtain rfl : p = false := by simpa [Opcode.usesP] using hp
    rfl
  | writeData | readWriteData | queueReadWrite =>
    obtain rfl : t = false := by simpa [Opcode.usesT] using ht
    rfl
  | readData | queueRead | finishRead =>
    obtain rfl : p = false := by simpa [Opcode.usesP] using hp
    obtain rfl : t = false := by simpa [Opcode.usesT] using ht
    obtain rfl : payload = [] := List.length_eq_zero_iff.mp hlen
    simp [Instr.ofCommand, Instr.bytes]
  | flush =>
    obtain rfl : p = false := by simpa [Opcode.usesP] using hp
    obtain rfl : t = false := by simpa [Opcode.usesT] using ht
    obtain rfl : payload = [] := List.length_eq_zero_iff.mp hlen
    obtain rfl := hf rfl
    simp [Instr.ofCommand, Instr.bytes]

theorem wellFormed_ofCommand (c : Params) {op : Opcode} {n : Nat} (p t : Bool) {payload : List Byte}
    (hn : n ≤ Config.countMax) (hlen : payload.length = op.payloadBytes n) :
    (Instr.ofCommand op n p t payload).wellFormed c = true := by
  cases op with
  | changeMode | writeData | readWriteData | queueReadWrite => exact Machine.payloadFits_iff.mpr ⟨hn, hlen⟩
  | readData | queueRead | finishRead => exact decide_eq_true hn
  | flush => rfl

/-- A decoded command is a legal word with the payload its opcode and COUNT imply. -/
theorem decodeWord_eq_command_legal {w : Word} {bs rest : List Byte} {i : Instr}
    (h : decodeWord w bs = .command i rest) :
    ∃ op payload, Opcode.ofBits (opcField w) = some op ∧ illegalReason w = none ∧
      i = Instr.ofCommand op (countField w) (pField w) (tField w) payload ∧ bs = payload ++ rest ∧
      payload.length = op.payloadBytes (countField w) := by
  cases hl : illegalReason w with
  | some why => simp [decodeWord_illegal hl] at h
  | none =>
    obtain ⟨op, ho⟩ := ofBits_of_legal hl
    obtain ⟨-, payload, -, rfl, hlen⟩ := decodeWord_eq_command h
    rw [payloadLength_legal hl ho] at hlen
    rw [decodeWord_legal hl ho hlen] at h
    cases h
    exact ⟨op, payload, ho, rfl, rfl, rfl, hlen⟩

/-- Every decoded command is well formed under any parameters: its COUNT fits and its payload is whole. -/
theorem wellFormed_of_decode {bs rest : List Byte} {i : Instr} (h : decode bs = .command i rest) (c : Params) :
    i.wellFormed c = true := by
  obtain ⟨b0, b1, b2, b3, tail, -, hword⟩ := decode_eq_command h
  obtain ⟨op, payload, -, -, rfl, -, hlen⟩ := decodeWord_eq_command_legal hword
  exact wellFormed_ofCommand c _ _ (countField_le _) hlen

/-- A command word whose fields its opcode uses decodes, with its payload, to its command. -/
theorem decode_commandWord {op : Opcode} {n : Nat} {p t : Bool} {payload : List Byte} (rest : List Byte)
    (hn : n ≤ Config.countMax) (hp : p = true → op.usesP = true) (ht : t = true → op.usesT = true)
    (hf : op = .flush → n = 0) (hlen : payload.length = op.payloadBytes n) :
    decode (wordBytes (commandWord op p t n) ++ payload ++ rest) =
      .command (Instr.ofCommand op n p t payload) rest := by
  have hcount := countField_commandWord op p t n hn
  rw [List.append_assoc, decode_wordBytes,
    decodeWord_legal (illegalReason_commandWord op p t n hn hp ht hf) (by rw [opcField_commandWord, ofBits_bits])
      (by rw [hcount, hlen]), hcount, pField_commandWord, tField_commandWord]

end Sys2Proof
end

section
/-! The statements about decode and encode of commands (30_encoding.md section 1). -/

namespace Sys2Proof

/-- Settles O6: each command is its word and its payload, and `decode_commandWord` reads both back. -/
theorem encodedCommandsDecodeToThemselves : Obligations.EncodedCommandsDecodeToThemselves := by
  intro c i rest hwf hi
  have hread : ∀ {op n p t payload}, n ≤ Config.countMax → (p = true → op.usesP = true) →
      (t = true → op.usesT = true) → (op = .flush → n = 0) → payload.length = op.payloadBytes n →
      decode ((Instr.ofCommand op n p t payload).bytes ++ rest) = .command (Instr.ofCommand op n p t payload) rest :=
    fun hn hp ht hf hlen => by rw [bytes_ofCommand hp ht hf hlen, decode_commandWord rest hn hp ht hf hlen]
  cases i with
  | changeMode l t payload =>
    obtain ⟨hn, hlen⟩ := Machine.payloadFits_iff.mp hwf
    exact hread (op := .changeMode) (p := false) hn nofun (fun _ => rfl) nofun hlen
  | writeData n p data =>
    obtain ⟨hn, hlen⟩ := Machine.payloadFits_iff.mp hwf
    exact hread (op := .writeData) (t := false) hn (fun _ => rfl) nofun nofun hlen
  | readWriteData n p data =>
    obtain ⟨hn, hlen⟩ := Machine.payloadFits_iff.mp hwf
    exact hread (op := .readWriteData) (t := false) hn (fun _ => rfl) nofun nofun hlen
  | queueReadWrite n p data =>
    obtain ⟨hn, hlen⟩ := Machine.payloadFits_iff.mp hwf
    exact hread (op := .queueReadWrite) (t := false) hn (fun _ => rfl) nofun nofun hlen
  | readData n =>
    exact hread (op := .readData) (p := false) (t := false) (payload := []) (of_decide_eq_true hwf) nofun nofun nofun
      rfl
  | queueRead n =>
    exact hread (op := .queueRead) (p := false) (t := false) (payload := []) (of_decide_eq_true hwf) nofun nofun nofun
      rfl
  | finishRead n =>
    exact hread (op := .finishRead) (p := false) (t := false) (payload := []) (of_decide_eq_true hwf) nofun nofun nofun
      rfl
  | flush =>
    exact hread (op := .flush) (n := 0) (p := false) (t := false) (payload := []) (Nat.zero_le _) nofun nofun
      (fun _ => rfl) rfl
  | primTmsOut | primTmsIo | primBytesOut | primBytesIn | primBytesIo | primBitsOut | primBitsIn | primBitsIo =>
    cases hi

/-- Settles O7: a legal word is the command word of its fields, and its payload has the length they imply. -/
theorem decodedCommandsReencode : Obligations.DecodedCommandsReencode := by
  intro bs i rest h
  refine ⟨?bytes, toPrim_of_decode_eq_command h, wellFormed_of_decode h⟩
  obtain ⟨b0, b1, b2, b3, tail, rfl, hword⟩ := decode_eq_command h
  obtain ⟨op, payload, ho, hlegal, rfl, rfl, hlen⟩ := decodeWord_eq_command_legal hword
  obtain ⟨op', ho', hr, hp, ht, hf⟩ := (illegalReason_eq_none_iff _).mp hlegal
  obtain rfl : op = op' := Option.some.inj (ho.symm.trans ho')
  rw [bytes_ofCommand hp ht hf hlen, commandWord_fields ho hr, wordBytes_bytesWord]
  rfl

end Sys2Proof
end

section
/-! SUPPORT. Deliveries from the head of `opb` (20_memory.md R58, R59) and the edges issued (10_state.md R31). -/

namespace Sys2Proof.Machine

/-- The first `k` primitives of `opb` delivered, the environment's next outcomes drawn (R58; log 1, 3). -/
def State.deliver (s : State) (k : Nat) (e : Env) : State :=
  Ops.clockAll (s.opb.take k) { s with opb := s.opb.drop k, env := e }

theorem deliverAll_eq_deliver (s : State) (e : Env) : s.deliverAll e = s.deliver s.opb.length e := by
  rw [State.deliver, List.take_length, List.drop_length, State.deliverAll]

theorem deliver_frame (s : State) (k : Nat) (e : Env) :
    s.deliver k e = { s with
      opb := s.opb.drop k, env := e
      trace := s.trace ++ sampleEdges e.oracle s.trace.length (edgesOf (s.opb.take k))
      rrq := (s.deliver k e).rrq, syncCap := (s.deliver k e).syncCap } := by
  conv_lhs => rw [State.deliver, Ops.clockAll_frame, Ops.clockAll_trace]
  rfl

@[simp] theorem deliver_env (s : State) (k : Nat) (e : Env) : (s.deliver k e).env = e := by rw [deliver_frame]
@[simp] theorem deliver_params (s : State) (k : Nat) (e : Env) : (s.deliver k e).params = s.params := by
  rw [deliver_frame]
@[simp] theorem deliver_opb (s : State) (k : Nat) (e : Env) : (s.deliver k e).opb = s.opb.drop k := by
  rw [deliver_frame]
@[simp] theorem deliver_tap (s : State) (k : Nat) (e : Env) : (s.deliver k e).tap = s.tap := by rw [deliver_frame]
@[simp] theorem deliver_nextId (s : State) (k : Nat) (e : Env) : (s.deliver k e).nextId = s.nextId := by
  rw [deliver_frame]
@[simp] theorem deliver_responses (s : State) (k : Nat) (e : Env) : (s.deliver k e).responses = s.responses := by
  rw [deliver_frame]

/-- A delivery keeps every entry's id, length and kind. -/
theorem map_label_deliver (s : State) (k : Nat) (e : Env) :
    (s.deliver k e).rrq.map Entry.label = s.rrq.map Entry.label :=
  Ops.map_clockAll_rrq Entry.label (fun _ _ => rfl) _ _

/-- A delivery moves issued edges from `opb` to `trace`. -/
@[simp] theorem issued_deliver (s : State) (k : Nat) (e : Env) : (s.deliver k e).issued = s.issued := by
  rw [deliver_frame]
  simp only [State.issued, List.map_append, map_edge_sampleEdges, List.append_assoc]
  rw [← edgesOf_append, List.take_append_drop]

@[simp] theorem issued_deliverAll (s : State) (e : Env) : (s.deliverAll e).issued = s.issued := by
  rw [deliverAll_eq_deliver, issued_deliver]

@[simp] theorem issued_emitAll (ps : List Prim) (s : State) :
    (Ops.emitAll ps s).issued = s.issued ++ edgesOf ps := by
  simp [State.issued]

end Sys2Proof.Machine
end

section
/-! SUPPORT. What the steps beside a command leave alone, and the command of a step as one of its cases. -/

namespace Sys2Proof.Machine

/-- A step that runs a command, by what the command can do. -/
theorem commandCase_of_step {s t : State} {i : Instr} {rest : List Byte} (hdec : decode s.input = .command i rest)
    (h : exec i (Ops.fetched rest s) = .next t) : CommandCase (Ops.fetched rest s) i t :=
  commandCase_of_exec (toPrim_of_decode_eq_command hdec) (wellFormed_of_decode hdec _) h

theorem commandEdges_fetched (s : State) (i : Instr) (rest : List Byte) :
    commandEdges (Ops.fetched rest s) i = commandEdges s i := by
  cases i <;> simp [commandEdges]

/-- Drawing a turn changes nothing that a delivery's draw may not change. -/
theorem drawFrame_drawTurn (s : State) : s.env.DrawFrame (Ops.drawTurn s).env :=
  ⟨by rw [Ops.drawTurn_env], fun _ => by rw [Ops.drawTurn_env]; exact ⟨rfl, rfl⟩⟩

theorem drawFrame_trans {e f g : Env} (hef : e.DrawFrame f) (hfg : f.DrawFrame g) : e.DrawFrame g := by
  obtain ⟨hf, hfailf⟩ := hef
  obtain ⟨hg, hfailg⟩ := hfg
  refine ⟨?_, fun hok => ?_⟩
  · conv_lhs => rw [hg, hf]
  · have hokf : f.transportOk = true := by rw [hf]; exact hok
    exact ⟨(hfailg hokf).1.trans (hfailf hok).1, (hfailg hokf).2.trans (hfailf hok).2⟩

/-- The state at a free delivery: only the two draws have been made (log 1, 3). -/
theorem drawn_eq (s : State) : ∃ e, s.env.DrawFrame e ∧ Ops.drawFailure (Ops.drawTurn s) = { s with env := e } := by
  refine ⟨_, drawFrame_trans (drawFrame_drawTurn s) (drawFrame_drawFailure _), ?_⟩
  rw [Ops.drawFailure_eq, Ops.drawTurn_frame]

/-- A free delivery that does not fail delivers the first primitives of `opb`. -/
theorem clockAll_drawn_eq_deliver (s : State) (k : Nat) : ∃ e, s.env.DrawFrame e ∧
    Ops.clockAll (s.opb.take k) { Ops.drawFailure (Ops.drawTurn s) with opb := s.opb.drop k } = s.deliver k e := by
  obtain ⟨e, hdraw, hdrawn⟩ := drawn_eq s
  exact ⟨e, hdraw, by rw [hdrawn]; rfl⟩

theorem transportOk_of_nextFailure {s : State} {m : Nat} (h : Ops.nextFailure s = some m) :
    s.env.transportOk = false := by
  cases hok : s.env.transportOk
  · rfl
  · simp [Ops.nextFailure, hok] at h

/-- An illegal word raises its fault in RUN, and in FAULTED mode answers the first cause (R223, R227). -/
theorem illegalCommand_eq (s : State) :
    Ops.illegalCommand s = match s.mode with
      | .run => (Ops.enterFaulted .illegalCommand s).answered .illegalCommand []
      | .faulted => s.answered s.faultCause [] := by
  cases h : s.mode with
  | run => exact Ops.runCommand_run _ s h
  | faulted => exact Ops.runCommand_faulted _ s h

end Sys2Proof.Machine
end

section
/-! SUPPORT. The edges that a step issues, and the ghost `tap` along them (10_state.md R31, 20_memory.md R57). -/

namespace Sys2Proof.Machine

@[simp] theorem issued_answered (s : State) (c : Status) (bits : List Bool) :
    (s.answered c bits).issued = s.issued := rfl

@[simp] theorem issued_enterFaulted (c : Status) (s : State) : (Ops.enterFaulted c s).issued = s.issued := by
  simp [State.issued]

theorem issued_illegalCommand (s : State) : (Ops.illegalCommand s).issued = s.issued := by
  rw [illegalCommand_eq]
  split <;> simp

/-- Where no delivery fails, a command issues its edges after those before it (20_memory.md R57, R60). -/
theorem CommandCase.issued_eq {s t : State} {i : Instr} (h : CommandCase s i t) (hok : s.env.transportOk = true) :
    t.issued = s.issued ++ commandEdges s i := by
  cases h with
  | answers c hedges ht => rw [hedges, List.append_nil, ht, issued_answered]
  | faults code _ hedges ht => rw [hedges, List.append_nil, ht, issued_answered, issued_enterFaulted]
  | emits ps of hps _ ht => rw [hps.edges, ht, issued_answered, issued_emitAll]; rfl
  | enqueues n kind ps hps _ _ _ ht => rw [hps.edges, ht, issued_answered, State.enqueued, issued_emitAll]; rfl
  | delivers e _ hedges ht => rw [hedges, List.append_nil, ht, issued_answered, issued_deliverAll]
  | reads ps e bits hps _ _ ht =>
    rw [hps.edges, ht, issued_answered, issued_deliverAll, State.syncStarted, issued_emitAll]; rfl
  | retires _ d head rest hedges hd hhead ht =>
    have hissued : d.issued = s.issued := by
      rcases hd with ⟨rfl, -⟩ | ⟨e, -, rfl⟩
      · rfl
      · exact issued_deliverAll s e
    rw [hedges, List.append_nil, ht, issued_answered, ← hissued]; rfl
  | fails m e k hfail => exact absurd hok (by simp [hfail])

theorem stepEdges_of_command {s : State} (hmoves : s.SequencerMoves) {i : Instr} {rest : List Byte}
    (hdec : decode s.input = .command i rest) : s.stepEdges = commandEdges s i := by
  obtain ⟨-, -, hturn | hopb⟩ := hmoves
  · simp [State.stepEdges, hturn, hdec]
  · simp [State.stepEdges, hopb, hdec]

/-- A hold or an illegal word issues no edge. -/
theorem stepEdges_of_no_command {s : State} (hdec : ∀ i rest, decode s.input ≠ .command i rest) :
    s.stepEdges = [] := by
  unfold State.stepEdges
  split
  · rfl
  · next heq _ => exact absurd heq (hdec _ _)
  · rfl

theorem stepEdges_of_transport {s : State} {k : Nat} (hturn : s.env.turn = .transport k) (hopb : s.opb ≠ []) :
    s.stepEdges = [] := by
  obtain ⟨p, ps, hps⟩ := List.exists_cons_of_ne_nil hopb
  simp [State.stepEdges, hturn, hps]

/-- Settles O24: a delivery moves edges from `opb` to `trace`, and a command emits its own after them. -/
theorem edgesIssuedInOrder : Obligations.EdgesIssuedInOrder := by
  intro s t hok _ hhost h
  cases stepCase_of_step h with
  | teardown hrel => exact absurd hrel hhost
  | hold _ hdec ht =>
    rw [stepEdges_of_no_command (by simp [hdec]), List.append_nil, ht]
    simp [State.issued, Ops.hold_eq]
  | illegal _ why rest hdec ht =>
    rw [stepEdges_of_no_command (by simp [hdec]), List.append_nil, ht, issued_illegalCommand]
    simp [State.issued]
  | command hmoves i rest hdec ht =>
    have hissued := (commandCase_of_step hdec ht).issued_eq (by rw [Ops.fetched_frame]; exact hok)
    rw [hissued, stepEdges_of_command hmoves hdec, commandEdges_fetched]
    simp [State.issued]
  | deliver k hturn hopb _ ht =>
    obtain ⟨e, -, hdeliver⟩ := clockAll_drawn_eq_deliver s (k + 1)
    rw [stepEdges_of_transport hturn hopb, List.append_nil, ht, hdeliver, issued_deliver]
  | fail k m _ _ hfail => exact absurd hok (by simp [transportOk_of_nextFailure hfail])

/-! ## The ghost tap -/

theorem tapTracks_congr {s t : State} (hissued : t.issued = s.issued) (htap : t.tap = s.tap) (h : s.TapTracks) :
    t.TapTracks := by
  unfold State.TapTracks
  rwa [hissued, htap]

/-- Emitting primitives walks `tap` along the edges they add (R113). -/
theorem tapTracks_emitAll (ps : List Prim) {s : State} (h : s.TapTracks) : (Ops.emitAll ps s).TapTracks := by
  unfold State.TapTracks
  rw [issued_emitAll, Ops.emitAll_tap, flatMap_tmsOf, List.map_append, walk_append]
  exact mem_walk_mono h _

theorem tapTracks_deliverAll (e : Env) {s : State} (h : s.TapTracks) : (s.deliverAll e).TapTracks :=
  tapTracks_congr (issued_deliverAll s e) (by rw [deliverAll_eq_deliver, deliver_tap]) h

/-- A `tap` that holds all 16 states holds the target's. -/
theorem tapTracks_of_all {s : State} (h : s.tap = TapState.all) : s.TapTracks :=
  fun x _ => h ▸ TapState.mem_all x

theorem CommandCase.tapTracks {s t : State} {i : Instr} (h : CommandCase s i t) (htap : s.TapTracks) :
    t.TapTracks := by
  cases h with
  | answers c _ ht => subst ht; exact htap
  | faults code _ _ ht => subst ht; exact tapTracks_congr (issued_enterFaulted code s) (by simp) htap
  | emits ps of _ _ ht => subst ht; exact tapTracks_emitAll ps (s := { s with ofaults := of }) htap
  | enqueues n kind ps _ _ _ _ ht => subst ht; exact tapTracks_emitAll ps htap
  | delivers e _ _ ht => subst ht; exact tapTracks_deliverAll e htap
  | reads ps e bits _ _ _ ht => subst ht; exact tapTracks_deliverAll e (tapTracks_emitAll ps htap)
  | retires _ d head rest _ hd _ ht =>
    subst ht
    rcases hd with ⟨rfl, -⟩ | ⟨e, -, rfl⟩
    · exact htap
    · exact tapTracks_deliverAll e htap
  | fails m e k _ _ _ ht => subst ht; exact tapTracks_of_all (Ops.failDelivery_tap _ _ _)

/-- Settles O5: issued edges are walked when they are emitted; a failed delivery makes `tap` unknown. -/
theorem stepKeepsTapTracking : Obligations.StepKeepsTapTracking := by
  intro s t _ hhost htap h
  cases stepCase_of_step h with
  | teardown hrel => exact absurd hrel hhost
  | hold _ _ ht => exact tapTracks_congr (by simp [State.issued, ht, Ops.hold_eq]) (by simp [ht, Ops.hold_eq]) htap
  | illegal _ why rest _ ht =>
    refine tapTracks_congr (s := s) ?_ ?_ htap
    · rw [ht, issued_illegalCommand]; simp [State.issued]
    · rw [ht, illegalCommand_eq]; split <;> simp
  | command _ i rest hdec ht =>
    exact (commandCase_of_step hdec ht).tapTracks
      (tapTracks_congr (by simp [State.issued]) (Ops.fetched_tap rest s) htap)
  | deliver k _ _ _ ht =>
    obtain ⟨e, -, hdeliver⟩ := clockAll_drawn_eq_deliver s (k + 1)
    rw [ht, hdeliver]
    exact tapTracks_congr (issued_deliver s _ e) (deliver_tap s _ e) htap
  | fail k m _ _ _ ht => exact tapTracks_of_all (by rw [ht, Ops.failDelivery_tap])

end Sys2Proof.Machine
end

section
/-! The statement about the history of a session (20_memory.md R57, 10_state.md R21, R23, R30, R32, R34). -/

namespace Sys2Proof.Machine

/-- `t` has the history of `s`, perhaps more, and its configuration and environment. -/
structure State.Grows (s t : State) : Prop where
  trace : s.trace <+: t.trace
  responses : s.responses <+: t.responses
  ofaults : s.ofaults <+: t.ofaults
  cmdIdx : s.cmdIdx ≤ t.cmdIdx
  params : t.params = s.params
  env : s.env.DrawFrame t.env

theorem State.Grows.trans {s t u : State} (h : s.Grows t) (k : t.Grows u) : s.Grows u where
  trace := h.trace.trans k.trace
  responses := h.responses.trans k.responses
  ofaults := h.ofaults.trans k.ofaults
  cmdIdx := h.cmdIdx.trans k.cmdIdx
  params := k.params.trans h.params
  env := drawFrame_trans h.env k.env

/-- A change to the mode, `opb`, the queue, `tap` and the like keeps the history. -/
theorem grows_of_eq {s t : State} (htrace : t.trace = s.trace) (hresponses : t.responses = s.responses)
    (hofaults : s.ofaults <+: t.ofaults) (hidx : t.cmdIdx = s.cmdIdx) (hparams : t.params = s.params)
    (henv : s.env.DrawFrame t.env) : s.Grows t where
  trace := htrace ▸ List.prefix_rfl
  responses := hresponses ▸ List.prefix_rfl
  ofaults := hofaults
  cmdIdx := hidx.ge
  params := hparams
  env := henv

theorem grows_answered (s : State) (c : Status) (bits : List Bool) : s.Grows (s.answered c bits) where
  trace := List.prefix_rfl
  responses := List.prefix_append _ _
  ofaults := List.prefix_rfl
  cmdIdx := Nat.le_succ _
  params := rfl
  env := drawFrame_refl _

theorem State.Grows.answered {s m : State} {c : Status} {bits : List Bool} (h : s.Grows m) :
    s.Grows (m.answered c bits) :=
  h.trans (grows_answered m c bits)

theorem grows_enterFaulted (s : State) (c : Status) : s.Grows (Ops.enterFaulted c s) :=
  grows_of_eq (by simp) (by simp) (by simp) (by simp) (by simp) (by rw [Ops.enterFaulted_env]; exact drawFrame_refl _)

theorem grows_deliver {s : State} {e : Env} (k : Nat) (hdraw : s.env.DrawFrame e) : s.Grows (s.deliver k e) := by
  rw [deliver_frame]
  exact ⟨List.prefix_append _ _, List.prefix_rfl, List.prefix_rfl, Nat.le_refl _, rfl, hdraw⟩

theorem grows_deliverAll {s : State} {e : Env} (hdraw : s.env.DrawFrame e) : s.Grows (s.deliverAll e) := by
  rw [deliverAll_eq_deliver]
  exact grows_deliver _ hdraw

theorem grows_failDelivery {s : State} {e : Env} (ps : List Prim) (m : Nat) (hdraw : s.env.DrawFrame e) :
    s.Grows (Ops.failDelivery ps m { s with env := e }) where
  trace := by rw [Ops.failDelivery_trace]; exact List.prefix_append _ _
  responses := by rw [Ops.failDelivery_responses]
  ofaults := by rw [Ops.failDelivery_ofaults]
  cmdIdx := by rw [Ops.failDelivery_cmdIdx]
  params := by rw [Ops.failDelivery_params]
  env := by rw [Ops.failDelivery_env]; exact hdraw

theorem grows_illegalCommand (s : State) : s.Grows (Ops.illegalCommand s) := by
  rw [illegalCommand_eq]
  split
  · exact (grows_enterFaulted s _).answered
  · exact grows_answered s _ _

theorem isPrefix_recordEnd_ofaults (s : State) : s.ofaults <+: (Ops.recordEnd s).ofaults := by
  rw [Ops.recordEnd_eq]
  split
  · rw [Ops.endRun_eq]
    dsimp only
    split
    · exact List.prefix_rfl
    · exact List.prefix_append _ _
  · exact List.prefix_rfl

theorem grows_syncStarted (s : State) (ps : List Prim) : s.Grows (s.syncStarted ps) :=
  grows_of_eq rfl rfl (isPrefix_checkedOfaults s) rfl rfl (drawFrame_refl _)

theorem CommandCase.grows {s t : State} {i : Instr} (h : CommandCase s i t) : s.Grows t := by
  cases h with
  | answers c _ ht => rw [ht]; exact grows_answered s c []
  | faults code _ _ ht => rw [ht]; exact (grows_enterFaulted s code).answered
  | emits ps of _ hof ht =>
    rw [ht]
    exact .answered (grows_of_eq rfl rfl hof rfl rfl (drawFrame_refl _))
  | enqueues n kind ps _ _ _ _ ht =>
    rw [ht]
    exact .answered (grows_of_eq rfl rfl (isPrefix_checkedOfaults s) rfl rfl (drawFrame_refl _))
  | delivers e hdraw _ ht => rw [ht]; exact (grows_deliverAll hdraw).answered
  | reads ps e bits _ hdraw _ ht =>
    rw [ht]
    exact ((grows_syncStarted s ps).trans (grows_deliverAll hdraw)).answered
  | retires _ d head rest _ hd _ ht =>
    have hgrows : s.Grows d := by
      rcases hd with ⟨rfl, -⟩ | ⟨e, hdraw, rfl⟩
      · exact grows_of_eq rfl rfl List.prefix_rfl rfl rfl (drawFrame_refl _)
      · exact grows_deliverAll hdraw
    rw [ht]
    exact .answered (hgrows.trans (grows_of_eq rfl rfl List.prefix_rfl rfl rfl (drawFrame_refl _)))
  | fails m e k _ hdraw hm ht =>
    have hgrows : s.Grows (Ops.failDelivery m.opb k { m with env := e }) := by
      rcases hm with rfl | ⟨ps, rfl⟩
      · exact grows_failDelivery _ k hdraw
      · exact (grows_syncStarted s ps).trans (grows_failDelivery _ k hdraw)
    rw [ht]
    exact hgrows.answered

theorem grows_fetched (s : State) (rest : List Byte) : s.Grows (Ops.fetched rest s) :=
  grows_of_eq (by simp) (by simp) (by simp) (by simp) (by simp) (drawFrame_drawTurn { s with input := rest })

theorem grows_of_step {s t : State} (h : step s = .next t) : s.Grows t := by
  cases stepCase_of_step h with
  | teardown _ ht =>
    rw [ht]
    exact grows_of_eq (by simp) (by simp) (by simpa using isPrefix_recordEnd_ofaults s) (by simp) (by simp)
      (by rw [Ops.teardown_env]; exact drawFrame_refl _)
  | hold _ _ ht =>
    rw [ht, Ops.hold_eq]
    exact grows_of_eq (by simp) (by simp) (by simpa using isPrefix_recordEnd_ofaults (Ops.drawTurn s)) (by simp)
      (by simp) (by rw [Ops.recordEnd_env]; exact drawFrame_drawTurn s)
  | illegal _ _ rest _ ht => rw [ht]; exact (grows_fetched s rest).trans (grows_illegalCommand _)
  | command _ _ rest hdec ht => exact (grows_fetched s rest).trans (commandCase_of_step hdec ht).grows
  | deliver k _ _ _ ht =>
    obtain ⟨e, hdraw, hdeliver⟩ := clockAll_drawn_eq_deliver s (k + 1)
    rw [ht, hdeliver]
    exact grows_deliver _ hdraw
  | fail k m _ _ _ ht =>
    obtain ⟨e, hdraw, hdrawn⟩ := drawn_eq s
    rw [ht, hdrawn]
    exact grows_failDelivery _ m hdraw

/-- Settles O25: each operation of a step only appends to the history, and growing is transitive. -/
theorem historyOnlyGrows : Obligations.HistoryOnlyGrows := by
  intro s t h
  obtain ⟨htrace, hresponses, hofaults, hidx, hparams, henv⟩ := grows_of_step h
  exact ⟨htrace, hresponses, hofaults, hidx, hparams, henv⟩

end Sys2Proof.Machine
end

section
/-! SUPPORT. How many primitives and captured bits an entry owns (10_state.md R25, 42_queue.md R192). -/

namespace Sys2Proof.Machine

theorem ownedBy_append (k : Nat) (ps qs : List Prim) : ownedBy k (ps ++ qs) = ownedBy k ps ++ ownedBy k qs :=
  List.filter_append ..

theorem ownedBy_eq_nil {k : Nat} {ps : List Prim} (h : ∀ p ∈ ps, p.body.own ≠ .entry k) : ownedBy k ps = [] :=
  List.filter_eq_nil_iff.mpr fun p hp => by simpa using h p hp

theorem ownedBy_eq_self {k : Nat} {ps : List Prim} (h : ∀ p ∈ ps, p.body.own = .entry k) : ownedBy k ps = ps :=
  List.filter_eq_self.mpr fun p hp => by simpa using h p hp

/-- A primitive with an owner captures each of its edges (R24, R86). -/
theorem capturing_of_sound {c : Params} {p : Prim} (h : Prim.sound c p = true) (hown : p.body.own ≠ .none) :
    capturing p.kind = true := by
  obtain ⟨kind, b⟩ := p
  cases kind with
  | tmsIo | bytesIn | bytesIo | bitsIn | bitsIo => rfl
  | tmsOut | bytesOut | bitsOut =>
    simp only [Prim.sound, Instr.ofPrim, Instr.wellFormed, ownerIsNone, Bool.and_eq_true, decide_eq_true_eq] at h
    obtain ⟨⟨-, hnone⟩, -⟩ := h
    exact absurd hnone hown

/-- An entry gets one bit for each edge of its primitives. -/
theorem length_ownedBits (o : TdoOracle) (k pos : Nat) {ps : List Prim}
    (h : ∀ p ∈ ps, p.body.own = .entry k → capturing p.kind = true) :
    (ownedBits o k pos ps).length = (edgesOf (ownedBy k ps)).length := by
  induction ps generalizing pos with
  | nil => rfl
  | cons p ps ih =>
    have hrest := ih (pos + (primEdges p).length) fun q hq => h q (List.mem_cons_of_mem p hq)
    by_cases hown : p.body.own = .entry k
    · have hall : ∀ e ∈ primEdges p, e.capture = true := fun e he => by
        rw [capture_of_mem_primEdges he, h p List.mem_cons_self hown]
      simpa [ownedBits, ownedBy, hown, length_tdoBits_of_captured o pos _ hall] using hrest
    · simpa [ownedBits, ownedBy, hown] using hrest

theorem length_tdoBits_le (es : List TraceEdge) : (tdoBits es).length ≤ es.length := List.length_filterMap_le _ _

/-- A delivery of primitives whose raw captures have room, field by field (20_memory.md R59). -/
theorem deliver_eq {s : State} (hfits : ∀ p ∈ s.opb, rawFits p) (k : Nat) (e : Env) :
    s.deliver k e = { s with
      opb := s.opb.drop k, env := e
      trace := s.trace ++ sampleEdges e.oracle s.trace.length (edgesOf (s.opb.take k))
      rrq := s.rrq.map (Entry.afterDelivery e.oracle s.trace.length (s.opb.take k))
      syncCap := s.syncCap ++ bitsOwnedBy e.oracle .sync s.trace.length (s.opb.take k) } := by
  have hprefix : ∀ p ∈ s.opb.take k, rawFits p := fun p hp => hfits p (List.mem_of_mem_take hp)
  rw [deliver_frame, State.deliver, Ops.clockAll_rrq hprefix, Ops.clockAll_syncCap hprefix]

end Sys2Proof.Machine
end

section
/-! SUPPORT. What keeps the invariant: an answer, a fault, an emission, a new entry, a delivery, a failed delivery and
the removal of a complete head. -/

namespace Sys2Proof.Machine

variable {s : State}

theorem inv_answered (h : s.Inv) {c : Status} {bits : List Bool} (hbits : bits.length ≤ Config.countMax) :
    (s.answered c bits).Inv := by
  obtain ⟨hparams, hmode, ⟨hcount, hlengths⟩, htap, hbuf, hqueue, hcap, hrel⟩ := h
  refine ⟨hparams, hmode, ⟨by simp [hcount], fun r hr => ?_⟩, htap, hbuf, hqueue, hcap, hrel⟩
  rcases List.mem_append.mp hr with hr | hr
  · exact hlengths r hr
  · rw [List.mem_singleton.mp hr]
    exact hbits

theorem inv_enterFaulted (h : s.Inv) {code : Status} (hcode : code.isFault = true) : (Ops.enterFaulted code s).Inv := by
  unfold Ops.enterFaulted
  split
  · obtain ⟨hparams, -, hresp, htap, hbuf, hqueue, hcap, hrel⟩ := h
    exact ⟨hparams, ⟨nofun, fun _ => hcode⟩, hresp, htap, hbuf, hqueue, fun e he => ⟨(hcap e he).1, nofun⟩, hrel⟩
  · exact h

/-- A primitive owned by no entry leaves every entry's account as it is. -/
theorem captureOk_append {ps : List Prim} (hcap : s.CaptureOk) (hps : ∀ p ∈ ps, ∀ k, p.body.own ≠ .entry k) :
    { s with opb := s.opb ++ ps }.CaptureOk := by
  intro e he
  have hsame : ownedBy e.id (s.opb ++ ps) = ownedBy e.id s.opb := by
    rw [ownedBy_append, ownedBy_eq_nil fun p hp => hps p hp _, List.append_nil]
  dsimp only
  rw [hsame]
  exact hcap e he

theorem tapOk_walk (htap : s.TapOk) (tms : List Bool) :
    walk s.tap tms ≠ [] ∧ walk s.tap tms = TapState.all.filter fun t => decide (t ∈ walk s.tap tms) :=
  ⟨walk_ne_nil htap.1 tms, walk_canonical htap.2 tms⟩

theorem inv_emitAll (h : s.Inv) {ps : List Prim} (hsound : ∀ p ∈ ps, Prim.sound s.params p = true)
    (hown : ∀ p ∈ ps, p.body.own = .none) (hlive : s.released = false) : (Ops.emitAll ps s).Inv := by
  obtain ⟨hparams, hmode, hresp, htap, hbuf, hqueue, hcap, hrel⟩ := h
  refine ⟨hparams, hmode, hresp, tapOk_walk htap _, fun p hp => ?_, hqueue,
    captureOk_append hcap fun p hp k => by rw [hown p hp]; nofun, fun hreleased => ?_⟩
  · rcases List.mem_append.mp hp with hp | hp
    · exact hbuf p hp
    · exact ⟨hsound p hp, by rw [hown p hp]; rfl⟩
  · exact absurd (hreleased.symm.trans hlive) (by decide)

theorem ownerKnown_mono {ids ids' : List Nat} (hids : ∀ k ∈ ids, k ∈ ids') {own : Owner}
    (h : ownerKnown ids own = true) : ownerKnown ids' own = true := by
  cases own with
  | none => rfl
  | sync => exact h
  | entry k => exact decide_eq_true (hids k (of_decide_eq_true h))

/-- A new entry of the queue with all of its primitives in `opb` (42_queue.md R182). -/
theorem inv_enqueued (h : s.Inv) (hlive : s.released = false) {n : Nat} {kind : EntryKind} {ps : List Prim}
    (hsound : ∀ p ∈ ps, Prim.sound s.params p = true) (hown : ∀ p ∈ ps, p.body.own = .entry s.nextId)
    (hroom : s.rrq.length < s.params.rrqDepth) (hn : 1 ≤ n ∧ n ≤ Config.countMax)
    (hlen : (edgesOf ps).length = n ∨ kind = .readWrite ∧ (edgesOf ps).length = n + 1) :
    (s.enqueued n kind ps).Inv := by
  obtain ⟨hparams, hmode, hresp, htap, hbuf, hqueue, hcap, hrel⟩ := h
  have hopb := own_ne_nextId_of_mem_opb hbuf hqueue
  obtain ⟨hdepth, hrising, hentries⟩ := hqueue
  have hids : (s.enqueued n kind ps).entryIds = s.entryIds ++ [s.nextId] := List.map_append
  refine ⟨hparams, hmode, hresp, tapOk_walk htap _, fun p hp => ?buffer, ⟨?depth, ?rising, fun e he => ?entry⟩,
    fun e he => ?capture, fun hreleased => absurd (hreleased.symm.trans hlive) (by decide)⟩
  case buffer =>
    rw [hids]
    rcases List.mem_append.mp hp with hp | hp
    · exact ⟨(hbuf p hp).1, ownerKnown_mono (fun k hk => List.mem_append_left _ hk) (hbuf p hp).2⟩
    · exact ⟨hsound p hp, by simp [hown p hp, ownerKnown]⟩
  case depth => simpa [State.enqueued] using hroom
  case rising =>
    rw [hids, List.pairwise_append]
    refine ⟨hrising, List.pairwise_singleton _ _, fun k hk j hj => ?_⟩
    obtain ⟨e, he, rfl⟩ := List.mem_map.mp hk
    rw [List.mem_singleton.mp hj]
    exact (hentries e he).1
  case entry =>
    rcases List.mem_append.mp he with he | he
    · exact ⟨Nat.lt_succ_of_lt (hentries e he).1, (hentries e he).2⟩
    · rw [List.mem_singleton.mp he]
      exact ⟨Nat.lt_succ_self _, hn⟩
  case capture =>
    change e.undelivered = (ownedBy e.id (s.opb ++ ps)).length ∧ (s.mode = .run →
      (e.kind = .read → e.cap.length + (edgesOf (ownedBy e.id (s.opb ++ ps))).length = e.n) ∧
      (e.kind = .readWrite → e.cap.length + (edgesOf (ownedBy e.id (s.opb ++ ps))).length = e.n ∨
        e.cap.length + (edgesOf (ownedBy e.id (s.opb ++ ps))).length = e.n + 1))
    rcases List.mem_append.mp he with he | he
    · have hother : ∀ p ∈ ps, p.body.own ≠ .entry e.id := fun p hp => by
        rw [hown p hp]
        exact fun heq => absurd (Owner.entry.inj heq) (hentries e he).1.ne'
      rw [ownedBy_append, ownedBy_eq_nil hother, List.append_nil]
      exact hcap e he
    · rw [List.mem_singleton.mp he]
      dsimp only
      rw [ownedBy_append, ownedBy_eq_nil hopb, ownedBy_eq_self hown, List.nil_append]
      refine ⟨rfl, fun _ => ⟨fun hread => ?_, fun _ => ?_⟩⟩
      · rcases hlen with hlen | ⟨hwrite, -⟩
        · simpa using hlen
        · exact absurd (hread.symm.trans hwrite) (by decide)
      · simpa using hlen.imp id And.right

theorem inv_deliver (h : s.Inv) (k : Nat) (e : Env) : (s.deliver k e).Inv := by
  obtain ⟨hparams, hmode, hresp, htap, hbuf, ⟨hdepth, hrising, hentries⟩, hcap, hrel⟩ := h
  rw [deliver_eq (rawFits_of_mem_opb hbuf)]
  have hids : (s.rrq.map (Entry.afterDelivery e.oracle s.trace.length (s.opb.take k))).map (·.id) = s.entryIds := by
    rw [List.map_map]; rfl
  have hsplit : ∀ x : Entry, ownedBy x.id s.opb = ownedBy x.id (s.opb.take k) ++ ownedBy x.id (s.opb.drop k) :=
    fun x => by rw [← ownedBy_append, List.take_append_drop]
  have hcaptures : ∀ x : Entry, (ownedBits e.oracle x.id s.trace.length (s.opb.take k)).length =
      (edgesOf (ownedBy x.id (s.opb.take k))).length := fun x =>
    length_ownedBits _ _ _ fun p hp hown =>
      capturing_of_sound (hbuf p (List.mem_of_mem_take hp)).1 (by rw [hown]; nofun)
  refine ⟨hparams, hmode, hresp, htap, fun p hp => ?buffer, ⟨?depth, ?rising, fun x hx => ?entry⟩, fun x hx => ?capture,
    fun hreleased => ?released⟩
  case buffer =>
    obtain ⟨hsound, hknown⟩ := hbuf p (List.mem_of_mem_drop hp)
    refine ⟨hsound, ?_⟩
    rwa [State.entryIds, hids]
  case depth => rwa [List.length_map]
  case rising => rwa [State.entryIds, hids]
  case entry =>
    obtain ⟨y, hy, rfl⟩ := List.mem_map.mp hx
    exact hentries y hy
  case capture =>
    obtain ⟨y, hy, rfl⟩ := List.mem_map.mp hx
    obtain ⟨hcount, hlengths⟩ := hcap y hy
    rw [hsplit y] at hcount hlengths
    simp only [Entry.afterDelivery, List.length_append, hcaptures, Nat.add_assoc]
    simp only [edgesOf_append, List.length_append] at hcount hlengths
    exact ⟨by omega, hlengths⟩
  case released =>
    obtain ⟨hopb, hrrq⟩ := hrel hreleased
    simp [hopb, hrrq]

theorem inv_deliverAll (h : s.Inv) (e : Env) : (s.deliverAll e).Inv := by
  rw [deliverAll_eq_deliver]
  exact inv_deliver h _ e

/-- A failed delivery, field by field (60_exceptions.md R229, R231). -/
theorem failDelivery_eq (ps : List Prim) (m : Nat) (s : State) :
    Ops.failDelivery ps m s = { s with
      mode := .faulted, faultCause := if s.mode = .run then .transportFailure else s.faultCause, opb := []
      tap := TapState.all, rrq := s.rrq.map fun e => { e with undelivered := 0 }
      trace := s.trace ++ sampleEdges s.env.oracle s.trace.length ((edgesOf ps).take m) } := by
  unfold Ops.failDelivery Ops.enterFaulted
  cases hmode : s.mode <;> simp [Ops.sampledNow, Ops.Entry.lose]

theorem tapState_all_canonical : TapState.all = TapState.all.filter fun t => decide (t ∈ TapState.all) := by decide

/-- A failed delivery empties `opb`, and every entry's account with it. -/
theorem inv_failDelivery (hparams : s.ParamsOk) (hmode : s.ModeOk) (hresp : s.ResponsesOk) (hqueue : s.QueueOk)
    (hlive : s.released = false) (ps : List Prim) (m : Nat) : (Ops.failDelivery ps m s).Inv := by
  obtain ⟨hdepth, hrising, hentries⟩ := hqueue
  obtain ⟨-, hfaulted⟩ := hmode
  rw [failDelivery_eq]
  have hids : (s.rrq.map fun e => { e with undelivered := 0 }).map (·.id) = s.entryIds := by rw [List.map_map]; rfl
  refine ⟨hparams, ⟨nofun, fun _ => ?cause⟩, hresp, ⟨List.cons_ne_nil _ _, tapState_all_canonical⟩, nofun,
    ⟨by simpa using hdepth, ?rising, fun x hx => ?entry⟩, fun x hx => ?capture,
    fun hreleased => absurd (hreleased.symm.trans hlive) (by decide)⟩
  case cause =>
    dsimp only
    split
    · rfl
    · next hrun => exact hfaulted (by cases hmode : s.mode <;> simp_all)
  case rising => rwa [State.entryIds, hids]
  case entry =>
    obtain ⟨y, hy, rfl⟩ := List.mem_map.mp hx
    exact hentries y hy
  case capture =>
    obtain ⟨y, -, rfl⟩ := List.mem_map.mp hx
    exact ⟨rfl, nofun⟩

/-- No primitive in `opb` is owned by an entry with nothing undelivered. -/
theorem own_ne_of_complete (hcap : s.CaptureOk) {e : Entry} (he : e ∈ s.rrq) (hcomplete : e.undelivered = 0) :
    ∀ p ∈ s.opb, p.body.own ≠ .entry e.id := by
  intro p hp hown
  have hnone : ownedBy e.id s.opb = [] := List.length_eq_zero_iff.mp ((hcap e he).1.symm.trans hcomplete)
  have hmem : p ∈ ownedBy e.id s.opb := List.mem_filter.mpr ⟨hp, decide_eq_true hown⟩
  rw [hnone] at hmem
  exact List.not_mem_nil hmem

theorem inv_retire (h : s.Inv) (hlive : s.released = false) {head : Entry} {rest : List Entry}
    (hhead : s.rrq = head :: rest) (hcomplete : head.undelivered = 0) : { s with rrq := rest }.Inv := by
  obtain ⟨hparams, hmode, hresp, htap, hbuf, ⟨hdepth, hrising, hentries⟩, hcap, -⟩ := h
  have hother := own_ne_of_complete hcap (hhead ▸ List.mem_cons_self) hcomplete
  have hrest : ∀ e ∈ rest, e ∈ s.rrq := fun e he => hhead ▸ List.mem_cons_of_mem head he
  have hids : s.entryIds = head.id :: rest.map (·.id) := by rw [State.entryIds, hhead]; rfl
  refine ⟨hparams, hmode, hresp, htap, fun p hp => ⟨(hbuf p hp).1, ?owner⟩, ⟨?depth, ?rising,
    fun e he => hentries e (hrest e he)⟩, fun e he => hcap e (hrest e he),
    fun hreleased => absurd (hreleased.symm.trans hlive) (by decide)⟩
  case owner =>
    have hknown := (hbuf p hp).2
    have hne := hother p hp
    rw [hids] at hknown
    cases hown : p.body.own with
    | none => rfl
    | sync => rw [hown] at hknown; exact hknown
    | entry k =>
      rw [hown] at hknown hne
      have hk : k ≠ head.id := fun heq => hne (by rw [heq])
      exact decide_eq_true ((List.mem_cons.mp (of_decide_eq_true hknown)).resolve_left hk)
  case depth =>
    rw [hhead] at hdepth
    exact Nat.le_of_succ_le hdepth
  case rising =>
    rw [hids] at hrising
    exact hrising.of_cons

/-- A synchronous read's own primitives reach no entry. -/
theorem inv_clockAll_sync {ps : List Prim} (hown : ∀ p ∈ ps, p.body.own = .sync) (h : s.Inv) :
    (Ops.clockAll ps s).Inv := by
  induction ps generalizing s with
  | nil => exact h
  | cons p ps ih =>
    refine ih (fun q hq => hown q (List.mem_cons_of_mem p hq)) ?_
    have hclock : Ops.clock p s = { s with trace := (Ops.clock p s).trace, syncCap := (Ops.clock p s).syncCap } := by
      unfold Ops.clock
      rw [hown p List.mem_cons_self]
      rfl
    change (Ops.clock p s).Inv
    rw [hclock]
    exact h

theorem deliverAll_syncStarted (s : State) (ps : List Prim) (e : Env) :
    (s.syncStarted ps).deliverAll e = syncDelivered ps { s with env := e } := by
  rw [State.deliverAll, State.syncStarted, Ops.emitAll, flatMap_tmsOf]
  rfl

theorem inv_syncDelivered (h : s.Inv) {ps : List Prim} (hown : ∀ p ∈ ps, p.body.own = .sync) :
    (syncDelivered ps s).Inv := by
  obtain ⟨hparams, hmode, hresp, htap, hbuf, hqueue, hcap, hrel⟩ := h
  have hstarted : { s with
      tap := walk s.tap ((edgesOf ps).map Edge.tms), ofaults := s.checkedOfaults, syncCap := [] : State }.Inv :=
    ⟨hparams, hmode, hresp, tapOk_walk htap _, hbuf, hqueue, hcap, hrel⟩
  rw [syncDelivered, Ops.clockAll_append]
  exact inv_clockAll_sync hown (inv_deliverAll hstarted s.env)

/-- A synchronous read captures no more bits than it has edges. -/
theorem length_syncCap_le (hbuf : s.BufferOk) {ps : List Prim} (hown : ∀ p ∈ ps, p.body.own = .sync)
    (hfits : ∀ p ∈ ps, rawFits p) : (syncDelivered ps s).syncCap.length ≤ (edgesOf ps).length := by
  rw [syncDelivered_syncCap (fun p hp => ⟨rawFits_of_mem_opb hbuf p hp, own_ne_sync_of_mem_opb hbuf p hp⟩)
    fun p hp => ⟨hfits p hp, hown p hp⟩]
  exact (length_tdoBits_le _).trans (length_sampleEdges _ _ _).le

end Sys2Proof.Machine
end

section
/-! The statement about the invariant of a step. -/

namespace Sys2Proof.Machine

theorem CommandCase.inv {s t : State} {i : Instr} (h : CommandCase s i t) (hinv : s.Inv)
    (hlive : s.released = false) : t.Inv := by
  have hparams := hinv.1
  have hzero : ([] : List Bool).length ≤ Config.countMax := Nat.zero_le _
  cases h with
  | answers c _ ht => rw [ht]; exact inv_answered hinv hzero
  | faults code hcode _ ht => rw [ht]; exact inv_answered (inv_enterFaulted hinv hcode) hzero
  | emits ps of hps _ ht =>
    rw [ht]
    exact inv_answered (inv_emitAll (s := { s with ofaults := of }) hinv (hps.sound hparams) hps.owned hlive) hzero
  | enqueues n kind ps hps hroom hn hlen ht =>
    rw [ht]
    exact inv_answered (inv_enqueued hinv hlive (hps.sound hparams) hps.owned hroom hn hlen) hzero
  | delivers e _ _ ht => rw [ht]; exact inv_answered (inv_deliverAll hinv e) hzero
  | reads ps e bits hps _ hbits ht =>
    rw [deliverAll_syncStarted] at hbits ht
    have hinv' : ({ s with env := e } : State).Inv := hinv
    obtain ⟨-, -, -, -, hbuf, -⟩ := id hinv'
    have hfits : ∀ p ∈ ps, rawFits p := fun p hp => rawFits_of_sound (hps.sound hparams p hp)
    rw [ht]
    refine inv_answered (inv_syncDelivered hinv' hps.owned) (hbits.elim id fun ⟨hcap, hmax⟩ => ?_)
    exact hcap ▸ (length_syncCap_le hbuf hps.owned hfits).trans hmax
  | retires _ d head rest _ hd hhead ht =>
    have hd' : d.Inv ∧ d.released = false ∧ head.undelivered = 0 := by
      rcases hd with ⟨rfl, hcomplete⟩ | ⟨e, -, rfl⟩
      · exact ⟨hinv, hlive, hcomplete⟩
      · have hinv' := inv_deliverAll hinv e
        refine ⟨hinv', ?_, ?_⟩
        · rw [deliverAll_eq_deliver, deliver_frame]
          exact hlive
        · obtain ⟨-, -, -, -, -, -, hcap, -⟩ := hinv'
          rw [(hcap head (hhead ▸ List.mem_cons_self)).1, deliverAll_eq_deliver, deliver_opb, List.drop_length]
          rfl
    obtain ⟨hinv', hlive', hcomplete⟩ := hd'
    have hlen : (head.cap.take head.n).length ≤ Config.countMax := by
      obtain ⟨-, -, -, -, -, ⟨-, -, hentries⟩, -⟩ := id hinv'
      obtain ⟨-, -, hmax⟩ := hentries head (hhead ▸ List.mem_cons_self)
      exact (List.length_take_le _ _).trans hmax
    rw [ht]
    exact inv_answered (inv_retire hinv' hlive' hhead hcomplete) hlen
  | fails m e k _ _ hm ht =>
    obtain ⟨-, hmode, hresp, -, -, hqueue, -⟩ := hinv
    rw [ht]
    refine inv_answered ?_ hzero
    rcases hm with rfl | ⟨ps, rfl⟩
    · exact inv_failDelivery (s := { m with env := e }) hparams hmode hresp hqueue hlive _ k
    · exact inv_failDelivery (s := { s.syncStarted ps with env := e }) hparams hmode hresp hqueue hlive _ k

theorem inv_teardown {s : State} (h : s.Inv) : (Ops.teardown s).Inv := by
  obtain ⟨hparams, hmode, hresp, htap, -⟩ := h
  rw [Ops.teardown_eq]
  exact ⟨hparams, hmode, hresp, htap, nofun, ⟨Nat.zero_le _, List.Pairwise.nil, nofun⟩, nofun, fun _ => ⟨rfl, rfl⟩⟩

theorem inv_drawTurn {s : State} (h : s.Inv) : (Ops.drawTurn s).Inv := by
  rw [Ops.drawTurn_frame]
  exact h

theorem inv_fetched {s : State} (h : s.Inv) (rest : List Byte) : (Ops.fetched rest s).Inv :=
  inv_drawTurn (s := { s with input := rest }) h

theorem inv_hold {s : State} (h : s.Inv) : (Ops.hold s).Inv := by
  rw [Ops.hold_eq, Ops.recordEnd_frame]
  exact inv_drawTurn h

theorem inv_illegalCommand {s : State} (h : s.Inv) : (Ops.illegalCommand s).Inv := by
  rw [illegalCommand_eq]
  split
  · exact inv_answered (inv_enterFaulted h rfl) (Nat.zero_le _)
  · exact inv_answered h (Nat.zero_le _)

/-- Only a live session steps. -/
theorem live_of_step {s t : State} (h : step s = .next t) : s.released = false := by
  cases hrel : s.released
  · rfl
  · simp [step, Ops.cycle, hrel] at h

/-- Settles O3: each operation of a step keeps the invariant, through the cases of a command. -/
theorem stepKeepsInvariant : Obligations.StepKeepsInvariant := by
  intro s t hinv h
  have hlive := live_of_step h
  cases stepCase_of_step h with
  | teardown _ ht => rw [ht]; exact inv_teardown hinv
  | hold _ _ ht => rw [ht]; exact inv_hold hinv
  | illegal _ _ rest _ ht => rw [ht]; exact inv_illegalCommand (inv_fetched hinv rest)
  | command _ _ rest hdec ht =>
    exact (commandCase_of_step hdec ht).inv (inv_fetched hinv rest) ((Ops.fetched_released rest s).trans hlive)
  | deliver k _ _ _ ht =>
    obtain ⟨e, -, hdeliver⟩ := clockAll_drawn_eq_deliver s (k + 1)
    rw [ht, hdeliver]
    exact inv_deliver hinv _ e
  | fail k m _ _ _ ht =>
    obtain ⟨e, -, hdrawn⟩ := drawn_eq s
    obtain ⟨hparams, hmode, hresp, -, -, hqueue, -⟩ := hinv
    rw [ht, hdrawn]
    exact inv_failDelivery (s := { s with env := e }) hparams hmode hresp hqueue hlive _ m

end Sys2Proof.Machine
end

section
/-! The statement about the order of the queue (42_queue.md R182, R190, R192, R193). -/

namespace Sys2Proof.Machine

theorem oracle_of_drawFrame {e f : Env} (h : e.DrawFrame f) : f.oracle = e.oracle := by rw [h.1]

/-- In RUN an entry's captured bits and those still in `opb` make up its result (42_queue.md R192). -/
theorem n_le_length_captured {s : State} (hinv : s.Inv) (hrun : s.mode = .run) {e : Entry} (he : e ∈ s.rrq)
    (o : TdoOracle) (pos : Nat) : e.n ≤ (e.cap ++ ownedBits o e.id pos s.opb).length := by
  obtain ⟨-, -, -, -, hbuf, -, hcap, -⟩ := hinv
  obtain ⟨-, hlengths⟩ := hcap e he
  obtain ⟨hread, hwrite⟩ := hlengths hrun
  rw [List.length_append, length_ownedBits _ _ _ fun p hp hown =>
    capturing_of_sound (hbuf p hp).1 (by rw [hown]; nofun)]
  cases hkind : e.kind with
  | read => exact (hread hkind).ge
  | readWrite => have := hwrite hkind; omega

/-- An entry with nothing undelivered has all of its bits. -/
theorem ownedBits_of_complete {s : State} (hcap : s.CaptureOk) {e : Entry} (he : e ∈ s.rrq)
    (hcomplete : e.undelivered = 0) (o : TdoOracle) (pos : Nat) : ownedBits o e.id pos s.opb = [] := by
  rw [← bitsOwnedBy_entry]
  exact bitsOwnedBy_of_not_owned o pos (own_ne_of_complete hcap he hcomplete)

/-- What O26 says of a step from `s` to `t`: the queue keeps its order. -/
def QueueOrder (s t : State) : Prop :=
  (t.rrq.map Entry.label = s.rrq.map Entry.label ∧ t.nextId = s.nextId) ∨
  (∃ (n : Nat) (kind : EntryKind), t.rrq.map Entry.label = s.rrq.map Entry.label ++ [(s.nextId, n, kind)] ∧
    t.nextId = s.nextId + 1 ∧ s.rrq.length < s.params.rrqDepth ∧ t.responses = s.responses ++ [⟨.ok, []⟩]) ∨
  (∃ (e : Entry) (rest : List Entry) (bits : List Bool), s.rrq = e :: rest ∧
    t.rrq.map Entry.label = rest.map Entry.label ∧ t.nextId = s.nextId ∧ bits.length ≤ e.n ∧
    t.responses = s.responses ++ [⟨.ok, bits⟩] ∧
    (s.Inv → bits.length = e.n ∧ bits = (e.cap ++ ownedBits s.env.oracle e.id s.trace.length s.opb).take e.n))

/-- The answer of a FINISH_READ whose head is complete. -/
theorem queueOrder_retire {s : State} (hrun : s.mode = .run) {head : Entry} {rest : List Entry}
    (hhead : s.rrq = head :: rest) (hcomplete : head.undelivered = 0) :
    QueueOrder s ({ s with rrq := rest }.answered .ok (head.cap.take head.n)) := by
  refine .inr (.inr ⟨head, rest, _, hhead, rfl, rfl, List.length_take_le _ _, rfl, fun hinv => ?_⟩)
  have hmem : head ∈ s.rrq := hhead ▸ List.mem_cons_self
  have hlen := n_le_length_captured hinv hrun hmem s.env.oracle s.trace.length
  obtain ⟨-, -, -, -, -, -, hcap, -⟩ := hinv
  rw [ownedBits_of_complete hcap hmem hcomplete, List.append_nil] at hlen ⊢
  exact ⟨List.length_take_of_le hlen, rfl⟩

/-- The answer of a FINISH_READ that has delivered the whole of `opb` first. -/
theorem queueOrder_retire_delivered {s : State} (hrun : s.mode = .run) {e : Env} (hdraw : s.env.DrawFrame e)
    {head : Entry} {rest : List Entry} (hhead : (s.deliverAll e).rrq = head :: rest) :
    QueueOrder s ({ s.deliverAll e with rrq := rest }.answered .ok (head.cap.take head.n)) := by
  have hlabels : s.rrq.map Entry.label = head.label :: rest.map Entry.label := by
    rw [← map_label_deliver s _ e, ← deliverAll_eq_deliver, hhead, List.map_cons]
  obtain ⟨old, rest', hold, hlabel, hrest⟩ := List.map_eq_cons_iff.mp hlabels
  have hn : old.n = head.n := congrArg (·.2.1) hlabel
  refine .inr (.inr ⟨old, rest', head.cap.take head.n, hold, hrest.symm, ?_, hn ▸ List.length_take_le _ _, ?_,
    fun hinv => ?_⟩)
  · rw [answered_nextId, deliverAll_eq_deliver]
    exact deliver_nextId s _ e
  · rw [answered_responses, deliverAll_eq_deliver]
    exact congrArg (· ++ _) (deliver_responses s _ e)
  · have hlen := n_le_length_captured hinv hrun (hold ▸ List.mem_cons_self) s.env.oracle s.trace.length
    obtain ⟨-, -, -, -, hbuf, -⟩ := hinv
    rw [deliverAll_eq_deliver, deliver_eq (rawFits_of_mem_opb hbuf), List.take_length, hold, List.map_cons] at hhead
    obtain ⟨hhead, -⟩ := List.cons.inj hhead
    have hcap : head.cap = old.cap ++ ownedBits s.env.oracle old.id s.trace.length s.opb := by
      rw [← hhead, ← oracle_of_drawFrame hdraw]
      rfl
    rw [hcap, ← hn]
    exact ⟨List.length_take_of_le hlen, rfl⟩

theorem CommandCase.queueOrder {s t : State} {i : Instr} (h : CommandCase s i t) : QueueOrder s t := by
  cases h with
  | answers c _ ht => exact .inl (by simp [ht])
  | faults code _ _ ht => exact .inl (by simp [ht])
  | emits ps of _ _ ht => exact .inl (by simp [ht])
  | enqueues n kind ps _ hroom _ _ ht =>
    subst ht
    exact .inr (.inl ⟨n, kind, List.map_append, rfl, hroom, rfl⟩)
  | delivers e _ _ ht =>
    rw [ht, deliverAll_eq_deliver]
    exact .inl ⟨map_label_deliver s _ e, deliver_nextId s _ e⟩
  | reads ps e bits _ _ _ ht =>
    rw [ht, deliverAll_eq_deliver]
    exact .inl ⟨map_label_deliver _ _ e, deliver_nextId _ _ e⟩
  | retires hrun d head rest _ hd hhead ht =>
    rw [ht]
    rcases hd with ⟨rfl, hcomplete⟩ | ⟨e, hdraw, rfl⟩
    · exact queueOrder_retire hrun hhead hcomplete
    · exact queueOrder_retire_delivered hrun hdraw hhead
  | fails m e k _ _ hm ht =>
    rw [ht]
    have hlabels := Ops.map_failDelivery_rrq Entry.label (fun _ => rfl) m.opb k { m with env := e }
    rcases hm with rfl | ⟨ps, rfl⟩
    · exact .inl ⟨hlabels, Ops.failDelivery_nextId _ _ _⟩
    · exact .inl ⟨hlabels, Ops.failDelivery_nextId _ _ _⟩

/-- Settles O26: only a queue command and FINISH_READ touch the labels, by the cases of a command. -/
theorem stepKeepsQueueOrder : Obligations.StepKeepsQueueOrder := by
  intro s t _ hhost h
  cases stepCase_of_step h with
  | teardown hrel => exact absurd hrel hhost
  | hold _ _ ht => exact .inl (by simp [ht, Ops.hold_eq])
  | illegal _ _ rest _ ht =>
    rw [ht, illegalCommand_eq]
    split <;> exact .inl (by simp)
  | command _ _ rest hdec ht =>
    have horder := (commandCase_of_step hdec ht).queueOrder
    rw [Ops.fetched_frame] at horder
    exact horder
  | deliver k _ _ _ ht =>
    obtain ⟨e, -, hdeliver⟩ := clockAll_drawn_eq_deliver s (k + 1)
    rw [ht, hdeliver]
    exact .inl ⟨map_label_deliver s _ e, deliver_nextId s _ e⟩
  | fail k m _ _ _ ht =>
    rw [ht, Ops.map_failDelivery_rrq Entry.label fun _ => rfl]
    exact .inl (by simp)

end Sys2Proof.Machine
end

section
/-! SUPPORT. The fields of a command word as numbers, and the illegal words (30_encoding.md R70, R79). -/

namespace Sys2Proof

theorem toNat_opcField (w : Word) : (opcField w).toNat = w.toNat / 2 ^ 28 := by
  have hlt := w.isLt
  rw [opcField, BitVec.extractLsb'_toNat, Nat.shiftRight_eq_div_pow, Nat.mod_eq_of_lt (by omega)]

theorem rsvField_eq_zero_iff (w : Word) : rsvField w = 0 ↔ w.toNat / 2 ^ 24 % 4 = 0 := by
  rw [← BitVec.toNat_inj, rsvField, BitVec.extractLsb'_toNat, Nat.shiftRight_eq_div_pow]
  rfl

theorem pField_eq_true_iff (w : Word) : pField w = true ↔ w.toNat / 2 ^ 27 % 2 = 1 := by
  simp [pField, BitVec.getLsbD, Nat.testBit_eq_decide_div_mod_eq]

theorem tField_eq_true_iff (w : Word) : tField w = true ↔ w.toNat / 2 ^ 26 % 2 = 1 := by
  simp [tField, BitVec.getLsbD, Nat.testBit_eq_decide_div_mod_eq]

theorem countField_eq (w : Word) : countField w = w.toNat % 2 ^ 24 := by
  rw [countField, BitVec.extractLsb'_toNat, Nat.shiftRight_zero]

/-- A word is decoded as illegal exactly when it has an illegal field. -/
theorem decodeWord_illegal_iff (w : Word) (rest : List Byte) :
    (∃ why, decodeWord w rest = .illegal why rest) ↔ illegalReason w ≠ none := by
  cases hl : illegalReason w with
  | some why => simp [decodeWord_illegal hl]
  | none =>
    obtain ⟨op, ho⟩ := ofBits_of_legal hl
    simp only [decodeWord, hl, ho, ne_eq, not_true_eq_false, iff_false]
    split <;> simp

/-- The opcode map has no opcode at 0 and from 9 on (R72). -/
theorem ofBits_eq_none_iff (v : BitVec 4) : Opcode.ofBits v = none ↔ v.toNat = 0 ∨ 9 ≤ v.toNat := by
  revert v
  decide

/-- Settles O8: an illegal word has no opcode, or one of the fields its opcode does not use is set. -/
theorem illegalWordsCharacterised : Obligations.IllegalWordsCharacterised := by
  intro b0 b1 b2 b3 rest
  set w := bytesWord b0 b1 b2 b3
  intro v opc
  change (∃ why, decodeWord w rest = .illegal why rest) ↔ _
  rw [decodeWord_illegal_iff, ne_eq, illegalReason_eq_none_iff]
  simp only [rsvField_eq_zero_iff, pField_eq_true_iff, tField_eq_true_iff, countField_eq]
  have hopc : (opcField w).toNat = opc := toNat_opcField w
  cases ho : Opcode.ofBits (opcField w) with
  | none =>
    have hnone := (ofBits_eq_none_iff _).mp ho
    rw [hopc] at hnone
    simp only [reduceCtorEq, false_and, exists_false, not_false_eq_true, true_iff]
    omega
  | some op =>
    have hbits : opc = op.bits.toNat := by rw [← hopc, bits_of_ofBits ho]
    simp only [Option.some.injEq, exists_eq_left']
    cases op <;> simp [Opcode.bits, Opcode.usesP, Opcode.usesT] at hbits ⊢ <;> omega

end Sys2Proof
end

section
/-! The statements about primitive records, status codes, responses and the host binding (30_encoding.md sections 2
to 4, 60_exceptions.md R222). -/

namespace Sys2Proof

theorem ofPrim_of_toPrim {i : Instr} {p : Prim} (h : i.toPrim = some p) : Instr.ofPrim p = i := by
  cases i with
  | changeMode | readData | writeData | readWriteData | flush | queueRead | queueReadWrite | finishRead => cases h
  | primTmsOut | primTmsIo | primBytesOut | primBytesIn | primBytesIo | primBitsOut | primBitsIn | primBitsIo =>
    cases h
    rfl

/-- Settles O10: the codes are R86's; a record's code and body are its kind and body. -/
theorem primitiveCodesDecode : Obligations.PrimitiveCodesDecode := by
  have hreserved : ∀ v : BitVec 4, v = 0 ∨ 9 ≤ v.toNat → PrimKind.ofCode v = none := by decide
  refine ⟨fun b => ⟨rfl, rfl, rfl, rfl, rfl, rfl, rfl, rfl⟩, fun v b hv => ?reserved, fun i p hp => ?record⟩
  case reserved => rw [decodePort, hreserved v hv]
  case record =>
    have hinstr := ofPrim_of_toPrim hp
    have hport : decodePort p.kind.code p.body = .ok i := by rw [decodePort, ofCode_code, ← hinstr]
    refine ⟨hport, ?_⟩
    rw [encode, hp, decodeImage, hport]
    rfl

namespace Machine

theorem ofCode_code (c : Status) : Status.ofCode c.code = some c := by cases c <;> rfl

theorem code_of_ofCode {v : Byte} {c : Status} (h : Status.ofCode v = some c) : c.code = v := by
  unfold Status.ofCode at h
  split at h
  case h_9 => cases h
  all_goals
    obtain rfl := Option.some.inj h
    exact BitVec.eq_of_toNat_eq (Eq.symm ‹_›)

/-- Settles O13: the table is closed; `code_of_ofCode` reads a code back from its status. -/
theorem statusCodesAreTheTable : Obligations.StatusCodesAreTheTable := by
  refine ⟨rfl, ofCode_code, fun v hv => ?_⟩
  obtain ⟨c, hc⟩ := Option.isSome_iff_exists.mp hv
  exact ⟨c, code_of_ofCode hc⟩

/-! ## Responses -/

/-- A stream that begins with a response word. -/
theorem decode_wordBytes (w : Word) (rest : List Byte) :
    Response.decode (wordBytes w ++ rest) = Response.ofWord w rest := by
  simp only [wordBytes, List.cons_append, List.nil_append, Response.decode, bytesWord_wordBytes]

theorem extract_status_word (r : Response) : r.word.extractLsb' 0 8 = r.status.code := by
  apply BitVec.eq_of_getLsbD_eq
  intro i hi
  unfold Response.word
  simp only [BitVec.getLsbD_extractLsb', BitVec.getLsbD_append]
  simp [hi]

theorem extract_nbits_word {r : Response} (h : r.bits.length ≤ Config.countMax) :
    (r.word.extractLsb' 8 24).toNat = r.bits.length := by
  have hbits : r.word.extractLsb' 8 24 = BitVec.ofNat 24 r.bits.length := by
    apply BitVec.eq_of_getLsbD_eq
    intro i hi
    unfold Response.word
    simp only [BitVec.getLsbD_extractLsb', BitVec.getLsbD_append]
    simp [hi]
  have hmax : Config.countMax = 2 ^ 24 - 1 := rfl
  rw [hbits, BitVec.toNat_ofNat, Nat.mod_eq_of_lt (by omega)]

/-- A packed string reads back from the head of a longer stream. -/
theorem unpack_pack_append (bits : List Bool) (rest : List Byte) :
    unpack (pack bits ++ rest) bits.length = bits := by
  conv_rhs => rw [← unpack_pack bits]
  refine unpack_congr fun i hi => bufBit_append_left rest ?_
  rw [length_pack, byteCount]
  omega

/-- Settles O12: STATUS and NBITS are the two parts of the word, and the payload is packed bits. -/
theorem responsesReadBack : Obligations.ResponsesReadBack := by
  refine ⟨fun r rest h => ?reads, fun w rest h => ?refused⟩
  case reads =>
    have hlen : (pack r.bits).length = byteCount r.bits.length := length_pack r.bits
    rw [Response.bytes, List.append_assoc, decode_wordBytes, Response.ofWord, extract_status_word, ofCode_code]
    dsimp only
    rw [extract_nbits_word h, if_neg (by rw [List.length_append]; omega), unpack_pack_append, List.drop_left' hlen]
  case refused =>
    have hnone : Status.ofCode (w.extractLsb' 0 8) = none := by
      cases hc : Status.ofCode (w.extractLsb' 0 8) with
      | none => rfl
      | some c => exact absurd (code_of_ofCode hc) (h c)
    rw [decode_wordBytes, Response.ofWord, hnone]

/-! ## The host binding -/

/-- The payload of a write call fits its count, which is 0 for invalid arguments (30_encoding.md R83). -/
theorem length_writePayload (data : List Byte) (bits : Nat) :
    (writePayload data bits).length = byteCount (writeCount data bits) := by
  by_cases hinvalid : data = [] ∨ bits < 1 ∨ 8 < bits
  · have hcount := writeCount_of_invalid hinvalid
    rw [writePayload, if_pos hcount, hcount]
    rfl
  · obtain ⟨hdata, hlo, hhi⟩ : data ≠ [] ∧ 1 ≤ bits ∧ bits ≤ 8 := by
      simp only [not_or, not_lt] at hinvalid
      exact hinvalid
    have hcount := writeCount_of_valid hdata hlo hhi
    rw [writePayload, if_neg (by omega), hcount,
      byteCount_of_lastByte (List.length_pos_of_ne_nil hdata) hlo hhi]

theorem wellFormed_command {call : HostCall} (h : call.count ≤ Config.countMax) (c : Params) :
    call.command.wellFormed c = true := by
  cases call with
  | changeMode tms t => exact payloadFits_iff.mpr ⟨h, by simp [tmsBits]⟩
  | readData bits | queueRead bits | finishRead bits => exact decide_eq_true h
  | writeData data bits p | readWriteData data bits p | queueReadWrite data bits p =>
    exact payloadFits_iff.mpr ⟨h, length_writePayload data bits⟩
  | flush => rfl

theorem toPrim_command (call : HostCall) : call.command.toPrim = none := by cases call <;> rfl

/-- Settles O15: what the binding sends is the encoding of a well-formed command. -/
theorem hostCallsDecodeToTheirCommand : Obligations.HostCallsDecodeToTheirCommand := by
  refine ⟨fun call bytes rest h => ?sent, fun call hover => if_neg (Nat.not_le.mpr hover), fun tms t => ?tms⟩
  case sent =>
    unfold HostCall.bind at h
    split at h
    · next hcount =>
      obtain rfl := Option.some.inj h
      exact encodedCommandsDecodeToThemselves ⟨1, 1, 1, 0⟩ _ rest (wellFormed_command hcount _) (toPrim_command call)
    · cases h
  case tms =>
    have hlen : (tmsBits tms).length = tms.length := List.length_map _
    exact ⟨pack (tmsBits tms), rfl, by rw [← hlen, unpack_pack]; rfl⟩

end Machine
end Sys2Proof
end

section
/-! The statements about reset (10_state.md R35, 60_exceptions.md R233, 70_reset_and_hazards.md R254). -/

namespace Sys2Proof.Machine

theorem inv_resetWith {c : Params} (hc : c.valid) (e : Env) (bound : Bool) : (State.resetWith c e bound).Inv := by
  have hmode : (State.resetWith c e bound).ModeOk := by
    cases bound
    · exact ⟨nofun, fun _ => rfl⟩
    · exact ⟨fun _ => rfl, nofun⟩
  exact ⟨hc, hmode, ⟨rfl, nofun⟩, ⟨List.cons_ne_nil _ _, tapState_all_canonical⟩, nofun,
    ⟨Nat.zero_le _, List.Pairwise.nil, nofun⟩, nofun, fun _ => ⟨rfl, rfl⟩⟩

/-- Settles O2: nothing is queued, buffered or answered at reset, and `tap` is the set of all states. -/
theorem resetMeetsInvariant : Obligations.ResetMeetsInvariant :=
  ⟨fun _ e bound hc => inv_resetWith hc e bound,
    inv_resetWith ⟨by decide, Nat.le_add_left 1 _, Nat.le_add_left 1 _⟩ Env.initial true⟩

/-- Settles O4: at reset `tap` holds all 16 states. -/
theorem resetTapTracksTarget : Obligations.ResetTapTracksTarget := fun _ _ _ => tapTracks_of_all rfl

/-- Settles O32: with no adapter bound the session is FAULTED with 0x15, and so it answers. -/
theorem noAdapterAnswersUnavailable : Obligations.NoAdapterAnswersUnavailable := fun c e _ hi =>
  ⟨rfl, rfl, _, exec_command_faulted (s := State.resetWith c e false) rfl hi, rfl, rfl, rfl⟩

/-- Settles O36: the primitives are the chunks of the TMS string, whose edges do not show them. -/
theorem changeModeEmitsItsSequence : Obligations.ChangeModeEmitsItsSequence := by
  refine fun s l t payload hrun => ⟨exec_changeMode_run hrun l t payload, ?_⟩
  rw [edgesOf_changeModePrims, holdEdges, unpack, List.map_map]
  rfl

/-- From an unknown state five ones and then 0, 1, 1, 0, 0 lead to ShiftIR alone (40_tap_traversal.md R114, R115). -/
theorem exec_changeMode_boot {s : State} (hrun : s.mode = .run) (hunknown : s.tap = TapState.all) :
    ∃ t, exec (.changeMode 10 false [0xDF, 0x00]) s = .next t ∧ t.mode = .run ∧ t.tap = [.shiftIR] ∧
      t.ofaults = s.ofaults := by
  have hwalk : walk TapState.all (unpack [0xDF, 0x00] 10) = [.shiftIR] := by decide
  exact ⟨_, exec_changeMode_run hrun 10 false [0xDF, 0x00], hrun, by dsimp only; rw [hunknown, hwalk], rfl⟩

/-- A write of one byte with pause after it leads from ShiftIR to PauseIR and meets its caller contract. -/
theorem exec_writeData_pause {s : State} (hrun : s.mode = .run) (htap : s.tap = [.shiftIR]) (d : Byte) :
    ∃ u, exec (.writeData 8 true [d]) s = .next u ∧ u.tap = [.pauseIR] ∧ u.ofaults = s.ofaults := by
  have hpause : walk [.shiftIR] (List.replicate 7 false ++ exitTms true) = [.pauseIR] := by decide
  have hcontract : s.checkedOfaults = s.ofaults := by
    rw [State.checkedOfaults, htap]
    rfl
  refine ⟨_, exec_writeData_run hrun (by decide) rfl true, ?_, hcontract⟩
  dsimp only
  rw [htap, map_tms_writeEdges _ (by decide), hpause]

/-- Settles O38: the two TMS strings are closed, and their walks are computed. -/
theorem bootReachesShift : Obligations.BootReachesShift := by
  intro c e
  obtain ⟨t, hboot, hrun, htap, hofaults⟩ := exec_changeMode_boot (s := State.resetWith c e true) rfl rfl
  obtain ⟨u, hwrite, hpause, hkept⟩ := exec_writeData_pause hrun htap 0xAB
  exact ⟨t, u, hboot, htap, hwrite, hkept.trans hofaults, hpause⟩

end Sys2Proof.Machine
end

section
/-! The statements about single steps (00_scope.md R5 and R6, 20_memory.md R58, R59 and R64, 60_exceptions.md R223 and
R231, 70_reset_and_hazards.md R253). -/

namespace Sys2Proof.Machine

/-- Settles O16: the Sequencer's turn runs what it has decoded. -/
theorem stepRunsDecodedCommand : Obligations.StepRunsDecodedCommand := by
  intro s i rest hmoves hdec
  exact ⟨by rw [step_sequencer hmoves, Ops.sequencerTurn_command exec hdec], Ops.fetched_frame rest s⟩

/-- An illegal word is four bytes long, and nothing after it is read (30_encoding.md R76, R79). -/
theorem input_of_decode_illegal {bs rest : List Byte} {why : Illegal} (h : decode bs = .illegal why rest) :
    bs = bs.take 4 ++ rest := by
  unfold decode at h
  split at h
  · next tail =>
    obtain rfl : tail = rest := by
      unfold decodeWord at h
      split at h
      · split at h <;> cases h
      · cases h; rfl
      · cases h; rfl
    rfl
  · cases h

/-- Settles O18: the word is fetched, and the fault is taken as any fault in RUN. -/
theorem stepTakesIllegalWord : Obligations.StepTakesIllegalWord := by
  intro s why rest hmoves hrun hdec
  refine ⟨input_of_decode_illegal hdec, _, by rw [step_sequencer hmoves, Ops.sequencerTurn_illegal exec hdec], ?_⟩
  rw [illegalCommand_eq, Ops.fetched_mode, hrun]
  dsimp only
  rw [answered_enterFaulted (by rw [Ops.fetched_mode, hrun]), Ops.fetched_frame]

/-! ## Free deliveries -/

section
variable {s : State} {k : Nat} (hlive : s.released = false) (hhost : s.host ≠ .releasing)
  (hturn : s.env.turn = .transport k) (hopb : s.opb ≠ [])
include hlive hhost hturn hopb

theorem step_transport_succeeds (hfail : Ops.nextFailure s = none) :
    step s = .next (Ops.clockAll (s.opb.take (k + 1))
      { Ops.drawFailure (Ops.drawTurn s) with opb := s.opb.drop (k + 1) }) := by
  rw [step, Ops.cycle_transport exec hlive hhost hturn hopb, Ops.transportTurn, hfail]
  exact Ops.runPrims_exec _ _

theorem step_transport_fails {m : Nat} (hfail : Ops.nextFailure s = some m) :
    step s = .next (Ops.failDelivery (s.opb.take (k + 1)) m (Ops.drawFailure (Ops.drawTurn s))) := by
  rw [step, Ops.cycle_transport exec hlive hhost hturn hopb, Ops.transportTurn, hfail]

/-- The Transport's turn that does not fail delivers the first primitives of `opb`. -/
theorem step_deliver (hok : s.env.transportOk = true ∨ s.env.failure = none) :
    ∃ e, s.env.DrawFrame e ∧ step s = .next (s.deliver (k + 1) e) := by
  have hfail : Ops.nextFailure s = none := by
    rcases hok with hok | hok <;> simp [Ops.nextFailure, hok]
  obtain ⟨e, hdraw, hdeliver⟩ := clockAll_drawn_eq_deliver s (k + 1)
  exact ⟨e, hdraw, by rw [step_transport_succeeds hlive hhost hturn hopb hfail, hdeliver]⟩

/-- The Transport's turn that fails. -/
theorem step_fail {m : Nat} (hok : s.env.transportOk = false) (hfailure : s.env.failure = some m) :
    ∃ e, s.env.DrawFrame e ∧ step s = .next (Ops.failDelivery (s.opb.take (k + 1)) m { s with env := e }) := by
  have hfail : Ops.nextFailure s = some m := by simp [Ops.nextFailure, hok, hfailure]
  obtain ⟨e, hdraw, hdrawn⟩ := drawn_eq s
  exact ⟨e, hdraw, by rw [step_transport_fails hlive hhost hturn hopb hfail, hdrawn]⟩

end

/-- Settles O17: a delivery of one primitive is its instruction, run with it taken off `opb`. -/
theorem stepRunsPrimitiveAtHead : Obligations.StepRunsPrimitiveAtHead := by
  intro s p ps hlive hhost hturn hopb hok
  obtain ⟨e, hdraw, hstep⟩ := step_deliver hlive hhost hturn (hopb ▸ List.cons_ne_nil p ps) hok
  refine ⟨e, ?_, hdraw⟩
  rw [hstep, exec_ofPrim, State.deliver, hopb]
  rfl

/-- Settles O20: the delivery gives each entry the bits it owns; no primitive is a synchronous read's. -/
theorem stepDeliversPrefixFreely : Obligations.StepDeliversPrefixFreely := by
  intro s k hlive hhost hturn hopb hok hbuf
  obtain ⟨e, hdraw, hstep⟩ := step_deliver hlive hhost hturn hopb hok
  have hsync : bitsOwnedBy e.oracle .sync s.trace.length (s.opb.take (k + 1)) = [] :=
    bitsOwnedBy_of_not_owned _ _ fun p hp => own_ne_sync_of_mem_opb hbuf p (List.mem_of_mem_take hp)
  rw [deliver_eq (rawFits_of_mem_opb hbuf), hsync, List.append_nil] at hstep
  refine ⟨_, hstep, hdraw, ?_, ?_⟩ <;> rw [oracle_of_drawFrame hdraw]
  rfl

/-- Settles O21: the failed delivery field by field. -/
theorem failedFreeDeliveryFaults : Obligations.FailedFreeDeliveryFaults := by
  intro s k m hlive hhost hturn hopb hok hfailure
  obtain ⟨e, hdraw, hstep⟩ := step_fail hlive hhost hturn hopb hok hfailure
  rw [failDelivery_eq] at hstep
  exact ⟨_, hstep, hdraw, by rw [oracle_of_drawFrame hdraw]⟩

/-! ## The end of a run, and teardown -/

/-- With nothing on the stream and nothing buffered the step of a live session is a hold. -/
theorem step_of_idle {s : State} (hlive : s.released = false) (hhost : s.host ≠ .releasing) (hinput : s.input = [])
    (hopb : s.opb = []) : step s = .next (Ops.hold s) := by
  rw [step_sequencer ⟨hlive, hhost, .inr hopb⟩, Ops.sequencerTurn_incomplete exec (by rw [hinput]; rfl)]

/-- Once the end of the run is recorded, an idle step records nothing more. -/
theorem ofaults_of_step_ended {t u : State} (hlive : t.released = false) (hhost : t.host ≠ .releasing)
    (hinput : t.input = []) (hopb : t.opb = []) (hended : t.runEnded = true) (h : step t = .next u) :
    u.ofaults = t.ofaults := by
  rw [step_of_idle hlive hhost hinput hopb, Ops.hold_eq,
    Ops.recordEnd_of_ended _ ((Ops.drawTurn_runEnded t).trans hended)] at h
  rw [← Host.Outcome.next.inj h, Ops.drawTurn_ofaults]

/-- Settles O22: the hold that finds the run at its end records it, and the next one finds it recorded. -/
theorem stepRecordsUnretrieved : Obligations.StepRecordsUnretrieved := by
  intro s hlive hhost hinput hopb hended
  have hhost' : s.host ≠ .releasing := by rw [hhost]; decide
  have hend : (Ops.drawTurn s).atRunEnd = true := by rw [Ops.atRunEnd_iff]; simp [hhost, hinput, hopb]
  have hhold : Ops.hold s = { s with
      env := (Ops.drawTurn s).env, runEnded := true
      ofaults := if s.rrq = [] then s.ofaults else s.ofaults ++ [.unretrieved s.rrq.length] } := by
    rw [Ops.hold_eq, Ops.recordEnd_eq, if_pos ⟨hend, by rw [Ops.drawTurn_runEnded, hended]⟩, Ops.endRun_eq,
      Ops.drawTurn_frame]
  refine ⟨_, step_of_idle hlive hhost' hinput hopb, ?_⟩
  rw [hhold]
  refine ⟨Ops.drawTurn_env s, rfl, fun u hu => ?_⟩
  exact ofaults_of_step_ended hlive hhost' hinput hopb rfl hu

/-- Settles O23: the step is the teardown, which records the end of a run where R64 has put it. -/
theorem stepTearsDown : Obligations.StepTearsDown := by
  intro s hlive hhost
  have hend : s.atRunEnd = true ↔ s.input = [] ∧ s.opb = [] := by rw [Ops.atRunEnd_iff]; simp [hhost]
  refine ⟨Ops.teardown s, Ops.cycle_releasing exec hlive hhost, by simp [step, Ops.cycle], ?_⟩
  rw [Ops.teardown_eq, Ops.recordEnd_eq]
  by_cases hdone : s.input = [] ∧ s.opb = []
  · cases hended : s.runEnded with
    | true => simp [hdone, hended]
    | false => simp [hend.mpr hdone, hdone, Ops.endRun_eq]
  · rw [if_neg fun h => hdone (hend.mp h.1), if_neg fun ⟨hinput, hopb, _⟩ => hdone ⟨hinput, hopb⟩,
      decide_eq_false hdone, Bool.or_false]

/-- Settles O49: the head is complete, so nothing is delivered and it is removed. -/
theorem finishReadPopsCompleteHead : Obligations.FinishReadPopsCompleteHead :=
  fun _ _ _ _ hrun hn hhead hlen hcomplete => exec_finishRead_complete hrun hn hhead hlen hcomplete

end Sys2Proof.Machine
end

section
/-! The statement about a forced delivery that fails (60_exceptions.md R231, R232). -/

namespace Sys2Proof.Machine

/-- What R231 leaves of a command whose forced delivery starts from `m` and fails after `k` edges. -/
theorem forceDelivery_fails_eq (after : State → State) {m : State} {k : Nat} (hrun : m.mode = .run)
    (hok : m.env.transportOk = false) (hfailure : m.env.failure = some k) (hopb : m.opb ≠ []) :
    (Ops.forceDelivery after m).counted = { m with
      env := (Ops.drawFailure m).env, mode := .faulted, faultCause := .transportFailure, opb := [], tap := TapState.all
      rrq := m.rrq.map fun e => { e with undelivered := 0 }
      trace := m.trace ++ sampleEdges m.env.oracle m.trace.length ((edgesOf m.opb).take k)
      responses := m.responses ++ [⟨.transportFailure, []⟩], cmdIdx := m.cmdIdx + 1 } := by
  rw [Ops.forceDelivery_fails _ _ _ hok hfailure hopb, failDelivery_eq, Ops.drawFailure_mode, if_pos hrun,
    Ops.drawFailure_oracle, Ops.drawFailure_eq]
  rfl

/-- A shift of one bit or more has primitives to deliver. -/
theorem prims_ne_nil {ps : List Prim} {es : List Edge} (hedges : edgesOf ps = es) (hes : es ≠ []) : ps ≠ [] := by
  rintro rfl
  exact hes hedges.symm

/-- Settles O31: the four commands force their delivery from a state with `opb` not empty, and R231 does the rest. -/
theorem transportFailureLosesTheRest : Obligations.TransportFailureLosesTheRest := by
  intro s m n p data hrun hok hfailure hn hlen after
  have henv : ∀ u : State, u.env = s.env → (Ops.drawFailure u).env =
      { s.env with failure := (Ops.drawFailure u).env.failure, failDraws := (Ops.drawFailure u).env.failDraws } :=
    fun u hu => by conv_lhs => rw [Ops.drawFailure_env, hu]
  have hsync : ∀ (ps : List Prim) (es : List Edge) (answer : State → State), edgesOf ps = es → es ≠ [] →
      after (Ops.forceDelivery answer (s.syncStarted ps)).counted [] s.checkedOfaults (edgesOf s.opb ++ es) := by
    intro ps es answer hedges hes
    have hne : (s.syncStarted ps).opb ≠ [] := List.append_ne_nil_of_right_ne_nil _ (prims_ne_nil hedges hes)
    rw [forceDelivery_fails_eq answer (m := s.syncStarted ps) hrun hok hfailure hne]
    refine ⟨henv _ rfl, ?_⟩
    rw [← hedges, ← edgesOf_append]
    rfl
  have hforced : ∀ answer : State → State, s.opb ≠ [] →
      after (Ops.forceDelivery answer s).counted s.syncCap s.ofaults (edgesOf s.opb) := by
    intro answer hne
    rw [forceDelivery_fails_eq answer hrun hok hfailure hne]
    exact ⟨henv s rfl, rfl⟩
  refine ⟨⟨_, exec_readData_forces hrun hn, hsync _ _ _ (edgesOf_readPrims _ n _) ?read⟩,
    ⟨_, exec_readWriteData_forces hrun hn p data, hsync _ _ _ (edgesOf_writePrims _ hn hlen p true _) ?write⟩,
    fun hne => ⟨_, exec_flush_forces hrun, hforced _ hne⟩,
    fun e rest hhead hlen hincomplete hne =>
      ⟨_, exec_finishRead_forces hrun hn hhead hlen hincomplete, hforced _ hne⟩⟩
  case read => exact List.ne_nil_of_length_pos (by rw [readEdges, List.length_replicate]; exact hn)
  case write => exact List.ne_nil_of_length_pos (by rw [length_writeEdges]; split <;> omega)

end Sys2Proof.Machine
end

section
/-! SUPPORT. The state once the whole of `opb` has been delivered (20_memory.md R59, R60). -/

namespace Sys2Proof.Machine

/-- Everything in `opb` delivered, and each entry with its own bits. -/
def State.flushed (s : State) : State := { s with opb := [], trace := s.delivered, rrq := s.completed }

/-- The raw captures of `opb` have room, and `undelivered` counts the primitives of each entry (10_state.md R25). -/
structure State.Deliverable (s : State) : Prop where
  fits : ∀ p ∈ s.opb, rawFits p
  counts : ∀ e ∈ s.rrq, e.undelivered = (ownedBy e.id s.opb).length

variable {s : State}

theorem deliverable_of_inv (h : s.Inv) : s.Deliverable := by
  obtain ⟨-, -, -, -, hbuf, -, hcap, -⟩ := h
  exact ⟨rawFits_of_mem_opb hbuf, fun e he => (hcap e he).1⟩

theorem deliverable_flushed (s : State) : s.flushed.Deliverable where
  fits := nofun
  counts e he := by
    obtain ⟨x, -, rfl⟩ := List.mem_map.mp he
    rfl

theorem deliverable_syncStarted (h : s.Deliverable) {ps : List Prim}
    (hps : ∀ p ∈ ps, rawFits p ∧ p.body.own = .sync) : (s.syncStarted ps).Deliverable where
  fits p hp := (List.mem_append.mp hp).elim (h.fits p) fun hp => (hps p hp).1
  counts e he := by
    have hother : ∀ p ∈ ps, p.body.own ≠ .entry e.id := fun p hp => by rw [(hps p hp).2]; nofun
    change e.undelivered = (ownedBy e.id (s.opb ++ ps)).length
    rw [ownedBy_append, ownedBy_eq_nil hother, List.append_nil]
    exact h.counts e he

theorem deliverAll_eq_flushed (h : s.Deliverable) :
    s.deliverAll s.env =
      { s.flushed with syncCap := s.syncCap ++ bitsOwnedBy s.env.oracle .sync s.trace.length s.opb } := by
  have hrrq : s.rrq.map (Entry.afterDelivery s.env.oracle s.trace.length s.opb) = s.completed :=
    List.map_congr_left fun e he => by rw [Entry.afterDelivery, h.counts e he, Nat.sub_self]
  rw [deliverAll_eq_deliver, deliver_eq h.fits, List.take_length, List.drop_length, hrrq]
  rfl

/-- Under TRANSPORT_OK a forced delivery delivers everything (20_memory.md R58, R59). -/
theorem forceDelivery_flushes (after : State → State) (hok : s.env.transportOk = true) (h : s.Deliverable) :
    Ops.forceDelivery after s =
      after { s.flushed with syncCap := s.syncCap ++ bitsOwnedBy s.env.oracle .sync s.trace.length s.opb } := by
  rw [Ops.forceDelivery_ok after s hok, ← deliverAll_eq_flushed h]
  rfl

theorem forceDelivery_flushes_of_no_sync (after : State → State) (hok : s.env.transportOk = true) (h : s.Deliverable)
    (hsync : ∀ p ∈ s.opb, p.body.own ≠ .sync) : Ops.forceDelivery after s = after s.flushed := by
  rw [forceDelivery_flushes after hok h, bitsOwnedBy_of_not_owned _ _ hsync, List.append_nil]
  rfl

/-! ## What is flushed once is flushed -/

theorem ownedBits_append (o : TdoOracle) (k pos : Nat) (ps qs : List Prim) :
    ownedBits o k pos (ps ++ qs) = ownedBits o k pos ps ++ ownedBits o k (pos + (edgesOf ps).length) qs := by
  simp only [← bitsOwnedBy_entry, bitsOwnedBy_append]

@[simp] theorem length_delivered (s : State) : s.delivered.length = s.trace.length + (edgesOf s.opb).length := by
  simp [State.delivered]

@[simp] theorem delivered_flushed (s : State) : s.flushed.delivered = s.delivered := List.append_nil _

@[simp] theorem completed_flushed (s : State) : s.flushed.completed = s.completed := by
  simp [State.flushed, State.completed, ownedBits]

@[simp] theorem flushed_flushed (s : State) : s.flushed.flushed = s.flushed := by
  rw [State.flushed, delivered_flushed, completed_flushed]
  rfl

@[simp] theorem flushed_answered (s : State) (c : Status) (bits : List Bool) :
    (s.answered c bits).flushed = s.flushed.answered c bits := rfl

/-- What is emitted after `opb` is delivered after it. -/
theorem flushed_emitAll (ps : List Prim) (s : State) :
    (Ops.emitAll ps s).flushed = { Ops.emitAll ps s with
      opb := [], trace := s.delivered ++ sampleEdges s.env.oracle s.delivered.length (edgesOf ps)
      rrq := s.completed.map fun e =>
        { e with cap := e.cap ++ ownedBits s.env.oracle e.id s.delivered.length ps } } := by
  have htrace : (Ops.emitAll ps s).delivered =
      s.delivered ++ sampleEdges s.env.oracle s.delivered.length (edgesOf ps) := by
    rw [length_delivered]
    simp [State.delivered, sampleEdges_append]
  have hrrq : (Ops.emitAll ps s).completed = s.completed.map fun e =>
      { e with cap := e.cap ++ ownedBits s.env.oracle e.id s.delivered.length ps } := by
    rw [length_delivered]
    simp [State.completed, ownedBits_append]
  rw [State.flushed, htrace, hrrq]

/-- Emitting sees no difference between a state and what it is once flushed. -/
theorem flushed_emitAll_congr {s u : State} (ps : List Prim) (h : u.flushed = s.flushed) :
    (Ops.emitAll ps u).flushed = (Ops.emitAll ps s).flushed := by
  have hemit : ∀ x : State, (Ops.emitAll ps x).flushed = { Ops.emitAll ps x.flushed with
      trace := x.flushed.trace ++ sampleEdges x.flushed.env.oracle x.flushed.trace.length (edgesOf ps)
      rrq := x.flushed.rrq.map fun e =>
        { e with cap := e.cap ++ ownedBits x.flushed.env.oracle e.id x.flushed.trace.length ps }
      opb := [] } := fun x => by
    rw [flushed_emitAll]
    rfl
  rw [hemit u, hemit s, h]

/-- A free delivery changes nothing of what is flushed. -/
theorem flushed_deliver (hfits : ∀ p ∈ s.opb, rawFits p) (hsync : ∀ p ∈ s.opb, p.body.own ≠ .sync) (k : Nat) :
    (s.deliver k s.env).flushed = s.flushed := by
  have hnone : bitsOwnedBy s.env.oracle .sync s.trace.length (s.opb.take k) = [] :=
    bitsOwnedBy_of_not_owned _ _ fun p hp => hsync p (List.mem_of_mem_take hp)
  have hedges : edgesOf s.opb = edgesOf (s.opb.take k) ++ edgesOf (s.opb.drop k) := by
    rw [← edgesOf_append, List.take_append_drop]
  have htrace : (s.deliver k s.env).delivered = s.delivered := by
    rw [deliver_eq hfits]
    simp [State.delivered, hedges, sampleEdges_append]
  have hrrq : (s.deliver k s.env).completed = s.completed := by
    rw [deliver_eq hfits]
    simp only [State.completed, List.map_map, List.length_append, length_sampleEdges]
    refine List.map_congr_left fun e _ => ?_
    conv_rhs => rw [← List.take_append_drop k s.opb, ownedBits_append, ← List.append_assoc]
    rfl
  rw [State.flushed, htrace, hrrq, deliver_eq hfits, hnone, List.append_nil]
  rfl

end Sys2Proof.Machine
end

section
/-! SUPPORT. The commands that force a delivery, under TRANSPORT_OK (41_shift.md R155, R157, 42_queue.md R190, R195). -/

namespace Sys2Proof.Machine

variable {s : State}

/-- A synchronous read of the edges of `ps`, answered by `answer` of the bits captured on them. -/
def State.syncResult (s : State) (es : List Edge) (answer : List Bool → List Bool) : State :=
  { s with
    opb := [], rrq := s.completed
    syncCap := tdoBits (sampleEdges s.env.oracle s.delivered.length es), tap := walk s.tap (es.map (·.tms))
    trace := s.delivered ++ sampleEdges s.env.oracle s.delivered.length es, ofaults := s.checkedOfaults
    responses := s.responses ++ [⟨.ok, answer (tdoBits (sampleEdges s.env.oracle s.delivered.length es))⟩]
    cmdIdx := s.cmdIdx + 1 }

theorem sync_forces (answer : List Bool → List Bool) (hok : s.env.transportOk = true) (h : s.Deliverable)
    (hsync : ∀ p ∈ s.opb, p.body.own ≠ .sync) {ps : List Prim} (hps : ∀ p ∈ ps, rawFits p ∧ p.body.own = .sync) :
    (Ops.forceDelivery (fun d => Ops.respond .ok (answer d.syncCap) d) (s.syncStarted ps)).counted =
      s.syncResult (edgesOf ps) answer := by
  have hbits : bitsOwnedBy s.env.oracle .sync s.trace.length (s.opb ++ ps) =
      tdoBits (sampleEdges s.env.oracle s.delivered.length (edgesOf ps)) := by
    rw [bitsOwnedBy_append, bitsOwnedBy_of_not_owned _ _ hsync,
      bitsOwnedBy_of_owned _ _ fun p hp => (hps p hp).2, length_delivered]
    rfl
  have hrrq : (s.syncStarted ps).completed = s.completed := List.map_congr_left fun e _ => by
    have hother : ownedBits s.env.oracle e.id (s.trace.length + (edgesOf s.opb).length) ps = [] := by
      rw [← bitsOwnedBy_entry]
      exact bitsOwnedBy_of_not_owned _ _ fun p hp => by rw [(hps p hp).2]; nofun
    change { e with cap := e.cap ++ ownedBits s.env.oracle e.id s.trace.length (s.opb ++ ps), undelivered := 0 } = _
    rw [ownedBits_append, hother, List.append_nil]
  have htrace : (s.syncStarted ps).delivered =
      s.delivered ++ sampleEdges s.env.oracle s.delivered.length (edgesOf ps) := by
    rw [length_delivered]
    simp [State.delivered, State.syncStarted, sampleEdges_append]
  rw [forceDelivery_flushes (s := s.syncStarted ps) _ hok (deliverable_syncStarted h hps)]
  change ({ s with
    opb := [], rrq := (s.syncStarted ps).completed
    syncCap := bitsOwnedBy s.env.oracle .sync s.trace.length (s.opb ++ ps), tap := walk s.tap (ps.flatMap tmsOf)
    trace := (s.syncStarted ps).delivered, ofaults := s.checkedOfaults
    responses := s.responses ++
      [⟨.ok, answer (bitsOwnedBy s.env.oracle .sync s.trace.length (s.opb ++ ps))⟩]
    cmdIdx := s.cmdIdx + 1 } : State) = _
  rw [hbits, hrrq, htrace, flatMap_tmsOf]
  rfl

theorem rawFits_of_mem_readPrims {most n : Nat} {own : Owner} {p : Prim} (h : p ∈ readPrims most n own) :
    rawFits p := by
  rw [readPrims, List.mem_append] at h
  rcases h with h | h
  · obtain ⟨m, -, rfl⟩ := List.mem_map.mp h
    exact fun hkind => absurd hkind (by simp [capturesSubByte])
  · split at h
    · exact absurd h List.not_mem_nil
    · obtain rfl := List.mem_singleton.mp h
      exact fun _ => (Nat.mod_lt n (by decide)).le

section
variable (hrun : s.mode = .run) (hok : s.env.transportOk = true) (h : s.Deliverable)
  (hsync : ∀ p ∈ s.opb, p.body.own ≠ .sync)
include hrun hok h hsync

theorem exec_readData_ok {n : Nat} (hn : 1 ≤ n) :
    exec (.readData n) s = .next (s.syncResult (readEdges n) id) := by
  rw [exec_readData_forces hrun hn]
  refine congrArg _ ((sync_forces id hok h hsync fun p hp => ⟨rawFits_of_mem_readPrims hp, own_readPrims hp⟩).trans ?_)
  rw [edgesOf_readPrims]

theorem exec_readWriteData_result {n : Nat} (hn : 1 ≤ n) (p : Bool) {data : List Byte} :
    exec (.readWriteData n p data) s =
      .next (s.syncResult (edgesOf (writePrims s.params.bytesMax data n p true .sync)) (List.take n)) := by
  rw [exec_readWriteData_forces hrun hn]
  exact congrArg _ (sync_forces (List.take n) hok h hsync fun x hx =>
    ⟨rawFits_of_mem_writePrims hn hx, own_writePrims hx⟩)

theorem exec_flush_ok : exec .flush s = .next (s.flushed.answered .ok []) := by
  rw [exec_flush_forces hrun, forceDelivery_flushes_of_no_sync _ hok h hsync]
  rfl

theorem exec_finishRead_flushes {n : Nat} (hn : 1 ≤ n) {head : Entry} {rest : List Entry}
    (hhead : s.rrq = head :: rest) (hlen : head.n = n) (hincomplete : 0 < head.undelivered) :
    exec (.finishRead n) s = .next ({ s.flushed with rrq := s.completed.tail }.answered .ok
      ((head.cap ++ ownedBits s.env.oracle head.id s.trace.length s.opb).take n)) := by
  have hcompleted : s.flushed.rrq = { head with
      cap := head.cap ++ ownedBits s.env.oracle head.id s.trace.length s.opb, undelivered := 0 } ::
        s.completed.tail := by
    simp [State.flushed, State.completed, hhead]
  rw [exec_finishRead_forces hrun hn hhead hlen hincomplete, forceDelivery_flushes_of_no_sync _ hok h hsync,
    Ops.retire_cons _ _ _ _ hcompleted]
  rfl

end

end Sys2Proof.Machine
end

section
/-! The statements about synchronous shifts, FLUSH and FINISH_READ (41_shift.md R155 to R157, 42_queue.md R185, R190 and
R195). -/

namespace Sys2Proof.Machine

variable {s : State}

theorem length_bits_of_captured (o : TdoOracle) (pos : Nat) {es : List Edge} {n : Nat} (hlen : es.length = n)
    (h : ∀ e ∈ es, e.capture = true) : (tdoBits (sampleEdges o pos es)).length = n := by
  rw [length_tdoBits_of_captured o pos es h, hlen]

theorem capture_of_mem_readEdges {n : Nat} {e : Edge} (he : e ∈ readEdges n) : e.capture = true := by
  rw [List.eq_of_mem_replicate he]

theorem length_readBits (o : TdoOracle) (pos n : Nat) : (tdoBits (sampleEdges o pos (readEdges n))).length = n :=
  length_bits_of_captured o pos List.length_replicate fun _ => capture_of_mem_readEdges

/-- The records of `opb` and of the edges after it, in one. -/
theorem delivered_append_sampleEdges (s : State) (es : List Edge) :
    s.delivered ++ sampleEdges s.env.oracle s.delivered.length es =
      s.trace ++ sampleEdges s.env.oracle s.trace.length (edgesOf s.opb ++ es) := by
  rw [length_delivered, State.delivered, List.append_assoc, sampleEdges_append]

/-- Settles O44: the read's own edges stand after all of `opb`, and their bits are the answer. -/
theorem readDataReturnsCapturedBits : Obligations.ReadDataReturnsCapturedBits := by
  intro s n hinv hrun hok hn
  have hdel := deliverable_of_inv hinv
  obtain ⟨-, -, -, -, hbuf, -⟩ := hinv
  refine ⟨_, _, exec_readData_ok hrun hok hdel (own_ne_sync_of_mem_opb hbuf) hn, length_readBits _ _ n, rfl, ?_⟩
  rw [State.syncResult, map_tms_readEdges, delivered_append_sampleEdges, length_delivered]
  rfl

/-- Settles O45: the primitives are `WritePrims` without an owner. -/
theorem writeDataEmitsItsEdges : Obligations.WriteDataEmitsItsEdges := fun s n p data hrun _ hn hlen =>
  ⟨writePrims s.params.bytesMax data n p false .none, edgesOf_writePrims _ hn hlen p false _,
    fun _ hx => own_writePrims hx, length_writePrims _ data n p false _ hn, exec_writeData_run hrun hn hlen p⟩

/-- Settles O46: as O44, over the edges of a write form; the answer takes the first `n` of the bits. -/
theorem readWriteDataReturnsCapturedBits : Obligations.ReadWriteDataReturnsCapturedBits := by
  intro s n p data hinv hrun hok hn hlen
  have hdel := deliverable_of_inv hinv
  obtain ⟨-, -, -, -, hbuf, -⟩ := hinv
  have hexec := exec_readWriteData_result hrun hok hdel (own_ne_sync_of_mem_opb hbuf) hn p (data := data)
  rw [edgesOf_writePrims _ hn hlen] at hexec
  refine ⟨_, _, hexec, length_bits_of_captured _ _ (length_writeEdges data n p true) fun _ =>
    capture_of_mem_writeEdges, rfl, ?_⟩
  rw [State.syncResult, delivered_append_sampleEdges, length_delivered]

/-- Settles O50: the whole of `opb` is delivered, and by the invariant the head then has its `n` bits. -/
theorem finishReadForcesDelivery : Obligations.FinishReadForcesDelivery := by
  intro s n e rest hinv hrun hok hn hhead hlen hincomplete
  have hbits := n_le_length_captured hinv hrun (hhead ▸ List.mem_cons_self) s.env.oracle s.trace.length
  have hdel := deliverable_of_inv hinv
  obtain ⟨-, -, -, -, hbuf, -⟩ := hinv
  exact ⟨_, rfl, List.length_take_of_le (hlen ▸ hbits),
    exec_finishRead_flushes hrun hok hdel (own_ne_sync_of_mem_opb hbuf) hn hhead hlen hincomplete⟩

/-- Settles O51: a forced delivery and nothing more; with `opb` empty there is none. -/
theorem flushDeliversEverything : Obligations.FlushDeliversEverything := by
  refine fun s hrun => ⟨fun hinv hok => ?delivers, fun hempty => ?empty⟩
  case delivers =>
    have hdel := deliverable_of_inv hinv
    obtain ⟨-, -, -, -, hbuf, -⟩ := hinv
    exact exec_flush_ok hrun hok hdel (own_ne_sync_of_mem_opb hbuf)
  case empty =>
    rw [exec_flush_forces hrun, Ops.forceDelivery_empty _ _ hempty]
    rfl

/-! ## The queued read -/

/-- The bits of a new entry: those captured on its own edges, which stand after all of `opb`. -/
theorem ownedBits_new_entry (hopb : ∀ p ∈ s.opb, p.body.own ≠ .entry s.nextId) {ps : List Prim}
    (hps : ∀ p ∈ ps, p.body.own = .entry s.nextId) :
    ownedBits s.env.oracle s.nextId s.trace.length (s.opb ++ ps) =
      tdoBits (sampleEdges s.env.oracle s.delivered.length (edgesOf ps)) := by
  rw [length_delivered, ← bitsOwnedBy_entry, bitsOwnedBy_append, bitsOwnedBy_of_not_owned _ _ hopb,
    bitsOwnedBy_of_owned _ _ hps, List.nil_append]

/-- QUEUE_READ on an empty queue leaves the state ready for its delivery. -/
theorem deliverable_enqueued_read (hinv : s.Inv) (hempty : s.rrq = []) (n : Nat) :
    let ps := readPrims s.params.bytesMax n (.entry s.nextId)
    (s.enqueued n .read ps).Deliverable ∧ ∀ p ∈ (s.enqueued n .read ps).opb, p.body.own ≠ .sync := by
  intro ps
  obtain ⟨-, -, -, -, hbuf, hqueue, -⟩ := hinv
  have hown : ∀ p ∈ ps, p.body.own = .entry s.nextId := fun p hp => own_readPrims hp
  refine ⟨⟨fun p hp => (List.mem_append.mp hp).elim (rawFits_of_mem_opb hbuf p) rawFits_of_mem_readPrims,
    fun e he => ?_⟩, fun p hp => (List.mem_append.mp hp).elim (own_ne_sync_of_mem_opb hbuf p) fun hp => ?_⟩
  · have he' : e = ⟨s.nextId, n, .read, [], ps.length⟩ := by simpa [State.enqueued, hempty] using he
    rw [he']
    change ps.length = (ownedBy s.nextId (s.opb ++ ps)).length
    rw [ownedBy_append, ownedBy_eq_nil (own_ne_nextId_of_mem_opb hbuf hqueue), ownedBy_eq_self hown, List.nil_append]
  · rw [hown p hp]
    nofun

/-- Settles O52: both ways the bits are those of the read's edges after all of `opb`. -/
theorem queuedReadEqualsReadData : Obligations.QueuedReadEqualsReadData := by
  intro s n hinv hrun hok hempty hn _
  have hdel := deliverable_of_inv hinv
  obtain ⟨hadel, hasync⟩ := deliverable_enqueued_read hinv hempty n
  obtain ⟨⟨-, -, hdepth⟩, -, -, -, hbuf, hqueue, -⟩ := hinv
  set ps := readPrims s.params.bytesMax n (.entry s.nextId) with hps
  have hroom : s.rrq.length < s.params.rrqDepth := by rw [hempty]; exact hdepth
  have hqueued : exec (.queueRead n) s = .next ((s.enqueued n .read ps).answered .ok []) := by
    rw [exec_queueRead_enqueues hrun hn, Ops.enqueue_enqueued hroom]
    rfl
  have hhead : ((s.enqueued n .read ps).answered .ok []).rrq = [⟨s.nextId, n, .read, [], ps.length⟩] := by
    simp [State.enqueued, hempty]
  have hincomplete : 0 < ps.length := List.length_pos_of_ne_nil
    (prims_ne_nil (edgesOf_readPrims _ n _)
      (List.ne_nil_of_length_pos (by rw [readEdges, List.length_replicate]; exact hn)))
  have hfinish := exec_finishRead_flushes (s := (s.enqueued n .read ps).answered .ok []) hrun hok
    ⟨hadel.fits, hadel.counts⟩ hasync hn hhead rfl hincomplete
  have hbits : ownedBits s.env.oracle s.nextId s.trace.length (s.opb ++ ps) =
      tdoBits (sampleEdges s.env.oracle s.delivered.length (readEdges n)) := by
    rw [ownedBits_new_entry (own_ne_nextId_of_mem_opb hbuf hqueue) fun p hp => own_readPrims hp, edgesOf_readPrims]
  refine ⟨_, _, _, ⟨.ok, tdoBits (sampleEdges s.env.oracle s.delivered.length (readEdges n))⟩, hqueued, hfinish,
    exec_readData_ok hrun hok hdel (own_ne_sync_of_mem_opb hbuf) hn, ?answer, rfl, length_readBits _ _ n, ?trace, ?tap,
    ?queue, rfl⟩
  case answer =>
    change (s.responses ++ [⟨.ok, []⟩]) ++ [⟨.ok, ([] ++ ownedBits s.env.oracle s.nextId s.trace.length
      (s.opb ++ ps)).take n⟩] = _
    rw [List.nil_append, hbits, List.take_of_length_le (length_readBits _ _ n).le, List.append_assoc]
    rfl
  case trace =>
    change s.trace ++ sampleEdges s.env.oracle s.trace.length (edgesOf (s.opb ++ ps)) =
      s.delivered ++ sampleEdges s.env.oracle s.delivered.length (readEdges n)
    rw [delivered_append_sampleEdges, edgesOf_append, edgesOf_readPrims]
  case tap =>
    change walk s.tap (ps.flatMap tmsOf) = walk s.tap ((readEdges n).map (·.tms))
    rw [flatMap_tmsOf, edgesOf_readPrims]
  case queue =>
    change (((s.enqueued n .read ps).answered .ok []).completed).tail = []
    rw [State.completed, hhead]
    rfl

end Sys2Proof.Machine
end

section
/-! The statement that the delivery schedule is invisible (20_memory.md R58, R60). -/

namespace Sys2Proof.Machine

/-- `i` run from `s` and from `s` with `opb` delivered first comes to the same once all is delivered. -/
def FlushInvariant (i : Instr) (s : State) : Prop :=
  ∃ t u, exec i s = .next t ∧ exec i s.flushed = .next u ∧ u.flushed = t.flushed

section
variable {s : State}

/-- A command that emits the same primitives from both. -/
theorem FlushInvariant.of_emits {i : Instr} {x y : State} (ps : List Prim) (h : y.flushed = x.flushed)
    (hs : exec i s = .next ((Ops.emitAll ps x).answered .ok []))
    (hf : exec i s.flushed = .next ((Ops.emitAll ps y).answered .ok [])) : FlushInvariant i s :=
  ⟨_, _, hs, hf, by rw [flushed_answered, flushed_answered, flushed_emitAll_congr ps h]⟩

/-- A synchronous read delivers everything in any case. -/
@[simp] theorem syncResult_flushed (s : State) (es : List Edge) (answer : List Bool → List Bool) :
    s.flushed.syncResult es answer = s.syncResult es answer := by
  rw [State.syncResult, delivered_flushed, completed_flushed]
  rfl

/-- A queue command's entry owns nothing of what was in `opb` before. -/
theorem flushed_new_entry (hopb : ∀ p ∈ s.opb, p.body.own ≠ .entry s.nextId) (n k : Nat) (kind : EntryKind) :
    ({ s.flushed with rrq := s.flushed.rrq ++ [⟨s.nextId, n, kind, [], k⟩] } : State).flushed =
      ({ s with rrq := s.rrq ++ [⟨s.nextId, n, kind, [], k⟩] } : State).flushed := by
  have hnone : ownedBits s.env.oracle s.nextId s.trace.length s.opb = [] := by
    rw [← bitsOwnedBy_entry]
    exact bitsOwnedBy_of_not_owned _ _ hopb
  simp [State.flushed, State.completed, State.delivered, ownedBits, hnone]

theorem FlushInvariant.of_enqueue (hopb : ∀ p ∈ s.opb, p.body.own ≠ .entry s.nextId) {i : Instr} {n : Nat}
    {kind : EntryKind} {prims : Owner → List Prim}
    (hs : exec i s = .next (Ops.enqueue n kind prims s).counted)
    (hf : exec i s.flushed = .next (Ops.enqueue n kind prims s.flushed).counted) : FlushInvariant i s := by
  have hlength : s.flushed.rrq.length = s.rrq.length := List.length_map _
  by_cases hroom : s.rrq.length < s.params.rrqDepth
  · rw [Ops.enqueue_enqueued hroom] at hs
    rw [Ops.enqueue_enqueued (hlength ▸ hroom)] at hf
    refine .of_emits (prims (.entry s.nextId)) ?_ hs hf
    exact congrArg (fun x : State => { x with ofaults := s.checkedOfaults, nextId := s.nextId + 1 })
      (flushed_new_entry hopb n _ kind)
  · rw [Ops.enqueue_full _ _ _ _ (Nat.not_lt.mp hroom)] at hs
    rw [Ops.enqueue_full _ _ _ _ (hlength ▸ Nat.not_lt.mp hroom)] at hf
    exact ⟨_, _, hs, hf, congrArg (fun x : State => x.answered .queueFull []) (flushed_flushed s)⟩

/-- A fault is taken in both. -/
theorem FlushInvariant.of_fault {i : Instr} {code : Status}
    (hs : exec i s = .next { s with
      mode := .faulted, faultCause := code, responses := s.responses ++ [⟨code, []⟩], cmdIdx := s.cmdIdx + 1 })
    (hf : exec i s.flushed = .next { s.flushed with
      mode := .faulted, faultCause := code, responses := s.responses ++ [⟨code, []⟩], cmdIdx := s.cmdIdx + 1 }) :
    FlushInvariant i s :=
  ⟨_, _, hs, hf, congrArg (fun x : State => ({ x with mode := .faulted, faultCause := code } : State).answered code [])
    (flushed_flushed s)⟩

theorem FlushInvariant.of_finishRead (hinv : s.Inv) (hrun : s.mode = .run) (hok : s.env.transportOk = true) {n : Nat}
    (hn : 1 ≤ n) : FlushInvariant (.finishRead n) s := by
  obtain ⟨hempty, hmismatch⟩ := finishReadMismatchFaults
  have hdel := deliverable_of_inv hinv
  obtain ⟨-, -, -, -, hbuf, -, hcap, -⟩ := hinv
  cases hrrq : s.rrq with
  | nil =>
    have hfrrq : s.flushed.rrq = [] := by simp [State.flushed, State.completed, hrrq]
    exact .of_fault (hempty s n hrun hn hrrq) (hempty s.flushed n hrun hn hfrrq)
  | cons head rest =>
    set bits := head.cap ++ ownedBits s.env.oracle head.id s.trace.length s.opb with hbits
    have hfrrq : s.flushed.rrq = { head with cap := bits, undelivered := 0 } :: s.completed.tail := by
      simp [State.flushed, State.completed, hrrq, hbits]
    by_cases hlen : head.n = n
    · have hf := exec_finishRead_complete (s := s.flushed) hrun hn hfrrq hlen rfl
      rcases Nat.eq_zero_or_pos head.undelivered with hcomplete | hincomplete
      · have hs := exec_finishRead_complete hrun hn hrrq hlen hcomplete
        have hnone := ownedBits_of_complete hcap (hrrq ▸ List.mem_cons_self) hcomplete s.env.oracle s.trace.length
        rw [show bits = head.cap by rw [hbits, hnone, List.append_nil]] at hf
        have hrest : s.completed.tail = ({ s with rrq := rest } : State).completed := by
          rw [State.completed, hrrq]
          rfl
        rw [hrest] at hf
        exact ⟨_, _, hs, hf, congrArg (fun x : State => x.answered .ok (head.cap.take n))
          (flushed_flushed { s with rrq := rest })⟩
      · have hs := exec_finishRead_flushes hrun hok hdel (own_ne_sync_of_mem_opb hbuf) hn hrrq hlen hincomplete
        exact ⟨_, _, hs, hf, rfl⟩
    · exact .of_fault (hmismatch s n _ _ hrun hn hrrq hlen) (hmismatch s.flushed n _ _ hrun hn hfrrq hlen)

/-- No command sees whether `opb` has been delivered before it. -/
theorem flushInvariant_of_inv (hinv : s.Inv) (hok : s.env.transportOk = true) {i : Instr} (hi : i.toPrim = none) :
    FlushInvariant i s := by
  cases hmode : s.mode with
  | faulted =>
    exact ⟨_, _, exec_command_faulted hmode hi, exec_command_faulted (s := s.flushed) hmode hi,
      congrArg (fun x : State => x.answered s.faultCause []) (flushed_flushed s)⟩
  | run =>
    have hdel := deliverable_of_inv hinv
    have hfdel := deliverable_flushed s
    obtain ⟨-, -, -, -, hbuf, hqueue, -⟩ := id hinv
    have hsync : ∀ p ∈ s.opb, p.body.own ≠ .sync := own_ne_sync_of_mem_opb hbuf
    have hnew := own_ne_nextId_of_mem_opb hbuf hqueue
    have hfsync : ∀ p ∈ s.flushed.opb, p.body.own ≠ .sync := nofun
    have hzero : ∀ {p : Bool} {data : List Byte},
        i ∈ [Instr.readData 0, .writeData 0 p data, .readWriteData 0 p data, .queueRead 0, .queueReadWrite 0 p data,
          .finishRead 0] → FlushInvariant i s := fun hmem =>
      .of_fault (exec_count_zero hmode hmem) (exec_count_zero (s := s.flushed) hmode hmem)
    cases i with
    | changeMode l b payload =>
      exact .of_emits _ (flushed_flushed s) (exec_changeMode_emits hmode l b payload)
        (exec_changeMode_emits (s := s.flushed) hmode l b payload)
    | flush =>
      exact ⟨_, _, exec_flush_ok hmode hok hdel hsync, exec_flush_ok (s := s.flushed) hmode hok hfdel hfsync,
        by rw [flushed_flushed]⟩
    | readData n =>
      rcases Nat.eq_zero_or_pos n with rfl | hn
      · exact hzero (p := false) (data := []) (by simp)
      · exact ⟨_, _, exec_readData_ok hmode hok hdel hsync hn,
          exec_readData_ok (s := s.flushed) hmode hok hfdel hfsync hn, by rw [syncResult_flushed]⟩
    | writeData n p data =>
      rcases Nat.eq_zero_or_pos n with rfl | hn
      · exact hzero (p := p) (data := data) (by simp)
      · exact .of_emits _ (flushed_flushed { s with ofaults := s.checkedOfaults })
          (exec_writeData_emits hmode hn p data) (exec_writeData_emits (s := s.flushed) hmode hn p data)
    | readWriteData n p data =>
      rcases Nat.eq_zero_or_pos n with rfl | hn
      · exact hzero (p := p) (data := data) (by simp)
      · exact ⟨_, _, exec_readWriteData_result hmode hok hdel hsync hn p,
          exec_readWriteData_result (s := s.flushed) hmode hok hfdel hfsync hn p, by rw [syncResult_flushed]; rfl⟩
    | queueRead n =>
      rcases Nat.eq_zero_or_pos n with rfl | hn
      · exact hzero (p := false) (data := []) (by simp)
      · exact .of_enqueue hnew (exec_queueRead_enqueues hmode hn)
          (exec_queueRead_enqueues (s := s.flushed) hmode hn)
    | queueReadWrite n p data =>
      rcases Nat.eq_zero_or_pos n with rfl | hn
      · exact hzero (p := p) (data := data) (by simp)
      · exact .of_enqueue hnew (exec_queueReadWrite_enqueues hmode hn p data)
          (exec_queueReadWrite_enqueues (s := s.flushed) hmode hn p data)
    | finishRead n =>
      rcases Nat.eq_zero_or_pos n with rfl | hn
      · exact hzero (p := false) (data := []) (by simp)
      · exact .of_finishRead hinv hmode hok hn
    | primTmsOut | primTmsIo | primBytesOut | primBytesIn | primBytesIo | primBitsOut | primBitsIn | primBitsIo =>
      cases hi

end

/-! ## What two states have in common that are the same once flushed -/

section
variable {t u : State} (h : u.flushed = t.flushed)
include h

theorem eq_of_flushed_eq : u = { t with opb := u.opb, trace := u.trace, rrq := u.rrq } :=
  congrArg (fun x : State => { x with opb := u.opb, trace := u.trace, rrq := u.rrq }) h

theorem delivered_eq_of_flushed_eq : u.delivered = t.delivered := congrArg State.trace h

theorem completed_eq_of_flushed_eq : u.completed = t.completed := congrArg State.rrq h

end

theorem issued_eq_map_delivered (s : State) : s.issued = s.delivered.map TraceEdge.edge := by
  simp [State.issued, State.delivered]

theorem map_label_completed (s : State) : s.completed.map Entry.label = s.rrq.map Entry.label := by
  rw [State.completed, List.map_map]
  rfl

/-- Settles O57: the command gives from either state what it gives from the flushed one, once flushed. -/
theorem deliverySchedulesAgree : Obligations.DeliverySchedulesAgree := by
  intro s k i hinv hok hi
  obtain ⟨-, -, -, -, hbuf, -⟩ := id hinv
  change ∃ t u, exec i s = .next t ∧ exec i (s.deliver k s.env) = .next u ∧ _
  have hflushed := flushed_deliver (rawFits_of_mem_opb hbuf) (own_ne_sync_of_mem_opb hbuf) k
  obtain ⟨t, v, ht, hv, htv⟩ := flushInvariant_of_inv hinv hok hi
  obtain ⟨u, v', hu, hv', huv⟩ :=
    flushInvariant_of_inv (inv_deliver hinv k s.env) (by rw [deliver_env]; exact hok) hi
  rw [hflushed, hv] at hv'
  obtain rfl := Host.Outcome.next.inj hv'
  have hsame : u.flushed = t.flushed := huv.symm.trans htv
  have hdelivered := delivered_eq_of_flushed_eq hsame
  have hcompleted := completed_eq_of_flushed_eq hsame
  exact ⟨t, u, ht, hu, eq_of_flushed_eq hsame, by rw [issued_eq_map_delivered, issued_eq_map_delivered, hdelivered],
    hdelivered, by rw [← map_label_completed, ← map_label_completed, hcompleted], hcompleted⟩

end Sys2Proof.Machine
end

section
/-! The statements about executing a primitive (20_memory.md R59, 40_tap_traversal.md R125, R126, 41_shift.md R160 to
R165). -/

namespace Sys2Proof.Machine

/-- A primitive that no one owns is clocked into the trace and nowhere else. -/
theorem clock_of_own_none {p : Prim} (h : p.body.own = .none) (s : State) :
    Ops.clock p s =
      { s with trace := s.trace ++ sampleEdges s.env.oracle s.trace.length (primEdges p) } := by
  rw [Ops.clock, h]
  rfl

/-- A primitive whose raw capture has room gives the bits of its captured edges to its owner alone. -/
theorem deliversTo_clock {p : Prim} (h : rawFits p) (s : State) :
    DeliversTo s (Ops.clock p s) p.body.own
      (tdoBits (sampleEdges s.env.oracle s.trace.length (primEdges p)))
      (sampleEdges s.env.oracle s.trace.length (primEdges p)) := by
  refine ⟨?frame, ?syncCap, ?rrq⟩
  case frame =>
    have hframe := Ops.clockAll_frame [p] s
    rw [Ops.clockAll_cons, Ops.clockAll_nil, Ops.clock_trace] at hframe
    exact hframe
  case syncCap =>
    rw [Ops.clock_syncCap h, bitsOwnedBy, bitsOwnedBy, List.append_nil]
    split
    · rfl
    · exact List.append_nil _
  case rrq =>
    rw [Ops.clock_rrq h]
    exact List.map_congr_left fun e _ => afterDelivery_singleton _ _ p e

/-- Edges given by their index are sampled each at its own position. -/
theorem sampleEdges_map_range (o : TdoOracle) (pos n : Nat) (f : Nat → Edge) :
    sampleEdges o pos ((List.range n).map f) = (List.range n).map fun j => (f j).sampled o (pos + j) := by
  apply List.ext_getElem?
  intro j
  rw [getElem?_sampleEdges]
  by_cases hj : j < n
  · rw [getElem?_map_range _ hj, getElem?_map_range _ hj, Option.map_some]
  · rw [List.getElem?_eq_none (by simpa using hj), List.getElem?_eq_none (by simpa using hj), Option.map_none]

theorem sampleEdges_uncaptured (o : TdoOracle) (pos n : Nat) (tms tdi : Nat → Bool) :
    sampleEdges o pos ((List.range n).map fun j => ⟨tms j, tdi j, false⟩) =
      (List.range n).map fun j => ⟨tms j, tdi j, none⟩ := sampleEdges_map_range o pos n _

theorem sampleEdges_captured (o : TdoOracle) (pos n : Nat) (tms tdi : Nat → Bool) :
    sampleEdges o pos ((List.range n).map fun j => ⟨tms j, tdi j, true⟩) =
      (List.range n).map fun j => ⟨tms j, tdi j, some (o.bit (pos + j) (tdi j))⟩ := sampleEdges_map_range o pos n _

theorem tdoBits_captured (n : Nat) (tms tdi tdo : Nat → Bool) :
    tdoBits ((List.range n).map fun j => ⟨tms j, tdi j, some (tdo j)⟩) = (List.range n).map tdo := by
  simp [tdoBits, List.filterMap_map]

/-- A capturing primitive with its edges given by their index. -/
theorem deliversTo_clock_captured {p : Prim} (h : rawFits p) {n : Nat} {tms tdi : Nat → Bool}
    (hedges : primEdges p = (List.range n).map fun j => ⟨tms j, tdi j, true⟩) (s : State) :
    DeliversTo s (Ops.clock p s) p.body.own
      ((List.range n).map fun j => s.env.oracle.bit (s.trace.length + j) (tdi j))
      ((List.range n).map fun j => ⟨tms j, tdi j, some (s.env.oracle.bit (s.trace.length + j) (tdi j))⟩) := by
  have hclock := deliversTo_clock h s
  rwa [hedges, sampleEdges_captured, tdoBits_captured] at hclock

/-- A primitive without capture or owner, with its edges given by their index. -/
theorem clock_uncaptured {p : Prim} (h : ownerIsNone p.body = true) {n : Nat} {tms tdi : Nat → Bool}
    (hedges : primEdges p = (List.range n).map fun j => ⟨tms j, tdi j, false⟩) (s : State) :
    Ops.clock p s = { s with trace := s.trace ++ (List.range n).map fun j => ⟨tms j, tdi j, none⟩ } := by
  rw [clock_of_own_none (of_decide_eq_true h), hedges, sampleEdges_uncaptured]

/-- Settles O53: the edges of TMS_OUT and TMS_IO by their index; those of TMS_IO are all captured. -/
theorem tmsPrimitivesClockTheirEdges : Obligations.TmsPrimitivesClockTheirEdges := by
  refine fun c s b => ⟨length_primEdges _, tmsOf_tmsOut b, fun hwf => ⟨_, exec_ofPrim ⟨.tmsOut, b⟩ s, ?out⟩,
    fun _ hlen => ⟨_, exec_ofPrim ⟨.tmsIo, b⟩ s, ?io⟩⟩
  case out =>
    have hown : ownerIsNone b = true := by
      simp only [Instr.wellFormed, Bool.and_eq_true] at hwf
      exact hwf.2
    exact clock_uncaptured (p := ⟨.tmsOut, b⟩) hown rfl s
  case io => exact deliversTo_clock_captured (p := ⟨.tmsIo, b⟩) (fun _ => hlen) rfl s

/-- Settles O54: each kind's edges by their index; whole bytes fit a raw capture, and so do the at most 7 bits of a
bit primitive. -/
theorem dataPrimitivesClockTheirEdges : Obligations.DataPrimitivesClockTheirEdges := by
  intro c s b tdo byteBit lowBit
  have hbits : lenWithin b 7 = true → b.len ≤ 8 := fun h => by
    have := (of_decide_eq_true h : 1 ≤ b.len ∧ b.len ≤ 7)
    omega
  have hconst : ∀ n : Nat, List.replicate n (⟨false, true, true⟩ : Edge) =
      (List.range n).map fun _ => ⟨false, true, true⟩ := fun n => by simp
  refine ⟨fun hwf => ⟨_, exec_ofPrim ⟨.bytesOut, b⟩ s, ?bytesOut⟩, fun _ => ⟨_, exec_ofPrim ⟨.bytesIn, b⟩ s, ?bytesIn⟩,
    fun _ => ⟨_, exec_ofPrim ⟨.bytesIo, b⟩ s, ?bytesIo⟩, fun hwf => ⟨_, exec_ofPrim ⟨.bitsOut, b⟩ s, ?bitsOut⟩,
    fun hwf => ⟨_, exec_ofPrim ⟨.bitsIn, b⟩ s, ?bitsIn⟩, fun hwf => ⟨_, exec_ofPrim ⟨.bitsIo, b⟩ s, ?bitsIo⟩,
    fun low bits _ i _ j hj => getLsbD_adapterRaw_bytesIn b.len low bits i hj⟩
  case bytesOut =>
    simp only [Instr.wellFormed, Bool.and_eq_true] at hwf
    exact clock_uncaptured (p := ⟨.bytesOut, b⟩) hwf.2 rfl s
  case bitsOut =>
    simp only [Instr.wellFormed, Bool.and_eq_true] at hwf
    exact clock_uncaptured (p := ⟨.bitsOut, b⟩) hwf.2 rfl s
  case bytesIn =>
    exact deliversTo_clock_captured (p := ⟨.bytesIn, b⟩) (fun h => absurd h (by simp [capturesSubByte])) (hconst _) s
  case bytesIo =>
    exact deliversTo_clock_captured (p := ⟨.bytesIo, b⟩) (fun h => absurd h (by simp [capturesSubByte])) rfl s
  case bitsIn =>
    simp only [Instr.wellFormed, Bool.and_eq_true] at hwf
    obtain ⟨⟨⟨hlen, -⟩, -⟩, -⟩ := hwf
    exact deliversTo_clock_captured (p := ⟨.bitsIn, b⟩) (fun _ => hbits hlen) (hconst _) s
  case bitsIo =>
    simp only [Instr.wellFormed, Bool.and_eq_true] at hwf
    obtain ⟨⟨⟨hlen, -⟩, -⟩, -⟩ := hwf
    exact deliversTo_clock_captured (p := ⟨.bitsIo, b⟩) (fun _ => hbits hlen) rfl s

end Sys2Proof.Machine
end

section
/-! The statement that observation never changes behaviour (10_state.md R31, 60_exceptions.md R242). -/

namespace Sys2Proof.Machine

/-- A state without what only an observer reads. -/
def State.erased (s : State) : State := { s with tap := [], ofaults := [] }

/-- `f` gives, but for `tap` and `ofaults`, what it gives without knowing them. -/
def Blind (f : State → State) : Prop := ∀ s, (f s.erased).erased = (f s).erased

theorem Blind.comp {f g : State → State} (hg : Blind g) (hf : Blind f) : Blind fun s => g (f s) := fun s => by
  rw [← hg (f s.erased), hf s, hg (f s)]

theorem blind_respond (c : Status) (bits : List Bool) : Blind (Ops.respond c bits) := fun _ => rfl

theorem blind_enterFaulted (code : Status) : Blind (Ops.enterFaulted code) := fun s => by
  obtain ⟨_, _, mode⟩ := s
  cases mode <;> rfl

theorem blind_raiseFault (code : Status) : Blind (Ops.raiseFault code) :=
  (blind_respond code []).comp (blind_enterFaulted code)

theorem blind_clock (p : Prim) : Blind (Ops.clock p) := fun s => by
  obtain ⟨kind, len, tdi, data, own⟩ := p
  cases own <;> rfl

theorem blind_clockAll (ps : List Prim) : Blind (Ops.clockAll ps) := by
  induction ps with
  | nil => exact fun _ => rfl
  | cons p ps ih => exact ih.comp (blind_clock p)

theorem drawFailure_erased (s : State) : Ops.drawFailure s.erased = (Ops.drawFailure s).erased := by
  unfold Ops.drawFailure
  cases hok : s.env.transportOk <;> simp [State.erased, hok]

theorem drawTurn_erased (s : State) : Ops.drawTurn s.erased = (Ops.drawTurn s).erased := by
  unfold Ops.drawTurn
  cases hschedule : s.env.schedule <;> simp [State.erased, hschedule]

theorem blind_failDelivery (ps : List Prim) (m : Nat) : Blind (Ops.failDelivery ps m) := fun s => by
  rw [failDelivery_eq, failDelivery_eq]
  rfl

theorem forceDelivery_of_no_failure (after : State → State) {s : State} (hopb : s.opb ≠ [])
    (hfail : Ops.nextFailure s = none) :
    Ops.forceDelivery after s = after (Ops.clockAll s.opb { Ops.drawFailure s with opb := [] }) := by
  rcases Ops.forceDelivery_cases after s with ⟨hempty, -⟩ | ⟨-, -, h⟩ | ⟨m, -, hm, -⟩
  · exact absurd hempty hopb
  · exact h
  · rw [hfail] at hm
    cases hm

theorem forceDelivery_of_failure (after : State → State) {s : State} {m : Nat} (hopb : s.opb ≠ [])
    (hfail : Ops.nextFailure s = some m) :
    Ops.forceDelivery after s =
      Ops.respond .transportFailure [] (Ops.failDelivery s.opb m (Ops.drawFailure s)) := by
  rcases Ops.forceDelivery_cases after s with ⟨hempty, -⟩ | ⟨-, hnone, -⟩ | ⟨m', -, hm, h⟩
  · exact absurd hempty hopb
  · rw [hfail] at hnone
    cases hnone
  · obtain rfl := Option.some.inj (hfail.symm.trans hm)
    exact h

/-- A forced delivery reads neither, if what comes after it does not. -/
theorem blind_forceDelivery {after : State → State} (h : Blind after) : Blind (Ops.forceDelivery after) := by
  intro s
  by_cases hopb : s.opb = []
  · rw [Ops.forceDelivery_empty after s hopb, Ops.forceDelivery_empty after s.erased hopb]
    exact h s
  · cases hfail : Ops.nextFailure s with
    | none =>
      rw [forceDelivery_of_no_failure after hopb hfail, forceDelivery_of_no_failure after (s := s.erased) hopb hfail,
        drawFailure_erased]
      exact (h.comp (blind_clockAll s.opb)) { Ops.drawFailure s with opb := [] }
    | some m =>
      rw [forceDelivery_of_failure after hopb hfail, forceDelivery_of_failure after (s := s.erased) hopb hfail,
        drawFailure_erased]
      exact ((blind_respond .transportFailure []).comp (blind_failDelivery s.opb m)) (Ops.drawFailure s)

theorem blind_runCommand {body : State → State} (h : Blind body) : Blind (Ops.runCommand body) := by
  intro s
  cases hmode : s.mode with
  | faulted => rw [Ops.runCommand_faulted body s hmode, Ops.runCommand_faulted body s.erased hmode]; rfl
  | run =>
    rw [Ops.runCommand_run body s hmode, Ops.runCommand_run body s.erased hmode]
    exact congrArg State.counted (h s)

theorem blind_runCounted (n : Nat) {body : State → State} (h : Blind body) : Blind (Ops.runCounted n body) :=
  blind_runCommand fun s => by
    by_cases hn : n = 0
    · simpa only [hn, if_true] using blind_raiseFault .invalidArgument s
    · simpa only [hn, if_false] using h s

theorem blind_enqueue (n : Nat) (kind : EntryKind) (prims : State → Owner → List Prim)
    (hprims : ∀ s : State, prims s.erased = prims s) : Blind fun s => Ops.enqueue n kind (prims s) s := by
  intro s
  dsimp only
  rw [hprims]
  by_cases hroom : s.rrq.length < s.params.rrqDepth
  · rw [Ops.enqueue_enqueued hroom, Ops.enqueue_enqueued (s := s.erased) hroom]
    rfl
  · rw [Ops.enqueue_full _ _ _ _ (Nat.not_lt.mp hroom), Ops.enqueue_full _ _ _ s.erased (Nat.not_lt.mp hroom)]
    rfl

theorem blind_retire (n : Nat) : Blind (Ops.retire n) := by
  intro s
  cases hrrq : s.rrq with
  | nil =>
    have hnil : ∀ x : State, x.rrq = [] → Ops.retire n x = Ops.respond .ok [] x := fun x hx => by
      simp [Ops.retire, hx]
    rw [hnil s hrrq, hnil s.erased hrrq]
    rfl
  | cons head rest =>
    rw [Ops.retire_cons n s head rest hrrq, Ops.retire_cons n s.erased head rest hrrq]
    rfl

theorem blind_endRun : Blind Ops.endRun := fun s => by
  rw [Ops.endRun_eq, Ops.endRun_eq]
  rfl

theorem blind_recordEnd : Blind Ops.recordEnd := by
  intro s
  rw [Ops.recordEnd_eq, Ops.recordEnd_eq]
  change (if s.atRunEnd = true ∧ s.runEnded = false then Ops.endRun s.erased else s.erased).erased = _
  split
  · exact blind_endRun s
  · rfl

theorem blind_teardown : Blind Ops.teardown := fun s =>
  congrArg (fun x : State => { x with opb := [], rrq := [], released := true }) (blind_recordEnd s)

theorem blind_drawTurn : Blind Ops.drawTurn := fun s => by
  rw [drawTurn_erased]
  rfl

theorem blind_drawFailure : Blind Ops.drawFailure := fun s => by
  rw [drawFailure_erased]
  rfl

/-- The draws of a free delivery, whatever is left in `opb`. -/
theorem blind_drawn (opb : List Prim) : Blind fun s => { Ops.drawFailure (Ops.drawTurn s) with opb := opb } :=
  fun s => congrArg (fun x : State => { x with opb := opb }) ((blind_drawFailure.comp blind_drawTurn) s)

theorem blind_hold : Blind Ops.hold := blind_recordEnd.comp blind_drawTurn

theorem blind_fetched (rest : List Byte) : Blind (Ops.fetched rest) := fun s =>
  blind_drawTurn { s with input := rest }

theorem blind_syncStarted (ps : State → List Prim) (hps : ∀ s : State, ps s.erased = ps s) :
    Blind fun s => Ops.emitAll (ps s) { Ops.checkShift s with syncCap := [] } := by
  intro s
  dsimp only
  rw [hps, Ops.checkShift_eq, Ops.checkShift_eq]
  rfl

/-- Every instruction completes, and reads neither `tap` nor `ofaults`. -/
theorem exec_blind (i : Instr) : ∃ f, Blind f ∧ ∀ s, exec i s = .next (f s) := by
  have hprim : ∀ p : Prim, ∃ f, Blind f ∧ ∀ s, exec (Instr.ofPrim p) s = .next (f s) := fun p =>
    ⟨Ops.clock p, blind_clock p, exec_ofPrim p⟩
  cases i with
  | changeMode l t payload =>
    exact ⟨_, blind_runCommand fun _ => rfl, fun _ => rfl⟩
  | readData n =>
    exact ⟨_, blind_runCounted n ((blind_forceDelivery fun _ => rfl).comp (blind_syncStarted _ fun _ => rfl)),
      fun _ => rfl⟩
  | writeData n p data =>
    refine ⟨_, blind_runCounted n fun s => ?_, fun _ => rfl⟩
    rw [Ops.checkShift_eq, Ops.checkShift_eq]
    rfl
  | readWriteData n p data =>
    exact ⟨_, blind_runCounted n ((blind_forceDelivery fun _ => rfl).comp (blind_syncStarted _ fun _ => rfl)),
      fun _ => rfl⟩
  | flush => exact ⟨_, blind_runCommand (blind_forceDelivery (blind_respond .ok [])), fun _ => rfl⟩
  | queueRead n => exact ⟨_, blind_runCounted n (blind_enqueue n .read _ fun _ => rfl), fun _ => rfl⟩
  | queueReadWrite n p data => exact ⟨_, blind_runCounted n (blind_enqueue n .readWrite _ fun _ => rfl), fun _ => rfl⟩
  | finishRead n =>
    refine ⟨_, blind_runCounted n fun s => ?_, fun _ => rfl⟩
    have herased : s.erased.rrq = s.rrq := rfl
    cases hrrq : s.rrq with
    | nil =>
      simp only [herased, hrrq]
      exact blind_raiseFault .queueEmpty s
    | cons head rest =>
      simp only [herased, hrrq]
      split
      · exact blind_raiseFault .queueMismatch s
      · split
        · exact blind_forceDelivery (blind_retire n) s
        · exact blind_retire n s
  | primTmsOut b => exact hprim ⟨.tmsOut, b⟩
  | primTmsIo b => exact hprim ⟨.tmsIo, b⟩
  | primBytesOut b => exact hprim ⟨.bytesOut, b⟩
  | primBytesIn b => exact hprim ⟨.bytesIn, b⟩
  | primBytesIo b => exact hprim ⟨.bytesIo, b⟩
  | primBitsOut b => exact hprim ⟨.bitsOut, b⟩
  | primBitsIn b => exact hprim ⟨.bitsIn, b⟩
  | primBitsIo b => exact hprim ⟨.bitsIo, b⟩

/-- A step of a live session reads neither. -/
theorem step_blind {s : State} (hlive : s.released = false) :
    ∃ f, Blind f ∧ step s = .next (f s) ∧ step s.erased = .next (f s.erased) := by
  by_cases hhost : s.host = .releasing
  · exact ⟨_, blind_teardown, Ops.cycle_releasing exec hlive hhost,
      Ops.cycle_releasing exec (s := s.erased) hlive hhost⟩
  · by_cases hmoves : s.env.turn = .sequencer ∨ s.opb = []
    · rw [step_sequencer ⟨hlive, hhost, hmoves⟩, step_sequencer (s := s.erased) ⟨hlive, hhost, hmoves⟩]
      cases hdec : decode s.input with
      | incomplete =>
        exact ⟨_, blind_hold, Ops.sequencerTurn_incomplete exec hdec,
          Ops.sequencerTurn_incomplete exec (s := s.erased) hdec⟩
      | illegal why rest =>
        exact ⟨_, (blind_runCommand (blind_raiseFault .illegalCommand)).comp (blind_fetched rest),
          Ops.sequencerTurn_illegal exec hdec, Ops.sequencerTurn_illegal exec (s := s.erased) hdec⟩
      | command i rest =>
        obtain ⟨f, hblind, hexec⟩ := exec_blind i
        rw [Ops.sequencerTurn_command exec hdec, Ops.sequencerTurn_command exec (s := s.erased) hdec]
        exact ⟨_, hblind.comp (blind_fetched rest), hexec _, hexec _⟩
    · obtain ⟨hturn, hopb⟩ := not_or.mp hmoves
      obtain ⟨k, hk⟩ : ∃ k, s.env.turn = .transport k := by
        cases ht : s.env.turn with
        | sequencer => exact absurd ht hturn
        | transport k => exact ⟨k, rfl⟩
      cases hfail : Ops.nextFailure s with
      | none =>
        exact ⟨_, (blind_clockAll _).comp (blind_drawn (s.opb.drop (k + 1))),
          step_transport_succeeds hlive hhost hk hopb hfail,
          step_transport_succeeds (s := s.erased) hlive hhost hk hopb hfail⟩
      | some m =>
        exact ⟨_, (blind_failDelivery _ m).comp (blind_drawFailure.comp blind_drawTurn),
          step_transport_fails hlive hhost hk hopb hfail,
          step_transport_fails (s := s.erased) hlive hhost hk hopb hfail⟩

/-- States that are equal once erased differ only in what an observer reads. -/
theorem eq_of_erased_eq {t u : State} (h : u.erased = t.erased) : { u with tap := t.tap, ofaults := t.ofaults } = t :=
  congrArg (fun x : State => { x with tap := t.tap, ofaults := t.ofaults }) h

/-- Settles O56: both states are erased to the same one, and what is run from each agrees with what is run from that. -/
theorem observationNeverChangesBehaviour : Obligations.ObservationNeverChangesBehaviour := by
  intro s tap of
  set s' : State := { s with tap := tap, ofaults := of }
  refine ⟨fun i => ?instruction, ?step⟩
  case instruction =>
    obtain ⟨f, hblind, hexec⟩ := exec_blind i
    exact ⟨_, _, hexec s, hexec s', eq_of_erased_eq ((hblind s').symm.trans (hblind s))⟩
  case step =>
    cases hlive : s.released with
    | true => exact .inr ⟨rfl, by simp [step, Ops.cycle, hlive], by simp [s', step, Ops.cycle, hlive]⟩
    | false =>
      obtain ⟨f, hf, hstep, herased⟩ := step_blind hlive
      obtain ⟨g, hg, hstep', herased'⟩ := step_blind (s := s') hlive
      have hsame : f s.erased = g s.erased := Host.Outcome.next.inj (herased.symm.trans herased')
      refine .inl ⟨_, _, hstep, hstep', eq_of_erased_eq ?_⟩
      rw [← hf s, ← hg s', hsame]
      rfl

end Sys2Proof.Machine
end
